-- ==== Sys2Proof/Word.lean ====
section
/-! DEFINITION. The byte, the only width the block moves (spec/30_encoding.md R67, spec/20_memory.md R40, R43). -/

namespace Sys2Proof

/-- A byte: 8 bits, bit 0 the least significant (R7). Pin bytes, sample bytes and buffer elements are bytes. -/
abbrev Byte := BitVec 8

end Sys2Proof
end

