-- ==== Sys2Proof/Syntax.lean ====
section
/-! DEFINITION. The operations of the opcode map (spec/30_encoding.md R68), their operands (R66, R69), the names of
the operations, and the pseudo-operations (R74). -/

namespace Sys2Proof

/-- A TAP state, by its index in the TapService's table (R20; log 14). The state type is a parameter of the block, so
an operand is in range only relative to a TapService: see WellFormed. -/
abbrev TapState := Nat

/-- An argument string of SET_LATENCY, as the bytes of its characters (R68, R69; log 12). -/
abbrev ArgString := List Byte

/-- The two buffers a query names (R68). -/
inductive Buf
  | tx
  | rx
deriving DecidableEq, Repr, Inhabited

/-- The 31 operations by name, one per row of the opcode map (R68). Events and faults record one (R25, R32). -/
inductive Op
  | encode | encodeRst | enq | pulse | idle | qAvail | qEmpty | qFull | flush | rxRead | transition
  | cmdReset | cmdRuntest | cmdPathmove | cmdStableclocks | cmdTms | cmdSleep | cmdScan
  | adpEmit | adpFlush | adpDelay | adpAssertReset | adpAvail | adpRead
  | openSession | closeSession | setSpeed | speedToKhz | khzToSpeed | setLatency | execute
deriving DecidableEq, Repr, Inhabited

/-- A command record of an EXECUTE queue: "a tagged variant with kinds {scan, reset, run-test, path-move, sleep,
stable-clocks, raw-TMS-sequence}" and its fields (R66). -/
inductive Command
  | reset (trst srst : Bool)
  | runtest (cycles : Nat) (endState : TapState)
  | pathmove (path : List TapState)
  | stableclocks (cycles : Nat)
  | tms (nbits : Nat) (bits : List Byte)
  | sleep (us : Nat)
  | scan (payload : List Byte)
deriving DecidableEq, Repr, Inhabited

/-- An operation with its operands, one constructor per row of the opcode map (R68). -/
inductive Instr
  | encode (tck tms tdi sreq : Bool)
  | encodeRst (trst srst : Bool)
  | enq (b : Byte)
  | pulse (tms tdi sreq : Bool)
  | idle
  | qAvail (buf : Buf)
  | qEmpty (buf : Buf)
  | qFull (buf : Buf)
  | flush
  | rxRead
  | transition (target : TapState)
  | cmdReset (trst srst : Bool)
  | cmdRuntest (cycles : Nat) (endState : TapState)
  | cmdPathmove (path : List TapState)
  | cmdStableclocks (cycles : Nat)
  | cmdTms (nbits : Nat) (bits : List Byte)
  | cmdSleep (us : Nat)
  | cmdScan (payload : List Byte)
  | adpEmit (clock select data sampleRequest : Bool)
  | adpFlush
  | adpDelay (us : Nat)
  | adpAssertReset (lineA lineB : Bool)
  | adpAvail
  | adpRead
  | openSession
  | closeSession
  | setSpeed (khz : Nat)
  | speedToKhz (speed : Nat)
  | khzToSpeed (khz : Int)
  | setLatency (args : List ArgString)
  | execute (queue : List Command)
deriving DecidableEq, Repr, Inhabited

/-- The name of an operation (R68). -/
def Instr.op : Instr → Op
  | .encode _ _ _ _ => .encode
  | .encodeRst _ _ => .encodeRst
  | .enq _ => .enq
  | .pulse _ _ _ => .pulse
  | .idle => .idle
  | .qAvail _ => .qAvail
  | .qEmpty _ => .qEmpty
  | .qFull _ => .qFull
  | .flush => .flush
  | .rxRead => .rxRead
  | .transition _ => .transition
  | .cmdReset _ _ => .cmdReset
  | .cmdRuntest _ _ => .cmdRuntest
  | .cmdPathmove _ => .cmdPathmove
  | .cmdStableclocks _ => .cmdStableclocks
  | .cmdTms _ _ => .cmdTms
  | .cmdSleep _ => .cmdSleep
  | .cmdScan _ => .cmdScan
  | .adpEmit _ _ _ _ => .adpEmit
  | .adpFlush => .adpFlush
  | .adpDelay _ => .adpDelay
  | .adpAssertReset _ _ => .adpAssertReset
  | .adpAvail => .adpAvail
  | .adpRead => .adpRead
  | .openSession => .openSession
  | .closeSession => .closeSession
  | .setSpeed _ => .setSpeed
  | .speedToKhz _ => .speedToKhz
  | .khzToSpeed _ => .khzToSpeed
  | .setLatency _ => .setLatency
  | .execute _ => .execute

/-- The operation a command record is dispatched to: "Each command kind maps to exactly one handler" (R138). -/
def Command.toInstr : Command → Instr
  | .reset trst srst => .cmdReset trst srst
  | .runtest cycles endState => .cmdRuntest cycles endState
  | .pathmove path => .cmdPathmove path
  | .stableclocks cycles => .cmdStableclocks cycles
  | .tms nbits bits => .cmdTms nbits bits
  | .sleep us => .cmdSleep us
  | .scan payload => .cmdScan payload

/-- The pseudo-operations of R74. -/
inductive Pseudo
  | clock (tms : Bool)
  | adpClock (tms tdi sreq : Bool)
  | hreset
  | sreset
  | release
  | idleclk (n : Nat)
  | sync
deriving DecidableEq, Repr

/-- The expansion of a pseudo-operation (R74); `idleState` is the TapService's TAP_IDLE. -/
def Pseudo.expand (idleState : TapState) : Pseudo → List Instr
  | .clock tms => [.pulse tms false false]
  | .adpClock tms tdi sreq => [.adpEmit false tms tdi false, .adpEmit true tms tdi sreq]
  | .hreset => [.cmdReset true false]
  | .sreset => [.cmdReset false true]
  | .release => [.cmdReset false false]
  | .idleclk n => [.cmdRuntest n idleState]
  | .sync => [.flush]

end Sys2Proof
end

