-- ==== Sys2Proof/Machine/Outside.lean ====
section
/-! DEFINITION. What the agents outside the block can answer: the Device (spec/41_transport.md R101, spec/45_host.md R161)
and the ScanLayer (spec/43_commands.md R137). Plain data; the answers themselves are draws (log 3, 5, 6). -/

namespace Sys2Proof.Machine

open Sys2Proof

/-- One answer of the Device to a transfer iteration, before R101's bounds are put on it (log 3). -/
structure DevAnswer where
  /-- The write count; negative: the write failed. -/
  w : Int
  /-- The read count; negative: the read failed. -/
  r : Int
  /-- The bytes read, oldest first. -/
  data : List Byte
  /-- The bytes read after those of `data`. -/
  fill : Byte
  /-- How many bytes of the request a failed write still put on the lines (R101, I13). -/
  lost : Nat
deriving DecidableEq, Repr, Inhabited

/-- What the Device does with a transfer iteration: answer, or make no progress for ever (I14). -/
inductive DevReply
  | answers (a : DevAnswer)
  | hangs
deriving DecidableEq, Repr

/-- A call of a Device configuration primitive (R161). -/
inductive DevCall
  | claim (vid pid : BitVec 16)
  | setBitbang (mask : Byte)
  | setLatency (latency : Nat)
  | setClock (khz : Nat)
  | release
deriving DecidableEq, Repr

/-- An adapter operation the ScanLayer issues (R150). -/
inductive AdpOp
  | emit (clock select data sampleRequest : Bool)
  | flush
  | delay (us : Nat)
  | assertReset (lineA lineB : Bool)
  | avail
  | read
deriving DecidableEq, Repr

/-- One scan of the ScanLayer that returns: the adapter operations it issues, in order, and the TAP state it leaves
(R137). -/
structure ScanRun where
  ops : List AdpOp
  leaves : TapState
deriving DecidableEq, Repr, Inhabited

/-- What the ScanLayer does with a scan: "it returns or never returns" (R137). -/
inductive ScanReply
  | returns (run : ScanRun)
  | hangs
deriving DecidableEq, Repr, Inhabited

/-- What the agents outside have pending, oldest first. The fields are the model's own (log 3, 5, 6, 10, 15). -/
structure Outside where
  /-- The Host's calls, as the bytes of their operation words (R205, log 10). -/
  calls : List Byte
  /-- The TapService owner's writes of tap_end, one entry per step, none for no write (R20, log 15). -/
  endWrites : List (Option TapState)
  /-- The Device's replies to the coming transfer iterations (R101). -/
  replies : List DevReply
  /-- The Device's results of the coming configuration primitives, true for OK (R161). -/
  primitives : List Bool
  /-- The ScanLayer's coming scans (R137). -/
  scans : List ScanReply
  /-- How many draws were taken from the opaque constants of Config. -/
  drawn : Nat
deriving DecidableEq, Repr

end Sys2Proof.Machine
end

