-- ==== Sys2Proof/Config.lean ====
section
/-! DEFINITION. The implementation parameters (spec/00_scope.md R5), the constraints R5 puts on them, the free values they
and the outside agents' draws take (opaque: no proof can see them), and the reference values of
spec/95_test_vectors.md, which only tests and R75's table use (log 1, 30). -/

namespace Sys2Proof

open Machine

/-- OVERFLOW_POLICY: what an append to a full transmit buffer does (R5, R92). -/
inductive OverflowPolicy
  | flushOnFull
  | dropAndLog
deriving DecidableEq, Repr, Inhabited

/-- RX_SAMPLE_FORM: whether a retained sample is the read byte or its TDO bit (R5, R109). -/
inductive RxSampleForm
  | raw
  | bit
deriving DecidableEq, Repr, Inhabited

/-- PIN_MAP: the positions of the six fields of a transmitted byte and of TDO in a received byte (R5, R60, R63). -/
structure PinMap where
  tck : Fin 8
  tms : Fin 8
  tdi : Fin 8
  sreq : Fin 8
  trst : Fin 8
  srst : Fin 8
  tdo : Fin 8
deriving DecidableEq, Repr, Inhabited

/-- "the six transmit positions pairwise distinct" (R5, R60). -/
def PinMap.distinct (p : PinMap) : Bool := decide [p.tck, p.tms, p.tdi, p.sreq, p.trst, p.srst].Nodup

/-- A TMS path of the TapService: clock k carries bit k of the pattern, for k below the count (R20, R64). -/
structure TapMove where
  pattern : Nat
  count : Nat
deriving DecidableEq, Repr, Inhabited

/-- What the TapService knows of one TAP state: whether it is stable, its successors under TMS = 0 and TMS = 1, and the
path to each state, by that state's index (R20). -/
structure TapRow where
  stable : Bool
  succ0 : TapState
  succ1 : TapState
  paths : List TapMove
deriving DecidableEq, Repr, Inhabited

/-- The TapService parameter as a table, one row per state, and its two named states (R5, R20; log 14). -/
structure TapService where
  first : TapRow
  others : List TapRow
  resetName : TapState
  idleName : TapState
deriving DecidableEq, Repr, Inhabited

/-- How many states the TapService has: at least one. -/
def TapService.count (t : TapService) : Nat := t.others.length + 1

/-- An index read as a state of the TapService: the index itself wherever it is in range (log 14). -/
def TapService.norm (t : TapService) (s : TapState) : TapState := s % t.count

/-- The parameters of R5, "constants of the session, fixed for its lifetime" (R10). -/
structure Params where
  txCap : Nat
  rxCap : Nat
  frame : Nat
  policy : OverflowPolicy
  pins : PinMap
  rxForm : RxSampleForm
  srstPullsTrst : Bool
  outputMask : Byte
  devVid : BitVec 16
  devPid : BitVec 16
  initKhz : Nat
  initLatency : Nat
  tap : TapService
deriving DecidableEq, Repr

/-- "power of two, 64 <= CAP <= 16384" (R5). -/
def capacityOk (n : Nat) : Bool := [64, 128, 256, 512, 1024, 2048, 4096, 8192, 16384].contains n

/-- The constraints R5 puts on the parameters. -/
def Params.ok (c : Params) : Bool :=
  capacityOk c.txCap && capacityOk c.rxCap && decide (1 ≤ c.frame) && c.pins.distinct && decide (1 ≤ c.initKhz) &&
    decide (c.initLatency ≤ 255)

/-! ### The free values (log 1, 2, 3, 5, 6) -/

/-- TX_CAP is 64 times this power of two (R5). -/
opaque Config.txCapPower : Fin 9

/-- RX_CAP is 64 times this power of two (R5). -/
opaque Config.rxCapPower : Fin 9

/-- FRAME is one more than this (R5). -/
opaque Config.frameLessOne : Nat

/-- An order of the eight bit positions; the six fields of a pin byte stand at its first six (R5, R60). -/
opaque Config.pinOrder : Equiv.Perm (Fin 8)

/-- P_TDO (R5, R63). -/
opaque Config.tdo : Fin 8

/-- RX_SAMPLE_FORM (R5). -/
opaque Config.rxForm : RxSampleForm

/-- SRST_PULLS_TRST (R5). -/
opaque Config.srstPullsTrst : Bool

/-- OUTPUT_MASK (R5). -/
opaque Config.outputMask : Byte

/-- DEV_VID (R5). -/
opaque Config.devVid : BitVec 16

/-- DEV_PID (R5). -/
opaque Config.devPid : BitVec 16

/-- INIT_KHZ is one more than this (R5). -/
opaque Config.initKhzLessOne : Nat

/-- INIT_LATENCY (R5). -/
opaque Config.initLatency : Fin 256

/-- The row of the TapService's first state (R5, R20). -/
opaque Config.tapFirst : TapRow

/-- The rows of the TapService's other states (R5, R20). -/
opaque Config.tapOthers : List TapRow

/-- TAP_RESET (R20). -/
opaque Config.tapReset : TapState

/-- TAP_IDLE (R20). -/
opaque Config.tapIdle : TapState

/-- `tap_cur` at power-on, "unspecified (TapService's; a draw)" (R30, I17). -/
opaque Config.tapCurAtStart : TapState

/-- `tap_end` at power-on, "unspecified (TapService's; a draw)" (R30, I17). -/
opaque Config.tapEndAtStart : TapState

/-- The Device's answer to the n-th draw, where no answer is listed (R101, I10, I11, I13). -/
opaque Config.devAnswer : Nat → DevAnswer

/-- The Device's result of a configuration primitive at the n-th draw, where none is listed (R161, I16). -/
opaque Config.devStatus : DevCall → Nat → Bool

/-- What the ScanLayer does with a payload at the n-th draw, where no scan is listed: "it returns or never returns" (R137,
I9). -/
opaque Config.scanReply : List Byte → Nat → ScanReply

/-- The parameters of the machine that State.reset describes: OVERFLOW_POLICY as R5 fixes it, every other parameter OPEN
within R5's constraints (log 1, 25). -/
def Config.params : Params where
  txCap := 64 * 2 ^ Config.txCapPower.val
  rxCap := 64 * 2 ^ Config.rxCapPower.val
  frame := Config.frameLessOne + 1
  policy := .flushOnFull
  pins :=
    { tck := Config.pinOrder 0, tms := Config.pinOrder 1, tdi := Config.pinOrder 2, sreq := Config.pinOrder 3,
      trst := Config.pinOrder 4, srst := Config.pinOrder 5, tdo := Config.tdo }
  rxForm := Config.rxForm
  srstPullsTrst := Config.srstPullsTrst
  outputMask := Config.outputMask
  devVid := Config.devVid
  devPid := Config.devPid
  initKhz := Config.initKhzLessOne + 1
  initLatency := Config.initLatency.val
  tap := { first := Config.tapFirst, others := Config.tapOthers, resetName := Config.tapReset, idleName := Config.tapIdle }

/-! ### The reference values, for tests and R75 only (log 30) -/

/-- The reference PIN_MAP (R5, R60, R75). -/
def Config.referencePins : PinMap := { tck := 0, tdi := 1, sreq := 2, tms := 3, trst := 4, srst := 5, tdo := 2 }

end Sys2Proof
end

