-- ==== Sys2Proof/WellFormed.lean ====
section
/-! DEFINITION. Which operations are well formed (spec/30_encoding.md R65, R69, R71). A bit operand other than 0 or 1 and
a byte operand over 255 are no terms of Instr: the decoder refuses a bit byte other than 0 or 1, and one byte
carries a byte operand. The two checks left are R71's other two: a TAP state outside the TapService's state type,
and a CMD_TMS record whose list is shorter than ceil(nbits / 8). -/

namespace Sys2Proof

/-- A TAP state is one of the `count` states of the TapService (R69, R71). -/
def tapStateOk (count : Nat) (t : TapState) : Bool := decide (t < count)

/-- The bit array of a raw TMS sequence holds at least ceil(nbits / 8) bytes (R65, R71). -/
def tmsBitsOk (nbits : Nat) (bits : List Byte) : Bool := decide ((nbits + 7) / 8 ≤ bits.length)

/-- A command record is well formed under a TapService of `count` states (R66, R71). -/
def Command.wellFormed (count : Nat) : Command → Bool
  | .reset _ _ => true
  | .runtest _ endState => tapStateOk count endState
  | .pathmove path => path.all (tapStateOk count)
  | .stableclocks _ => true
  | .tms nbits bits => tmsBitsOk nbits bits
  | .sleep _ => true
  | .scan _ => true

/-- An operation is well formed under a TapService of `count` states (R69, R71). -/
def Instr.wellFormed (count : Nat) : Instr → Bool
  | .encode _ _ _ _ => true
  | .encodeRst _ _ => true
  | .enq _ => true
  | .pulse _ _ _ => true
  | .idle => true
  | .qAvail _ => true
  | .qEmpty _ => true
  | .qFull _ => true
  | .flush => true
  | .rxRead => true
  | .transition target => tapStateOk count target
  | .cmdReset _ _ => true
  | .cmdRuntest _ endState => tapStateOk count endState
  | .cmdPathmove path => path.all (tapStateOk count)
  | .cmdStableclocks _ => true
  | .cmdTms nbits bits => tmsBitsOk nbits bits
  | .cmdSleep _ => true
  | .cmdScan _ => true
  | .adpEmit _ _ _ _ => true
  | .adpFlush => true
  | .adpDelay _ => true
  | .adpAssertReset _ _ => true
  | .adpAvail => true
  | .adpRead => true
  | .openSession => true
  | .closeSession => true
  | .setSpeed _ => true
  | .speedToKhz _ => true
  | .khzToSpeed _ => true
  | .setLatency _ => true
  | .execute queue => queue.all (Command.wellFormed count)

end Sys2Proof
end

