-- ==== Sys2Proof/Decode.lean ====
section
/-! DEFINITION. The opcode map (spec/30_encoding.md R67, R68), a decoder that is total on any bytes and rejects by name
(R70, spec/60_exceptions.md R182), and the encoder. The spec gives an operation word as a record of an 8-bit opcode and
typed operands and no byte layout for the operands; the layout here is the model's (log 11): the opcode byte, then
the operands in R68's order. A bit is one byte 0 or 1; a byte is one byte; a buffer is one byte, 0 for tx and 1 for rx;
a natural is its base-128 digits, least significant first, with bit 7 set on every byte but the last and no zero last
digit after another byte; a signed integer n is the natural 2n, or -2n-1 when negative; a list is its length as a
natural and then its elements; a command record is its kind tag, which is its operation's opcode, and then its fields. -/

namespace Sys2Proof

/-- The opcode of an operation (R68). -/
def opCode : Op → Nat
  | .encode => 0x00
  | .encodeRst => 0x01
  | .enq => 0x02
  | .pulse => 0x03
  | .idle => 0x04
  | .qAvail => 0x05
  | .qEmpty => 0x06
  | .qFull => 0x07
  | .flush => 0x08
  | .rxRead => 0x09
  | .transition => 0x0A
  | .cmdReset => 0x10
  | .cmdRuntest => 0x11
  | .cmdPathmove => 0x12
  | .cmdStableclocks => 0x13
  | .cmdTms => 0x14
  | .cmdSleep => 0x15
  | .cmdScan => 0x16
  | .adpEmit => 0x20
  | .adpFlush => 0x21
  | .adpDelay => 0x22
  | .adpAssertReset => 0x23
  | .adpAvail => 0x24
  | .adpRead => 0x25
  | .openSession => 0x30
  | .closeSession => 0x31
  | .setSpeed => 0x32
  | .speedToKhz => 0x33
  | .khzToSpeed => 0x34
  | .setLatency => 0x35
  | .execute => 0x36

/-- The operations, in the opcode map's order (R68). -/
def allOps : List Op :=
  [.encode, .encodeRst, .enq, .pulse, .idle, .qAvail, .qEmpty, .qFull, .flush, .rxRead, .transition] ++
  [.cmdReset, .cmdRuntest, .cmdPathmove, .cmdStableclocks, .cmdTms, .cmdSleep, .cmdScan] ++
  [.adpEmit, .adpFlush, .adpDelay, .adpAssertReset, .adpAvail, .adpRead] ++
  [.openSession, .closeSession, .setSpeed, .speedToKhz, .khzToSpeed, .setLatency, .execute]

/-- The operation an opcode selects, matched exactly (mask 0xFF, R67); none for an opcode not in the map (R70). -/
def opOfCode (code : Nat) : Option Op := allOps.find? (fun o => opCode o == code)

/-- Why the decoder refuses a word (R70, R71, R182). -/
inductive DecodeError
  /-- The word ends before its last operand. -/
  | truncated
  /-- The opcode is not in the map (R70). -/
  | unknownOp (code : Nat)
  /-- A command record's kind tag is not one of 0x10..0x16 (R70). -/
  | unknownKind (tag : Nat)
  /-- A bit operand other than 0 or 1 (R71). -/
  | badBit (value : Nat)
  /-- A buffer operand that is neither tx nor rx (R68, R71). -/
  | badBuffer (value : Nat)
  /-- A natural written with a zero last digit (the model's layout, log 11). -/
  | overlong
deriving DecidableEq, Repr

/-- A reader of operand bytes: a value and the bytes left, or a refusal. -/
abbrev Parse (α : Type) := List Byte → Except DecodeError (α × List Byte)

/-- Read with `p`, then with `f` of what it read. -/
def andThen {α β : Type} (p : Parse α) (f : α → Parse β) : Parse β := fun bs =>
  match p bs with
  | .ok (a, rest) => f a rest
  | .error e => .error e

/-- Read nothing. -/
def give {α : Type} (a : α) : Parse α := fun bs => .ok (a, bs)

/-- A byte operand. -/
def takeByte : Parse Byte
  | [] => .error .truncated
  | b :: bs => .ok (b, bs)

/-- A bit operand: 0 or 1, anything else refused (R71). -/
def takeBit : Parse Bool
  | [] => .error .truncated
  | b :: bs => if b = 0 then .ok (false, bs) else if b = 1 then .ok (true, bs) else .error (.badBit b.toNat)

/-- A buffer operand (R68). -/
def takeBuf : Parse Buf
  | [] => .error .truncated
  | b :: bs => if b = 0 then .ok (.tx, bs) else if b = 1 then .ok (.rx, bs) else .error (.badBuffer b.toNat)

/-- A natural operand of any size (R69). -/
def takeNat : Parse Nat
  | [] => .error .truncated
  | b :: bs =>
    if b.toNat < 128 then .ok (b.toNat, bs)
    else match takeNat bs with
      | .ok (0, _) => .error .overlong
      | .ok (n + 1, rest) => .ok (b.toNat - 128 + 128 * (n + 1), rest)
      | .error e => .error e

/-- The integer a natural stands for. -/
def unzigzag (n : Nat) : Int := if n % 2 = 0 then Int.ofNat (n / 2) else Int.negSucc (n / 2)

/-- A signed integer operand (R69). -/
def takeInt : Parse Int := andThen takeNat fun n => give (unzigzag n)

/-- A given number of elements. -/
def takeMany {α : Type} (p : Parse α) : Nat → Parse (List α)
  | 0 => give []
  | n + 1 => andThen p fun a => andThen (takeMany p n) fun as => give (a :: as)

/-- A list operand, whose length the list itself carries (R72). -/
def takeList {α : Type} (p : Parse α) : Parse (List α) := andThen takeNat fun n => takeMany p n

/-- The fields of a command record of a kind (R66); refused where the operation is no command (R70). -/
def takeFields : Op → Parse Command
  | .cmdReset => andThen takeBit fun trst => andThen takeBit fun srst => give (.reset trst srst)
  | .cmdRuntest => andThen takeNat fun cycles => andThen takeNat fun endState => give (.runtest cycles endState)
  | .cmdPathmove => andThen (takeList takeNat) fun path => give (.pathmove path)
  | .cmdStableclocks => andThen takeNat fun cycles => give (.stableclocks cycles)
  | .cmdTms => andThen takeNat fun nbits => andThen (takeList takeByte) fun bits => give (.tms nbits bits)
  | .cmdSleep => andThen takeNat fun us => give (.sleep us)
  | .cmdScan => andThen (takeList takeByte) fun payload => give (.scan payload)
  | op => fun _ => .error (.unknownKind (opCode op))

/-- A command record: its kind tag, then its fields (R66, R67). -/
def takeCommand : Parse Command :=
  andThen takeByte fun tag =>
    match opOfCode tag.toNat with
    | some op => takeFields op
    | none => fun _ => .error (.unknownKind tag.toNat)

/-- The operands of an operation, in R68's order. -/
def takeOperands : Op → Parse Instr
  | .encode =>
    andThen takeBit fun tck => andThen takeBit fun tms => andThen takeBit fun tdi => andThen takeBit fun sreq =>
      give (.encode tck tms tdi sreq)
  | .encodeRst => andThen takeBit fun trst => andThen takeBit fun srst => give (.encodeRst trst srst)
  | .enq => andThen takeByte fun b => give (.enq b)
  | .pulse => andThen takeBit fun tms => andThen takeBit fun tdi => andThen takeBit fun sreq => give (.pulse tms tdi sreq)
  | .idle => give .idle
  | .qAvail => andThen takeBuf fun buf => give (.qAvail buf)
  | .qEmpty => andThen takeBuf fun buf => give (.qEmpty buf)
  | .qFull => andThen takeBuf fun buf => give (.qFull buf)
  | .flush => give .flush
  | .rxRead => give .rxRead
  | .transition => andThen takeNat fun target => give (.transition target)
  | .adpEmit =>
    andThen takeBit fun clock => andThen takeBit fun select => andThen takeBit fun data =>
      andThen takeBit fun sampleRequest => give (.adpEmit clock select data sampleRequest)
  | .adpFlush => give .adpFlush
  | .adpDelay => andThen takeNat fun us => give (.adpDelay us)
  | .adpAssertReset => andThen takeBit fun lineA => andThen takeBit fun lineB => give (.adpAssertReset lineA lineB)
  | .adpAvail => give .adpAvail
  | .adpRead => give .adpRead
  | .openSession => give .openSession
  | .closeSession => give .closeSession
  | .setSpeed => andThen takeNat fun khz => give (.setSpeed khz)
  | .speedToKhz => andThen takeNat fun speed => give (.speedToKhz speed)
  | .khzToSpeed => andThen takeInt fun khz => give (.khzToSpeed khz)
  | .setLatency => andThen (takeList (takeList takeByte)) fun args => give (.setLatency args)
  | .execute => andThen (takeList takeCommand) fun queue => give (.execute queue)
  | .cmdReset => andThen (takeFields .cmdReset) fun c => give c.toInstr
  | .cmdRuntest => andThen (takeFields .cmdRuntest) fun c => give c.toInstr
  | .cmdPathmove => andThen (takeFields .cmdPathmove) fun c => give c.toInstr
  | .cmdStableclocks => andThen (takeFields .cmdStableclocks) fun c => give c.toInstr
  | .cmdTms => andThen (takeFields .cmdTms) fun c => give c.toInstr
  | .cmdSleep => andThen (takeFields .cmdSleep) fun c => give c.toInstr
  | .cmdScan => andThen (takeFields .cmdScan) fun c => give c.toInstr

/-- The decoder: the operation at the head of the bytes, and the bytes after it; or a refusal by name (R70, R182). -/
def decode : Parse Instr :=
  andThen takeByte fun code =>
    match opOfCode code.toNat with
    | some op => takeOperands op
    | none => fun _ => .error (.unknownOp code.toNat)

/-! ### The encoder -/

/-- A bit operand's byte. -/
def putBit (v : Bool) : List Byte := [if v then 1 else 0]

/-- A buffer operand's byte. -/
def putBuf : Buf → List Byte
  | .tx => [0]
  | .rx => [1]

/-- The base-128 digits of a natural; `fuel` bounds how many follow. -/
def putNatDigits : Nat → Nat → List Byte
  | 0, n => [BitVec.ofNat 8 n]
  | fuel + 1, n =>
    if n < 128 then [BitVec.ofNat 8 n] else BitVec.ofNat 8 (n % 128 + 128) :: putNatDigits fuel (n / 128)

/-- A natural operand's bytes. -/
def putNat (n : Nat) : List Byte := putNatDigits n n

/-- The natural that stands for an integer. -/
def zigzag : Int → Nat
  | .ofNat n => 2 * n
  | .negSucc n => 2 * n + 1

/-- A signed integer operand's bytes. -/
def putInt (n : Int) : List Byte := putNat (zigzag n)

/-- A list operand's bytes. -/
def putList {α : Type} (put : α → List Byte) (xs : List α) : List Byte := putNat xs.length ++ xs.flatMap put

/-- The fields of a command record. -/
def putFields : Command → List Byte
  | .reset trst srst => putBit trst ++ putBit srst
  | .runtest cycles endState => putNat cycles ++ putNat endState
  | .pathmove path => putList putNat path
  | .stableclocks cycles => putNat cycles
  | .tms nbits bits => putNat nbits ++ putList (fun b => [b]) bits
  | .sleep us => putNat us
  | .scan payload => putList (fun b => [b]) payload

/-- A command record: "a command record's kind tag uses the same number as its CMD_ operation" (R67). -/
def putCommand (c : Command) : List Byte := BitVec.ofNat 8 (opCode c.toInstr.op) :: putFields c

/-- The operands of an operation. -/
def putOperands : Instr → List Byte
  | .encode tck tms tdi sreq => putBit tck ++ putBit tms ++ putBit tdi ++ putBit sreq
  | .encodeRst trst srst => putBit trst ++ putBit srst
  | .enq b => [b]
  | .pulse tms tdi sreq => putBit tms ++ putBit tdi ++ putBit sreq
  | .idle => []
  | .qAvail buf => putBuf buf
  | .qEmpty buf => putBuf buf
  | .qFull buf => putBuf buf
  | .flush => []
  | .rxRead => []
  | .transition target => putNat target
  | .cmdReset trst srst => putFields (.reset trst srst)
  | .cmdRuntest cycles endState => putFields (.runtest cycles endState)
  | .cmdPathmove path => putFields (.pathmove path)
  | .cmdStableclocks cycles => putFields (.stableclocks cycles)
  | .cmdTms nbits bits => putFields (.tms nbits bits)
  | .cmdSleep us => putFields (.sleep us)
  | .cmdScan payload => putFields (.scan payload)
  | .adpEmit clock select data sampleRequest => putBit clock ++ putBit select ++ putBit data ++ putBit sampleRequest
  | .adpFlush => []
  | .adpDelay us => putNat us
  | .adpAssertReset lineA lineB => putBit lineA ++ putBit lineB
  | .adpAvail => []
  | .adpRead => []
  | .openSession => []
  | .closeSession => []
  | .setSpeed khz => putNat khz
  | .speedToKhz speed => putNat speed
  | .khzToSpeed khz => putInt khz
  | .setLatency args => putList (putList fun b => [b]) args
  | .execute queue => putList putCommand queue

/-- The encoder: the operation word of an operation (R67). -/
def encode (i : Instr) : List Byte := BitVec.ofNat 8 (opCode i.op) :: putOperands i

/-! ### Words given as a number -/

/-- The bytes of a word of `nbits` bits given as a number, least significant byte first. -/
def wordBytes (nbits w : Nat) : List Byte :=
  (List.range ((nbits + 7) / 8)).map fun k => BitVec.ofNat 8 (w >>> (8 * k))

/-- The bytes of a word with the operand bytes the table gives no bits all zero. -/
def paddedWord (nbits w : Nat) : List Byte := wordBytes nbits w ++ List.replicate 16 0

/-- The bytes of `paddedWord` the decoder consumes: exactly one operation word (all of them where it refuses). -/
def exactWord (nbits w : Nat) : List Byte :=
  match decode (paddedWord nbits w) with
  | .ok (_, rest) => (paddedWord nbits w).take ((paddedWord nbits w).length - rest.length)
  | .error _ => paddedWord nbits w

/-- The operation the decoder reads from a word given as a number, or none where it refuses. -/
def decodeTableWord (nbits w : Nat) : Option Instr :=
  match decode (paddedWord nbits w) with
  | .ok (i, _) => some i
  | .error _ => none

end Sys2Proof
end

