-- ==== Sys2Proof/Machine/State.lean ====
section
/-! DEFINITION. The session record (spec/10_state.md R10 to R33), the TapService's registers (R20), the events (R32), the
faults (spec/60_exceptions.md R181), the results an operation returns, and the machine at power-on (R30, R200). -/

namespace Sys2Proof.Machine

open Sys2Proof

/-- The status results (R8, R27). -/
inductive Status
  | ok
  | fail
  | failCapability
deriving DecidableEq, Repr, Inhabited

/-- What an operation returns to its caller (R27): nothing, or a value of the type its rule gives. -/
inductive OpResult
  | unit
  | byte (b : Byte)
  | bit (b : Bool)
  | nat (n : Nat)
  | int (n : Int)
  | status (st : Status)
  | speed (st : Status) (khz : Option Nat)
deriving DecidableEq, Repr, Inhabited

/-- The step of OPEN that failed (R180, R188). -/
inductive OpenStep
  | claim
  | mode
  | latency
  | clock
deriving DecidableEq, Repr

/-- The kinds of log event, with the info each records (R32, R180; log 13). -/
inductive EventKind
  | wTransport (w r : Int)
  | wOverflow (b : Byte)
  | eOpen (step : OpenStep)
  | eCapability (khz : Int)
  | eConfigCount (count : Nat)
  | eConfigValue (arg : ArgString)
deriving DecidableEq, Repr

/-- An element of `events`: a log event (kind with info, operation), or `Delay(us)` (R24, R32). -/
inductive Event
  | log (kind : EventKind) (op : Op)
  | delay (us : Nat)
deriving DecidableEq, Repr

/-- The kinds of fault, with the info each records (R181). -/
inductive FaultKind
  | notOpen
  | alreadyOpen
  | nonStableTarget (target : TapState)
  | pathTooLong (current target : TapState) (count : Nat)
  | invalidPathStep (current requested : TapState) (index : Nat)
  | notStable (current : TapState)
  | rxOverflow
  | badSpeed (khz : Int)
deriving DecidableEq, Repr

/-- The sticky mark a raise leaves: "the fault kind, the operation and the info" (R25). -/
structure FaultMark where
  kind : FaultKind
  op : Op
deriving DecidableEq, Repr

/-- The flush transient state (R15); n is the length of `snap`. -/
structure FlushState where
  snap : List Byte
  wpos : Nat
  rpos : Nat
deriving DecidableEq, Repr

/-- The state of the machine: the session record (R10), the TapService's registers (R20) and the model's own fields. -/
structure State where
  /-- The parameters, "constants of the session, fixed for its lifetime" (R5, R10). -/
  cfg : Params
  /-- R11. -/
  isOpen : Bool
  /-- R12: the transmit buffer, oldest first. -/
  tx : List Byte
  /-- R13: the receive buffer, oldest first. -/
  rx : List Byte
  /-- R15: the flush transient; between steps only in a state where a FLUSH raised a fault (log 16). -/
  flush : Option FlushState
  /-- R29: the queue index; between steps only in a state where an EXECUTE raised a fault (log 16). -/
  qi : Option Nat
  /-- R17. -/
  speedKhz : Nat
  /-- R18. -/
  latency : Nat
  /-- R20: the current TAP state, a register of the TapService. -/
  tapCur : TapState
  /-- R20: the desired end state, a register of the TapService. -/
  tapEnd : TapState
  /-- R22: every byte the Device accepted. -/
  wireOut : List Byte
  /-- R23: every byte the Device returned. -/
  wireIn : List Byte
  /-- R24, R32: the log and delay events. -/
  events : List Event
  /-- R25: the sticky fault mark. -/
  fault : Option FaultMark
  /-- The model's own: what the last operation returned to its caller (R27; log 8). -/
  ret : OpResult
  /-- The model's own: what the adapter operations of the last scan returned to the ScanLayer (R189; log 8). -/
  scanReturns : List OpResult
  /-- The model's own: the configuration primitives called on the Device (R161; log 9). -/
  devCalls : List DevCall
  /-- The model's own: what the agents outside have pending (log 3, 5, 6, 10, 15). -/
  ext : Outside
deriving DecidableEq, Repr

/-- Why the machine stops with no next state. -/
inductive Fault
  /-- Answered by every step, and every operation, of a session whose `fault` is set: "the session takes no further
  step" (R25, R183). The raise itself was a next state. Safe: the spec gives such a state no step. -/
  | sessionFaulted (mark : FaultMark)
  /-- Answered by an operation whose FLUSH meets a Device that never makes progress: a hang, treated as stuck (R101, I14;
  log 4). Safe: the operation never returns. -/
  | deviceStuck
  /-- Answered by an operation that runs a scan whose ScanLayer never returns (R137; log 6). Safe: the operation never
  returns. -/
  | scanStuck
deriving DecidableEq, Repr

/-- Why a word has no meaning. -/
inductive Refusal
  /-- An instruction the model gives no meaning yet: answered by exec's refused arms only (there is none now). Safe. -/
  | notModelled (mnemonic : String)
  /-- Answered by step for bytes the decoder refuses by name (R70, R182). Safe: the word spells no operation. -/
  | badWord (why : DecodeError)
  /-- Answered by step for an operation that fails the well-formedness check: a TAP state outside the TapService's state
  type, or a CMD_TMS list shorter than ceil(nbits / 8) (R71, R182). Safe: the word spells no operation. -/
  | illFormed (op : Op)
deriving DecidableEq, Repr

/-- Nothing pending outside. -/
def Outside.empty : Outside :=
  { calls := [], endWrites := [], replies := [], primitives := [], scans := [], drawn := 0 }

/-- Power-on of a machine with parameters `c` and the TapService's registers as given (R30, R200). -/
def State.powerOn (c : Params) (tapCur tapEnd : TapState) : State :=
  { cfg := c, isOpen := false, tx := [], rx := [], flush := none, qi := none, speedKhz := c.initKhz,
    latency := c.initLatency, tapCur := c.tap.norm tapCur, tapEnd := c.tap.norm tapEnd, wireOut := [], wireIn := [],
    events := [], fault := none, ret := .unit, scanReturns := [], devCalls := [], ext := Outside.empty }

/-- The machine right after power-on (R30, R200): the OPEN parameters and the TapService's registers are free values
(log 1, 2), the model's own fields are empty (log 27). -/
def State.reset : State := State.powerOn Config.params Config.tapCurAtStart Config.tapEndAtStart

end Sys2Proof.Machine
end

