-- ==== Sys2Proof/Machine/Operands.lean ====
section
/-! DEFINITION. Bits of a byte (spec/00_scope.md R7), the operand forms (spec/30_encoding.md R64, R65), the TapService's
functions read from its table (spec/10_state.md R20, spec/42_tap_driver.md R123), and the decimal integer of SET_LATENCY (spec/45_host.md R167). -/

namespace Sys2Proof.Machine

open Sys2Proof

/-- `bit(b, i)`: bit i of a byte (R7). -/
def bitAt (b : Byte) (i : Fin 8) : Bool := b.getLsbD i.val

/-- `set(b, i, v)`: the byte with bit i replaced by v (R7). -/
def setBit (b : Byte) (i : Fin 8) (v : Bool) : Byte :=
  if v then b ||| BitVec.twoPow 8 i.val else b &&& ~~~ BitVec.twoPow 8 i.val

/-- `zext_8(v)`: v as a byte with bits 7..1 zero (R7). -/
def zext8 (v : Bool) : Byte := if v then 1 else 0

/-! ### The TapService (R20) -/

/-- The row of a state. -/
def tapRow (t : TapService) (s : TapState) : TapRow := (t.first :: t.others).getD (t.norm s) t.first

/-- `TapStable(s)`. -/
def tapStable (t : TapService) (s : TapState) : Bool := (tapRow t s).stable

/-- `TapSucc(s, tms)`: the "true" successor for TMS = 1, the "false" successor for TMS = 0. -/
def tapSucc (t : TapService) (s : TapState) (tms : Bool) : TapState :=
  t.norm (if tms then (tapRow t s).succ1 else (tapRow t s).succ0)

/-- `TapPath(s, t)`: pattern and count. From a state to itself the path is empty, whatever the table lists ("when
`tap_cur = t` the TapService returns `c = 0`", R123); to another state it is the table's, and a table that lists no path
to the target has the empty path (log 14). -/
def tapPath (t : TapService) (s target : TapState) : TapMove :=
  if t.norm s = t.norm target then { pattern := 0, count := 0 }
  else (tapRow t s).paths.getD (t.norm target) { pattern := 0, count := 0 }

/-- `TAP_RESET`. -/
def tapReset (t : TapService) : TapState := t.norm t.resetName

/-- `TAP_IDLE`. -/
def tapIdle (t : TapService) : TapState := t.norm t.idleName

/-! ### Operand forms -/

/-- The TMS values of a path, clock 0 first: "Clock k carries TMS = bit(bit_pattern, k)"; bits of the pattern at
positions from the count on are ignored (R64). -/
def pathBits (m : TapMove) : List Bool := (List.range m.count).map fun k => m.pattern.testBit k

/-- The TMS values of a raw TMS sequence: bit i is `bit(bits[i div 8], i mod 8)` (R65). A byte that an ill-formed list
does not hold reads as 0 here; step refuses such a list before any meaning runs (R71; log 20). -/
def tmsBits (nbits : Nat) (bits : List Byte) : List Bool :=
  (List.range nbits).map fun i => (bits.getD (i / 8) 0).getLsbD (i % 8)

/-! ### The decimal integer of SET_LATENCY (R167; log 12) -/

/-- The value of one decimal digit's character. -/
def digitValue (ch : Byte) : Option Nat := if 48 ≤ ch.toNat ∧ ch.toNat ≤ 57 then some (ch.toNat - 48) else none

/-- The value of a string of digits after a prefix of value `acc`; none at a character that is no digit. -/
def digitsValue : Nat → List Byte → Option Nat
  | acc, [] => some acc
  | acc, ch :: rest =>
    match digitValue ch with
    | some d => digitsValue (acc * 10 + d) rest
    | none => none

/-- A non-empty string of decimal digits. -/
def parseDigits : List Byte → Option Nat
  | [] => none
  | ch :: rest => digitsValue 0 (ch :: rest)

/-- `ParseInt`: "decimal integer, or none". A minus sign (character 45) may stand before the digits. -/
def parseInt : ArgString → Option Int
  | [] => none
  | ch :: rest =>
    if ch = 45 then (parseDigits rest).map fun n : Nat => -(n : Int)
    else (parseDigits (ch :: rest)).map fun n : Nat => (n : Int)

end Sys2Proof.Machine
end

