-- ==== Sys2Proof/Machine/Flags.lean ====
section
/-! DEFINITION. The block has no condition flags (spec/10_state.md R27): what another machine would keep in flags is a
status or a query result an operation returns. Their computations are here: the combined status of a pulse
(spec/40_encoder.md R93) and the three buffer queries (R95, R96, R97). -/

namespace Sys2Proof.Machine

open Sys2Proof

/-- The status of two appends: OK if both are OK, else FAIL (R93). -/
def bothOk (s1 s2 : Status) : Status := if s1 = .ok ∧ s2 = .ok then .ok else .fail

/-- The contents of a buffer a query names. -/
def bufOf (s : State) : Buf → List Byte
  | .tx => s.tx
  | .rx => s.rx

/-- `CAP(buf)` (R97). -/
def capOf (s : State) : Buf → Nat
  | .tx => s.cfg.txCap
  | .rx => s.cfg.rxCap

/-- The available query: the bytes held (R95). -/
def queryAvail (s : State) (buf : Buf) : Nat := (bufOf s buf).length

/-- The empty query (R96). -/
def queryEmpty (s : State) (buf : Buf) : Bool := decide ((bufOf s buf).length = 0)

/-- The full query (R97). -/
def queryFull (s : State) (buf : Buf) : Bool := decide ((bufOf s buf).length = capOf s buf)

end Sys2Proof.Machine
end

