-- ==== Sys2Proof/Machine/Ops.lean ====
section
/-! DEFINITION. The operations the meanings share: raising a fault (spec/60_exceptions.md R183), log events (spec/10_state.md
R32), the pin bytes (spec/40_encoder.md R90, R91), the Device's iteration (spec/41_transport.md R101), FLUSH (R102), ENQ,
PULSE, IDLE (R92 to R94), the receive read (R108), TRANSITION (spec/42_tap_driver.md R121) and the delay
(spec/43_commands.md R136). An operation that another operation calls is written once, here; its meaning as an
instruction is a line of its own in a family file. -/

namespace Sys2Proof.Machine

open Sys2Proof

/-- How an operation ends: it returns a value, it raised a fault (the state holds the mark), or it never returns. -/
inductive Res (α : Type)
  | done (a : α) (s : State)
  | raised (s : State)
  | stuck (f : Fault)
deriving Repr

/-- "Calls to other operations run to completion before the caller continues" (R8); a raise ends every caller (R183). -/
def Res.andThen {α β : Type} (r : Res α) (f : α → State → Res β) : Res β :=
  match r with
  | .done a s => f a s
  | .raised s => .raised s
  | .stuck e => .stuck e

/-- The value an operation returns, as another type. -/
def Res.map {α β : Type} (g : α → β) (r : Res α) : Res β := r.andThen fun a s => .done (g a) s

/-! ### Faults, events, and the end of an operation -/

/-- `raise <Fault>(info)`: the operation and all its callers end, the state stays as it was written so far, and the sticky
mark is set (R8, R25, R183). There is no return from it: no later step clears the mark (R25, R189). -/
def raise {α : Type} (op : Op) (kind : FaultKind) (s : State) : Res α := .raised { s with fault := some ⟨kind, op⟩ }

/-- The precondition of every operation that needs a session: `is_open = 1`, else NotOpen (R11, R181). -/
def needOpen {α : Type} (op : Op) (body : State → Res α) (s : State) : Res α :=
  if s.isOpen then body s else raise op .notOpen s

/-- `warn <Kind>(info)`: record a log event and go on (R8, R32). -/
def warn (kind : EventKind) (op : Op) (s : State) : State := { s with events := s.events ++ [.log kind op] }

/-- One host operation, whole: a session whose fault is set takes no step (R183); otherwise its value goes to `ret`, a
raised fault is a next state that holds the mark, and an operation that never returns is stuck (log 7, 8). -/
def perform (body : State → Res OpResult) (s : State) : Host.Outcome State Fault Refusal :=
  match s.fault with
  | some mark => .fault (.sessionFaulted mark)
  | none =>
    match body s with
    | .done v s' => .next { s' with ret := v }
    | .raised s' => .next s'
    | .stuck f => .fault f

/-! ### Pin bytes -/

/-- The byte of ENCODE: unassigned bits 0, both reset lines deasserted (R90, R61, R62). -/
def pinByte (p : PinMap) (tck tms tdi sreq : Bool) : Byte :=
  let b : Byte := 0
  let b := setBit b p.tck tck
  let b := setBit b p.tms tms
  let b := setBit b p.tdi tdi
  let b := setBit b p.sreq sreq
  let b := setBit b p.trst true
  setBit b p.srst true

/-- The byte of ENCODE_RST: 1 asserts a line, and an asserted line's bit is 0 (R91, R61). -/
def resetByte (p : PinMap) (trst srst : Bool) : Byte :=
  let b : Byte := 0
  let b := setBit b p.trst (!trst)
  setBit b p.srst (!srst)

/-- ENCODE as an operation of the Host (R90): no session, no pin byte (R11, R181; log 32). -/
def encodeOp (tck tms tdi sreq : Bool) (s : State) : Res Byte :=
  needOpen .encode (fun s => .done (pinByte s.cfg.pins tck tms tdi sreq) s) s

/-- ENCODE_RST as an operation of the Host (R91): no session, no reset byte (R11, R181; log 32). -/
def encodeRstOp (trst srst : Bool) (s : State) : Res Byte :=
  needOpen .encodeRst (fun s => .done (resetByte s.cfg.pins trst srst) s) s

/-! ### The Device's iteration (R101, R110, R111) -/

/-- `wreq`: the next unwritten bytes, at most a frame; empty when the write side is complete (R102, R110). -/
def writeRequest (frame : Nat) (f : FlushState) : List Byte :=
  if f.wpos < f.snap.length then (f.snap.drop f.wpos).take (min frame (f.snap.length - f.wpos)) else []

/-- `rreq`: how many bytes to read, at most a frame; 0 when the read side is complete (R102, R110). -/
def readRequest (frame : Nat) (f : FlushState) : Nat :=
  if f.rpos < f.snap.length then min frame (f.snap.length - f.rpos) else 0

/-- The answer `(w, r, data)` of one iteration, and the bytes it put on the lines (R101). -/
structure Iteration where
  w : Int
  r : Int
  data : List Byte
  wrote : List Byte
deriving DecidableEq, Repr

/-- The write count within R101's item 1: 0 when no write is submitted; negative, or at most the request. -/
def writeCount (wreq : List Byte) (a : DevAnswer) : Int :=
  if wreq = [] then 0 else if a.w < 0 then a.w else min a.w wreq.length

/-- The read count within R101's items 2 and 3: 0 when no read is submitted; negative, or at most the request and, when
the write did not fail, at most what is written so far. -/
def readCount (f : FlushState) (w : Int) (rreq : Nat) (a : DevAnswer) : Int :=
  if rreq = 0 then 0
  else if a.r < 0 then a.r
  else if w < 0 then min a.r rreq
  else min (min a.r rreq) (f.wpos + w - f.rpos)

/-- The bytes a read of `r` bytes returns. -/
def readData (r : Int) (a : DevAnswer) : List Byte :=
  a.data.take r.toNat ++ List.replicate (r.toNat - a.data.length) a.fill

/-- The iteration with given counts: a write that succeeded put its `w` bytes on the lines, a failed one some prefix of
its request, a draw (R101, I13; log 21). -/
def iterationOf (wreq : List Byte) (a : DevAnswer) (w r : Int) : Iteration :=
  { w := w, r := r, data := readData r a, wrote := if w < 0 then wreq.take a.lost else wreq.take w.toNat }

/-- The Device's answer within R101's bounds; every answer R101 admits is of this form, and no other is (I10, I15;
log 3). -/
def admitted (f : FlushState) (wreq : List Byte) (rreq : Nat) (a : DevAnswer) : Iteration :=
  iterationOf wreq a (writeCount wreq a) (readCount f (writeCount wreq a) rreq a)

/-- The same for an answer drawn from Config: a draw with no progress stands for the next one with progress, since an
iteration without progress changes nothing and a Device that never makes progress is listed as such (R220's weak
fairness; log 4). -/
def admitProgress (f : FlushState) (wreq : List Byte) (rreq : Nat) (a : DevAnswer) : Iteration :=
  if (admitted f wreq rreq a).w = 0 ∧ (admitted f wreq rreq a).r = 0 then
    if wreq = [] then iterationOf wreq a 0 1 else iterationOf wreq a 1 0
  else admitted f wreq rreq a

/-- `DevIter(wreq, rreq)`: the next listed reply, or a draw; none when the Device never answers (R101). The histories grow
by what was written and, where the read succeeded, by what was read (R22, R23, R101). -/
def devIter (f : FlushState) (s : State) : Option (Iteration × State) :=
  let wreq := writeRequest s.cfg.frame f
  let rreq := readRequest s.cfg.frame f
  match s.ext.replies with
  | .hangs :: _ => none
  | .answers a :: rest =>
    let it := admitted f wreq rreq a
    some (it, { s with wireOut := s.wireOut ++ it.wrote, wireIn := s.wireIn ++ it.data, ext := { s.ext with replies := rest } })
  | [] =>
    let it := admitProgress f wreq rreq (Config.devAnswer s.ext.drawn)
    some (it, { s with wireOut := s.wireOut ++ it.wrote, wireIn := s.wireIn ++ it.data,
                       ext := { s.ext with drawn := s.ext.drawn + 1 } })

/-! ### FLUSH (R102) -/

/-- `RxValue(d)`: the byte kept for a retained sample (R109). -/
def rxValue (c : Params) (d : Byte) : Byte :=
  match c.rxForm with
  | .raw => d
  | .bit => zext8 (bitAt d c.pins.tdo)

/-- Sample filtering: of the transmit bytes from the read position on and the bytes read in their place, keep the sample
of each byte with SREQ = 1; true when a retained sample found `rx` full, the samples before it kept (R104). -/
def keepSamples (c : Params) : List Byte → List Byte → List Byte → List Byte × Bool
  | t :: ts, d :: ds, rx =>
    if bitAt t c.pins.sreq then
      if rx.length = c.rxCap then (rx, true) else keepSamples c ts ds (rx ++ [rxValue c d])
    else keepSamples c ts ds rx
  | _ :: _, [], rx => (rx, false)
  | [], _, rx => (rx, false)

/-- `wpos < n OR rpos < n` (R105). -/
def flushBusy (f : FlushState) : Bool := decide (f.wpos < f.snap.length) || decide (f.rpos < f.snap.length)

/-- A transport failure: one W_TRANSPORT event, both buffers empty (R106, R184). -/
def transportFail (w r : Int) (s : State) : State :=
  { warn (.wTransport w r) .flush s with tx := [], rx := [] }

/-- The loop of FLUSH (R102), for at most `fuel` iterations; `flushFuel` is always enough (Laws/Flush.lean), so the loop
never ends for want of fuel. A raised RxOverflow leaves the transient in the state (R15, R183; log 16). -/
def flushLoop : Nat → FlushState → State → Res Status
  | 0, _, _ => .stuck .deviceStuck
  | fuel + 1, f, s =>
    if flushBusy f then
      match devIter f s with
      | none => .stuck .deviceStuck
      | some (it, s1) =>
        if it.w < 0 ∨ it.r < 0 then .done .fail (transportFail it.w it.r s1)
        else
          match keepSamples s1.cfg (f.snap.drop f.rpos) it.data s1.rx with
          | (rx, true) => raise .flush .rxOverflow { s1 with rx := rx, flush := some f }
          | (rx, false) =>
            flushLoop fuel { f with wpos := f.wpos + it.w.toNat, rpos := f.rpos + it.r.toNat } { s1 with rx := rx }
    else .done .ok { s with tx := [] }

/-- An iteration takes a listed reply, or makes progress on one of two sides of n bytes. -/
def flushFuel (s : State) : Nat := s.ext.replies.length + 2 * s.tx.length + 1

/-- FLUSH (R102). -/
def flushOp (s : State) : Res Status :=
  needOpen .flush (fun s => flushLoop (flushFuel s) { snap := s.tx, wpos := 0, rpos := 0 } s) s

/-! ### Buffer operations and pulses -/

/-- ENQ (R92): at a full buffer, flush first and append whatever the flush's status, or drop the byte and log. -/
def enqOp (b : Byte) (s : State) : Res Status :=
  needOpen .enq (fun s =>
    if s.tx.length = s.cfg.txCap then
      match s.cfg.policy with
      | .flushOnFull => (flushOp s).andThen fun _ s => .done .ok { s with tx := s.tx ++ [b] }
      | .dropAndLog => .done .fail (warn (.wOverflow b) .enq s)
    else .done .ok { s with tx := s.tx ++ [b] }) s

/-- PULSE (R93): the clock-low byte, then the clock-high byte. -/
def pulseOp (tms tdi sreq : Bool) (s : State) : Res Status :=
  (enqOp (pinByte s.cfg.pins false tms tdi false) s).andThen fun s1 s =>
    (enqOp (pinByte s.cfg.pins true tms tdi sreq) s).andThen fun s2 s => .done (bothOk s1 s2) s

/-- IDLE (R94). -/
def idleOp (s : State) : Res Status := enqOp (pinByte s.cfg.pins false false false false) s

/-- One pulse with TDI = 0 and no sample request for each TMS value (R98): the callers ignore the statuses (R93). -/
def clockAll : List Bool → State → Res Unit
  | [], s => .done () s
  | tms :: rest, s => (pulseOp tms false false s).andThen fun _ s => clockAll rest s

/-- Q_AVAIL (R95). -/
def availOp (buf : Buf) (s : State) : Res Nat := needOpen .qAvail (fun s => .done (queryAvail s buf) s) s

/-- Q_EMPTY (R96). -/
def emptyOp (buf : Buf) (s : State) : Res Bool := needOpen .qEmpty (fun s => .done (queryEmpty s buf) s) s

/-- Q_FULL (R97). -/
def fullOp (buf : Buf) (s : State) : Res Bool := needOpen .qFull (fun s => .done (queryFull s buf) s) s

/-- RX_READ (R108): the oldest byte of `rx`, or -1. -/
def rxReadOp (s : State) : Res Int :=
  needOpen .rxRead (fun s =>
    match s.rx with
    | [] => .done (-1) s
    | v :: rest => .done (v.toNat : Int) { s with rx := rest }) s

/-! ### TRANSITION and the delay -/

/-- TRANSITION (R121): the checks, one pulse per bit of the path, the idle byte, and the commit last. -/
def transitionOp (target : TapState) (s : State) : Res Unit :=
  needOpen .transition (fun s =>
    if tapStable s.cfg.tap target then
      if 8 < (tapPath s.cfg.tap s.tapCur target).count then
        raise .transition (.pathTooLong s.tapCur target (tapPath s.cfg.tap s.tapCur target).count) s
      else
        (clockAll (pathBits (tapPath s.cfg.tap s.tapCur target)) s).andThen fun _ s =>
          (idleOp s).andThen fun _ s => .done () { s with tapCur := target }
    else raise .transition (.nonStableTarget target) s) s

/-- CMD_SLEEP (R136): a forced flush whose status is ignored, then the delay event (R24). -/
def sleepOp (us : Nat) (s : State) : Res Unit :=
  needOpen .cmdSleep (fun s =>
    (flushOp s).andThen fun _ s => .done () { s with events := s.events ++ [.delay us] }) s

/-! ### Views of the Device (R31, R195) -/

/-- The Device's backlog: bytes written whose samples have not been read (R31 item 2). -/
def backlog (s : State) : Int := (s.wireOut.length : Int) - s.wireIn.length

/-- The output latch: the last byte written, if any was (R31 item 3; log 17). -/
def lineLatch (s : State) : Option Byte := s.wireOut.getLast?

/-- The levels of the lines OUTPUT_MASK selects (R195). -/
def drivenLines (s : State) : Option Byte := (lineLatch s).map fun b => b &&& s.cfg.outputMask

end Sys2Proof.Machine
end

