-- ==== Sys2Proof/Machine/Encoder.lean ====
section
/-! DEFINITION. The meanings of the pin encoder and the buffer operations (spec/40_encoder.md R90 to R97). -/

namespace Sys2Proof.Machine

open Sys2Proof

/-- ENCODE: "Deterministic, no side effects"; the byte is returned (R90, R99), in an open session (R11, R181, D27;
log 32). -/
def execEncode (tck tms tdi sreq : Bool) (s : State) : Host.Outcome State Fault Refusal :=
  perform (fun s => (encodeOp tck tms tdi sreq s).map .byte) s

/-- ENCODE_RST (R91), in an open session (R11, R181, D27; log 32). -/
def execEncodeRst (trst srst : Bool) (s : State) : Host.Outcome State Fault Refusal :=
  perform (fun s => (encodeRstOp trst srst s).map .byte) s

/-- ENQ (R92). -/
def execEnq (b : Byte) (s : State) : Host.Outcome State Fault Refusal :=
  perform (fun s => (enqOp b s).map .status) s

/-- PULSE (R93). -/
def execPulse (tms tdi sreq : Bool) (s : State) : Host.Outcome State Fault Refusal :=
  perform (fun s => (pulseOp tms tdi sreq s).map .status) s

/-- IDLE (R94). -/
def execIdle (s : State) : Host.Outcome State Fault Refusal := perform (fun s => (idleOp s).map .status) s

/-- Q_AVAIL (R95). -/
def execQAvail (buf : Buf) (s : State) : Host.Outcome State Fault Refusal :=
  perform (fun s => (availOp buf s).map .nat) s

/-- Q_EMPTY (R96). -/
def execQEmpty (buf : Buf) (s : State) : Host.Outcome State Fault Refusal :=
  perform (fun s => (emptyOp buf s).map .bit) s

/-- Q_FULL (R97). -/
def execQFull (buf : Buf) (s : State) : Host.Outcome State Fault Refusal :=
  perform (fun s => (fullOp buf s).map .bit) s

end Sys2Proof.Machine
end

