-- ==== Sys2Proof/Machine/Adapter.lean ====
section
/-! DEFINITION. The byte-stream adapter (spec/44_adapter.md R150 to R156): the operations, the run of a ScanLayer's
operations, and the meanings. -/

namespace Sys2Proof.Machine

open Sys2Proof

/-- ADP_EMIT: one byte, one phase; nothing checks the two-phase rule (R151). -/
def adpEmitOp (clock select data sampleRequest : Bool) (s : State) : Res Status :=
  needOpen .adpEmit (fun s => enqOp (pinByte s.cfg.pins clock select data sampleRequest) s) s

/-- ADP_ASSERT_RESET: lineA is TRST, lineB is SRST, and `tap_cur` is not written (R154). -/
def adpAssertResetOp (lineA lineB : Bool) (s : State) : Res Status :=
  needOpen .adpAssertReset (fun s => enqOp (resetByte s.cfg.pins lineA lineB) s) s

/-- An adapter operation, by its own rule (R150, R151 to R156). -/
def adpOp : AdpOp → State → Res OpResult
  | .emit clock select data sampleRequest, s => (adpEmitOp clock select data sampleRequest s).map .status
  | .flush, s => (flushOp s).map .status
  | .delay us, s => (sleepOp us s).map fun _ => .unit
  | .assertReset lineA lineB, s => (adpAssertResetOp lineA lineB s).map .status
  | .avail, s => (availOp .rx s).map .nat
  | .read, s => (rxReadOp s).map .int

/-- The operations a ScanLayer issues, in order, each result returned to it (R137, R150; log 6, 8). -/
def runAdapter : List AdpOp → State → Res Unit
  | [], s => .done () s
  | op :: rest, s =>
    (adpOp op s).andThen fun v s => runAdapter rest { s with scanReturns := s.scanReturns ++ [v] }

/-- ADP_EMIT (R151). -/
def execAdpEmit (clock select data sampleRequest : Bool) (s : State) : Host.Outcome State Fault Refusal :=
  perform (fun s => (adpEmitOp clock select data sampleRequest s).map .status) s

/-- ADP_FLUSH: FLUSH, its status returned to the ScanLayer (R152). -/
def execAdpFlush (s : State) : Host.Outcome State Fault Refusal := perform (fun s => (flushOp s).map .status) s

/-- ADP_DELAY: CMD_SLEEP (R153). -/
def execAdpDelay (us : Nat) (s : State) : Host.Outcome State Fault Refusal :=
  perform (fun s => (sleepOp us s).map fun _ => .unit) s

/-- ADP_ASSERT_RESET (R154). -/
def execAdpAssertReset (lineA lineB : Bool) (s : State) : Host.Outcome State Fault Refusal :=
  perform (fun s => (adpAssertResetOp lineA lineB s).map .status) s

/-- ADP_AVAIL: Q_AVAIL of `rx` (R155). -/
def execAdpAvail (s : State) : Host.Outcome State Fault Refusal := perform (fun s => (availOp .rx s).map .nat) s

/-- ADP_READ: RX_READ (R156). -/
def execAdpRead (s : State) : Host.Outcome State Fault Refusal := perform (fun s => (rxReadOp s).map .int) s

end Sys2Proof.Machine
end

