-- ==== Sys2Proof/Machine/Commands.lean ====
section
/-! DEFINITION. The command handlers (spec/43_commands.md R130 to R138): the operations EXECUTE dispatches to, and their
meanings as instructions. CMD_SLEEP's operation is `sleepOp` of Ops.lean, which ADP_DELAY shares (R153). -/

namespace Sys2Proof.Machine

open Sys2Proof

/-- CMD_RESET (R130): the TAP state is forced before the byte is queued; the ENQ's status is ignored (R189). -/
def cmdResetOp (trst srst : Bool) (s : State) : Res Unit :=
  needOpen .cmdReset (fun s =>
    (enqOp (resetByte s.cfg.pins trst srst)
      (if trst ∨ (srst ∧ s.cfg.srstPullsTrst) then { s with tapCur := tapReset s.cfg.tap } else s)).map fun _ => ()) s

/-- CMD_RUNTEST (R131). -/
def cmdRuntestOp (cycles : Nat) (endState : TapState) (s : State) : Res Unit :=
  needOpen .cmdRuntest (fun s =>
    (if s.tapCur ≠ tapIdle s.cfg.tap then transitionOp (tapIdle s.cfg.tap) s else .done () s).andThen fun _ s =>
      (clockAll (List.replicate cycles false) s).andThen fun _ s =>
        if endState ≠ s.tapCur then transitionOp endState s else .done () s) s

/-- CMD_STABLECLOCKS (R132): TMS = 1 in the reset state, 0 in every other stable state. -/
def cmdStableclocksOp (cycles : Nat) (s : State) : Res Unit :=
  needOpen .cmdStableclocks (fun s =>
    if tapStable s.cfg.tap s.tapCur then
      clockAll (List.replicate cycles (decide (s.tapCur = tapReset s.cfg.tap))) s
    else raise .cmdStableclocks (.notStable s.tapCur) s) s

/-- The steps of CMD_PATHMOVE from step `k` on (R133): the "false" successor is tested first, and each step commits after
its own pulse. -/
def pathSteps : Nat → List TapState → State → Res Unit
  | _, [], s => .done () s
  | k, t :: rest, s =>
    if tapSucc s.cfg.tap s.tapCur false = t then
      (pulseOp false false false s).andThen fun _ s => pathSteps (k + 1) rest { s with tapCur := t }
    else if tapSucc s.cfg.tap s.tapCur true = t then
      (pulseOp true false false s).andThen fun _ s => pathSteps (k + 1) rest { s with tapCur := t }
    else raise .cmdPathmove (.invalidPathStep s.tapCur t k) s

/-- CMD_PATHMOVE (R133): the steps, then the idle byte. -/
def cmdPathmoveOp (path : List TapState) (s : State) : Res Unit :=
  needOpen .cmdPathmove (fun s =>
    (pathSteps 0 path s).andThen fun _ s => (idleOp s).map fun _ => ()) s

/-- CMD_TMS (R135): the pulses, then the commit of the desired end state. -/
def cmdTmsOp (nbits : Nat) (bits : List Byte) (s : State) : Res Unit :=
  needOpen .cmdTms (fun s =>
    (clockAll (tmsBits nbits bits) s).andThen fun _ s => .done () { s with tapCur := s.tapEnd }) s

/-- The ScanLayer's next scan: the next listed one, or a draw, which may be either of R137's two ends; none when it never
returns (R137; log 6). -/
def nextScan (payload : List Byte) (s : State) : Option (ScanRun × State) :=
  match s.ext.scans with
  | .hangs :: _ => none
  | .returns run :: rest => some (run, { s with ext := { s.ext with scans := rest } })
  | [] =>
    match Config.scanReply payload s.ext.drawn with
    | .hangs => none
    | .returns run => some (run, { s with ext := { s.ext with drawn := s.ext.drawn + 1 } })

/-- CMD_SCAN (R137): the ScanLayer's adapter operations, then the TAP state it leaves, any state of the TapService. -/
def cmdScanOp (payload : List Byte) (s : State) : Res Unit :=
  needOpen .cmdScan (fun s =>
    match nextScan payload s with
    | none => .stuck .scanStuck
    | some (run, s) =>
      (runAdapter run.ops { s with scanReturns := [] }).andThen fun _ s =>
        .done () { s with tapCur := s.cfg.tap.norm run.leaves }) s

/-- Dispatch: "Each command kind maps to exactly one handler" (R138). -/
def dispatch : Command → State → Res Unit
  | .reset trst srst, s => cmdResetOp trst srst s
  | .runtest cycles endState, s => cmdRuntestOp cycles endState s
  | .pathmove path, s => cmdPathmoveOp path s
  | .stableclocks cycles, s => cmdStableclocksOp cycles s
  | .tms nbits bits, s => cmdTmsOp nbits bits s
  | .sleep us, s => sleepOp us s
  | .scan payload, s => cmdScanOp payload s

/-- CMD_RESET (R130). -/
def execCmdReset (trst srst : Bool) (s : State) : Host.Outcome State Fault Refusal :=
  perform (fun s => (cmdResetOp trst srst s).map fun _ => .unit) s

/-- CMD_RUNTEST (R131). -/
def execCmdRuntest (cycles : Nat) (endState : TapState) (s : State) : Host.Outcome State Fault Refusal :=
  perform (fun s => (cmdRuntestOp cycles endState s).map fun _ => .unit) s

/-- CMD_PATHMOVE (R133). -/
def execCmdPathmove (path : List TapState) (s : State) : Host.Outcome State Fault Refusal :=
  perform (fun s => (cmdPathmoveOp path s).map fun _ => .unit) s

/-- CMD_STABLECLOCKS (R132). -/
def execCmdStableclocks (cycles : Nat) (s : State) : Host.Outcome State Fault Refusal :=
  perform (fun s => (cmdStableclocksOp cycles s).map fun _ => .unit) s

/-- CMD_TMS (R135). -/
def execCmdTms (nbits : Nat) (bits : List Byte) (s : State) : Host.Outcome State Fault Refusal :=
  perform (fun s => (cmdTmsOp nbits bits s).map fun _ => .unit) s

/-- CMD_SLEEP (R136). -/
def execCmdSleep (us : Nat) (s : State) : Host.Outcome State Fault Refusal :=
  perform (fun s => (sleepOp us s).map fun _ => .unit) s

/-- CMD_SCAN (R137). -/
def execCmdScan (payload : List Byte) (s : State) : Host.Outcome State Fault Refusal :=
  perform (fun s => (cmdScanOp payload s).map fun _ => .unit) s

end Sys2Proof.Machine
end

