-- ==== Sys2Proof/Machine/Session.lean ====
section
/-! DEFINITION. The contract offered to the framework (spec/45_host.md R160 to R169): OPEN, CLOSE, the speed and latency
operations, and EXECUTE. -/

namespace Sys2Proof.Machine

open Sys2Proof

/-- One configuration primitive with a result: the next listed result, or a draw; the call is recorded (R161; log 5, 9). -/
def primitive (call : DevCall) (s : State) : Bool × State :=
  match s.ext.primitives with
  | result :: rest => (result, { s with devCalls := s.devCalls ++ [call], ext := { s.ext with primitives := rest } })
  | [] =>
    (Config.devStatus call s.ext.drawn,
      { s with devCalls := s.devCalls ++ [call], ext := { s.ext with drawn := s.ext.drawn + 1 } })

/-- `DevRelease()`, which has no result (R161). -/
def release (s : State) : State := { s with devCalls := s.devCalls ++ [.release] }

/-- A failed OPEN: the event and FAIL; the session is not open (R162, R188). -/
def openFailed (step : OpenStep) (s : State) : Status × State := (.fail, warn (.eOpen step) .openSession s)

/-- OPEN after its precondition (R162): empty the buffers, then claim, mode, latency, clock, in that order; a failure
after the claim releases the device. -/
def openRun (s : State) : Status × State :=
  let s := { s with tx := [], rx := [] }
  match primitive (.claim s.cfg.devVid s.cfg.devPid) s with
  | (false, s) => openFailed .claim s
  | (true, s) =>
    match primitive (.setBitbang s.cfg.outputMask) s with
    | (false, s) => openFailed .mode (release s)
    | (true, s) =>
      match primitive (.setLatency s.latency) s with
      | (false, s) => openFailed .latency (release s)
      | (true, s) =>
        match primitive (.setClock s.speedKhz) s with
        | (false, s) => openFailed .clock (release s)
        | (true, s) => (.ok, { s with isOpen := true })

/-- OPEN (R162). -/
def openOp (s : State) : Res Status :=
  if s.isOpen then raise .openSession .alreadyOpen s else .done (openRun s).1 (openRun s).2

/-- CLOSE (R163): idempotent; pending bytes are not flushed. -/
def closeOp (s : State) : Res Status :=
  if s.isOpen then .done .ok { release s with isOpen := false } else .done .ok s

/-- SET_SPEED (R164): programmed at once when open, and stored only where the Device took it. -/
def setSpeedOp (khz : Nat) (s : State) : Res Status :=
  if khz < 1 then raise .setSpeed (.badSpeed khz) s
  else if s.isOpen then
    if (primitive (.setClock khz) s).1 then .done .ok { (primitive (.setClock khz) s).2 with speedKhz := khz }
    else .done .fail (primitive (.setClock khz) s).2
  else .done .ok { s with speedKhz := khz }

/-- KHZ_TO_SPEED (R166): 0 fails distinctly, for want of the capability. -/
def khzToSpeedOp (khz : Int) (s : State) : Res OpResult :=
  if khz < 0 then raise .khzToSpeed (.badSpeed khz) s
  else if khz = 0 then .done (.speed .failCapability none) (warn (.eCapability khz) .khzToSpeed s)
  else .done (.speed .ok (some khz.toNat)) s

/-- SET_LATENCY (R167): every path returns OK; a bad argument list is logged and changes nothing else. -/
def setLatencyOp (args : List ArgString) (s : State) : Res Status :=
  match args with
  | [arg] =>
    match parseInt arg with
    | some v =>
      if v < 0 ∨ 255 < v then .done .ok (warn (.eConfigValue arg) .setLatency s)
      else .done .ok { s with latency := v.toNat }
    | none => .done .ok (warn (.eConfigValue arg) .setLatency s)
  | _ => .done .ok (warn (.eConfigCount args.length) .setLatency s)

/-- The loop of EXECUTE from queue index `k` on (R169, R29, R168): each record is read once, when `qi` reaches it. -/
def runQueue : Nat → List Command → State → Res Unit
  | k, [], s => .done () { s with qi := some k }
  | k, c :: rest, s => (dispatch c { s with qi := some k }).andThen fun _ s => runQueue (k + 1) rest s

/-- EXECUTE (R169): the queue in order, statuses ignored, then the closing flush, whose status it returns. A raised fault
ends it at that command and leaves `qi` there (R183; log 16). -/
def executeOp (queue : List Command) (s : State) : Res Status :=
  needOpen .execute (fun s =>
    (runQueue 0 queue s).andThen fun _ s =>
      (flushOp s).andThen fun st s => .done st { s with qi := none }) s

/-- OPEN (R162). -/
def execOpen (s : State) : Host.Outcome State Fault Refusal := perform (fun s => (openOp s).map .status) s

/-- CLOSE (R163). -/
def execClose (s : State) : Host.Outcome State Fault Refusal := perform (fun s => (closeOp s).map .status) s

/-- SET_SPEED (R164). -/
def execSetSpeed (khz : Nat) (s : State) : Host.Outcome State Fault Refusal :=
  perform (fun s => (setSpeedOp khz s).map .status) s

/-- SPEED_TO_KHZ: "identity mapping" (R165). -/
def execSpeedToKhz (speed : Nat) (s : State) : Host.Outcome State Fault Refusal :=
  perform (fun s => .done (.nat speed) s) s

/-- KHZ_TO_SPEED (R166). -/
def execKhzToSpeed (khz : Int) (s : State) : Host.Outcome State Fault Refusal := perform (khzToSpeedOp khz) s

/-- SET_LATENCY (R167). -/
def execSetLatency (args : List ArgString) (s : State) : Host.Outcome State Fault Refusal :=
  perform (fun s => (setLatencyOp args s).map .status) s

/-- EXECUTE (R169). -/
def execExecute (queue : List Command) (s : State) : Host.Outcome State Fault Refusal :=
  perform (fun s => (executeOp queue s).map .status) s

end Sys2Proof.Machine
end

