-- ==== Sys2Proof/Machine/Transport.lean ====
section
/-! DEFINITION. The meanings of the transport and the receive read (spec/41_transport.md R102, R108) and of the TAP
transition driver (spec/42_tap_driver.md R121). -/

namespace Sys2Proof.Machine

open Sys2Proof

/-- FLUSH (R102). -/
def execFlush (s : State) : Host.Outcome State Fault Refusal := perform (fun s => (flushOp s).map .status) s

/-- RX_READ (R108). -/
def execRxRead (s : State) : Host.Outcome State Fault Refusal := perform (fun s => (rxReadOp s).map .int) s

/-- TRANSITION (R121); it returns nothing. -/
def execTransition (target : TapState) (s : State) : Host.Outcome State Fault Refusal :=
  perform (fun s => (transitionOp target s).map fun _ => .unit) s

end Sys2Proof.Machine
end

