-- ==== Sys2Proof/Machine/Dispatch.lean ====
section
/-! DEFINITION. One arm per operation of the opcode map (spec/30_encoding.md R68). -/

namespace Sys2Proof.Machine

open Sys2Proof

def exec (i : Instr) (s : State) : Host.Outcome State Fault Refusal :=
  match i with
  | .encode tck tms tdi sreq => Sys2Proof.Machine.execEncode tck tms tdi sreq s
  | .encodeRst trst srst => Sys2Proof.Machine.execEncodeRst trst srst s
  | .enq b => Sys2Proof.Machine.execEnq b s
  | .pulse tms tdi sreq => Sys2Proof.Machine.execPulse tms tdi sreq s
  | .idle => Sys2Proof.Machine.execIdle s
  | .qAvail buf => Sys2Proof.Machine.execQAvail buf s
  | .qEmpty buf => Sys2Proof.Machine.execQEmpty buf s
  | .qFull buf => Sys2Proof.Machine.execQFull buf s
  | .flush => Sys2Proof.Machine.execFlush s
  | .rxRead => Sys2Proof.Machine.execRxRead s
  | .transition target => Sys2Proof.Machine.execTransition target s
  | .cmdReset trst srst => Sys2Proof.Machine.execCmdReset trst srst s
  | .cmdRuntest cycles endState => Sys2Proof.Machine.execCmdRuntest cycles endState s
  | .cmdPathmove path => Sys2Proof.Machine.execCmdPathmove path s
  | .cmdStableclocks cycles => Sys2Proof.Machine.execCmdStableclocks cycles s
  | .cmdTms nbits bits => Sys2Proof.Machine.execCmdTms nbits bits s
  | .cmdSleep us => Sys2Proof.Machine.execCmdSleep us s
  | .cmdScan payload => Sys2Proof.Machine.execCmdScan payload s
  | .adpEmit clock select data sampleRequest => Sys2Proof.Machine.execAdpEmit clock select data sampleRequest s
  | .adpFlush => Sys2Proof.Machine.execAdpFlush s
  | .adpDelay us => Sys2Proof.Machine.execAdpDelay us s
  | .adpAssertReset lineA lineB => Sys2Proof.Machine.execAdpAssertReset lineA lineB s
  | .adpAvail => Sys2Proof.Machine.execAdpAvail s
  | .adpRead => Sys2Proof.Machine.execAdpRead s
  | .openSession => Sys2Proof.Machine.execOpen s
  | .closeSession => Sys2Proof.Machine.execClose s
  | .setSpeed khz => Sys2Proof.Machine.execSetSpeed khz s
  | .speedToKhz speed => Sys2Proof.Machine.execSpeedToKhz speed s
  | .khzToSpeed khz => Sys2Proof.Machine.execKhzToSpeed khz s
  | .setLatency args => Sys2Proof.Machine.execSetLatency args s
  | .execute queue => Sys2Proof.Machine.execExecute queue s

end Sys2Proof.Machine
end

