-- ==== Sys2Proof/Machine/Fetch.lean ====
section
/-! DEFINITION. How the next operation reaches the machine: the block has no program counter and no instruction memory
(spec/10_state.md R29, spec/20_memory.md R57); after any reset event "the next step is whatever host operation the Host
calls" (spec/70_reset_and_hazards.md R205). The Host's calls are a stream of operation words (log 10), and the owner of
the TapService may write tap_end between two operations (R20; log 15). -/

namespace Sys2Proof.Machine

open Sys2Proof

/-- The TapService owner's write of tap_end before the next operation, if one is pending (log 15). -/
def takeEndWrite (s : State) : State :=
  match s.ext.endWrites with
  | [] => s
  | none :: rest => { s with ext := { s.ext with endWrites := rest } }
  | some t :: rest => { s with tapEnd := s.cfg.tap.norm t, ext := { s.ext with endWrites := rest } }

/-- The state in which the operation at the head of the Host's calls runs: its word taken off the stream, `rest` left. -/
def afterFetch (rest : List Byte) (s : State) : State :=
  takeEndWrite { s with ext := { s.ext with calls := rest } }

/-- What the Host's calls hold: nothing, an operation with the bytes after its word, or a word refused by name (R70, R71,
R182). -/
inductive Fetched
  | nothing
  | operation (i : Instr) (rest : List Byte)
  | refused (r : Refusal)
deriving DecidableEq, Repr

/-- Read the next operation word and check it is well formed under the session's TapService (R71, R182). -/
def fetch (s : State) : Fetched :=
  match s.ext.calls with
  | [] => .nothing
  | b :: bs =>
    match decode (b :: bs) with
    | .ok (i, rest) => if i.wellFormed s.cfg.tap.count then .operation i rest else .refused (.illFormed i.op)
    | .error e => .refused (.badWord e)

/-- The Host issues one operation word, given as a number of `nbits` bits with its operand bytes zero. -/
def issueWord (nbits w : Nat) (s : State) : State := { s with ext := { s.ext with calls := exactWord nbits w } }

end Sys2Proof.Machine
end

