-- ==== Sys2Proof/Machine/Step.lean ====
section
/-! DEFINITION. One step: one operation of the Host, whole (spec/00_scope.md R6, spec/60_exceptions.md R183). -/

namespace Sys2Proof.Machine

open Sys2Proof

/-- One step. A session whose fault is set takes none (R183). With no call pending the block waits: nothing changes but a
pending write of tap_end (R205; log 10, 15). A refused word is refused before any step (R182). -/
def step (s : State) : Host.Outcome State Fault Refusal :=
  match s.fault with
  | some mark => .fault (.sessionFaulted mark)
  | none =>
    match fetch s with
    | .nothing => .next (takeEndWrite s)
    | .operation i rest => exec i (afterFetch rest s)
    | .refused r => .refused r

/-- The state in which the Host's next call is exactly the operation word `w` of `nbits` bits (log 10). -/
def State.withFetchWord (s : State) (nbits w : Nat) : State := issueWord nbits w s

end Sys2Proof.Machine
end

