-- ==== Sys2Proof/Machine/Asm.lean ====
section
/-! DEFINITION. The assembly syntax and the pseudo-operations (spec/30_encoding.md R73, R74): from the characters of a
program to the operations the Host calls. The names of the TAP states, and which one is TAP_IDLE, are the TapService's, so
they are arguments. R73 does not say how a string or a negative number is written: strings in double quotes and a minus
sign, as the vectors of spec/95_test_vectors.md write them (log 26). -/

namespace Sys2Proof.Machine

open Sys2Proof

/-- The mnemonic of an operation (R68). -/
def mnemonic : Op → String
  | .encode => "ENCODE"
  | .encodeRst => "ENCODE_RST"
  | .enq => "ENQ"
  | .pulse => "PULSE"
  | .idle => "IDLE"
  | .qAvail => "Q_AVAIL"
  | .qEmpty => "Q_EMPTY"
  | .qFull => "Q_FULL"
  | .flush => "FLUSH"
  | .rxRead => "RX_READ"
  | .transition => "TRANSITION"
  | .cmdReset => "CMD_RESET"
  | .cmdRuntest => "CMD_RUNTEST"
  | .cmdPathmove => "CMD_PATHMOVE"
  | .cmdStableclocks => "CMD_STABLECLOCKS"
  | .cmdTms => "CMD_TMS"
  | .cmdSleep => "CMD_SLEEP"
  | .cmdScan => "CMD_SCAN"
  | .adpEmit => "ADP_EMIT"
  | .adpFlush => "ADP_FLUSH"
  | .adpDelay => "ADP_DELAY"
  | .adpAssertReset => "ADP_ASSERT_RESET"
  | .adpAvail => "ADP_AVAIL"
  | .adpRead => "ADP_READ"
  | .openSession => "OPEN"
  | .closeSession => "CLOSE"
  | .setSpeed => "SET_SPEED"
  | .speedToKhz => "SPEED_TO_KHZ"
  | .khzToSpeed => "KHZ_TO_SPEED"
  | .setLatency => "SET_LATENCY"
  | .execute => "EXECUTE"

/-! ### Tokens -/

/-- A token: a word, a quoted string, a sign of R73, or the end of a line. -/
inductive Token
  | word (cs : List Char)
  | text (cs : List Char)
  | comma
  | listOpen
  | listClose
  | queueOpen
  | queueClose
  | newline
deriving DecidableEq, Repr

/-- Where the scanner stands: in a word or a string (its characters last first; no characters between tokens), or in a
comment. -/
inductive Scan
  | word (acc : List Char)
  | text (acc : List Char)
  | comment

/-- The token a character is by itself. -/
def signOf (c : Char) : Option Token :=
  if c = ',' then some .comma
  else if c = '[' then some .listOpen
  else if c = ']' then some .listClose
  else if c.toNat = 123 then some .queueOpen
  else if c.toNat = 125 then some .queueClose
  else if c = '\n' then some .newline
  else none

/-- The tokens before what follows a word. -/
def endWord (acc : List Char) (ts : List Token) : List Token := if acc = [] then ts else .word acc.reverse :: ts

/-- The tokens of a text; `;` starts a comment (R73). None for a string that does not end. -/
def tokens : Scan → List Char → Option (List Token)
  | .word acc, [] => some (endWord acc [])
  | .text _, [] => none
  | .comment, [] => some []
  | .comment, c :: cs => if c = '\n' then (tokens (.word []) cs).map (.newline :: ·) else tokens .comment cs
  | .text acc, c :: cs =>
    if c = '"' then (tokens (.word []) cs).map (.text acc.reverse :: ·) else tokens (.text (c :: acc)) cs
  | .word acc, c :: cs =>
    match signOf c with
    | some t => (tokens (.word []) cs).map fun ts => endWord acc (t :: ts)
    | none =>
      if c = ' ' ∨ c = '\t' then (tokens (.word []) cs).map (endWord acc)
      else if c = ';' then (tokens .comment cs).map (endWord acc)
      else if c = '"' then (tokens (.text []) cs).map (endWord acc)
      else tokens (.word (c :: acc)) cs

/-! ### Operands -/

/-- A number, a name, or a string. -/
inductive Atom
  | num (n : Int)
  | name (cs : List Char)
  | text (cs : List Char)
deriving DecidableEq, Repr

/-- An operand: an atom, or a list of atoms in square brackets (R73). -/
inductive Operand
  | one (a : Atom)
  | many (as : List Atom)
deriving DecidableEq, Repr

/-- The value of a digit in a base up to 16. -/
def digitIn (base : Nat) (c : Char) : Option Nat :=
  let d :=
    if 48 ≤ c.toNat ∧ c.toNat ≤ 57 then c.toNat - 48
    else if 65 ≤ c.toNat ∧ c.toNat ≤ 70 then c.toNat - 55
    else if 97 ≤ c.toNat ∧ c.toNat ≤ 102 then c.toNat - 87
    else base
  if d < base then some d else none

/-- The value of a string of digits after a prefix of value `acc`. -/
def numberFrom (base : Nat) : Nat → List Char → Option Nat
  | acc, [] => some acc
  | acc, c :: cs => (digitIn base c).bind fun d => numberFrom base (acc * base + d) cs

/-- "numbers decimal or `0x` hexadecimal" (R73). -/
def natural : List Char → Option Nat
  | [] => none
  | '0' :: 'x' :: c :: cs => numberFrom 16 0 (c :: cs)
  | c :: cs => numberFrom 10 0 (c :: cs)

/-- A word as an atom: a number where it reads as one, else a name. -/
def atomOf : List Char → Atom
  | '-' :: cs => ((natural cs).map fun n => Atom.num (-(n : Int))).getD (.name ('-' :: cs))
  | cs => ((natural cs).map fun n => Atom.num (n : Int)).getD (.name cs)

/-- A token as an atom. -/
def atomOfToken : Token → Option Atom
  | .word cs => some (atomOf cs)
  | .text cs => some (.text cs)
  | _ => none

mutual

/-- The operands of a line, where one is due: "operand, operand, ..." (R73). -/
def operandDue : List Token → Option (List Operand)
  | [] => none
  | .listOpen :: .listClose :: ts => (operandDone ts).map (.many [] :: ·)
  | .listOpen :: ts => itemDue [] ts
  | t :: ts => (atomOfToken t).bind fun a => (operandDone ts).map (.one a :: ·)

/-- The same, after an operand: a comma and the next, or the end. -/
def operandDone : List Token → Option (List Operand)
  | [] => some []
  | .comma :: ts => operandDue ts
  | _ :: _ => none

/-- The same, inside a list where an item is due. -/
def itemDue (acc : List Atom) : List Token → Option (List Operand)
  | [] => none
  | t :: ts => (atomOfToken t).bind fun a => itemDone (a :: acc) ts

/-- The same, inside a list after an item. -/
def itemDone (acc : List Atom) : List Token → Option (List Operand)
  | [] => none
  | .comma :: ts => itemDue acc ts
  | .listClose :: ts => (operandDone ts).map (.many acc.reverse :: ·)
  | _ :: _ => none

end

/-- The operands of a line: none at all, or one or more. -/
def operands : List Token → Option (List Operand)
  | [] => some []
  | t :: ts => operandDue (t :: ts)

/-! ### Lines -/

/-- A natural. -/
def natAtom : Atom → Option Nat
  | .num (.ofNat n) => some n
  | _ => none

/-- A byte. -/
def byteAtom (a : Atom) : Option Byte := (natAtom a).bind fun n => if n < 256 then some (BitVec.ofNat 8 n) else none

/-- A TAP state "by name" (R73). -/
def stateAtom (names : List String) : Atom → Option TapState
  | .name cs => names.findIdx? fun name => decide (name.toList = cs)
  | _ => none

/-- The bytes of an argument string's characters. The spec does not say what bytes a character is: DESIGN CHOICE, its UTF-8
bytes, so that a character past 7F is two bytes or more, each at least 80, and none of them a digit (log 12, 26). -/
def textBytes (cs : List Char) : ArgString := cs.flatMap fun c => (String.utf8EncodeChar c).map UInt8.toBitVec

/-- An argument string. -/
def argAtom : Atom → Option ArgString
  | .text cs => some (textBytes cs)
  | _ => none

/-- A bit operand: "bits 0 or 1" (R73). -/
def asBit : Operand → Option Bool
  | .one (.num 0) => some false
  | .one (.num 1) => some true
  | _ => none

/-- A natural operand. -/
def asNat : Operand → Option Nat
  | .one a => natAtom a
  | .many _ => none

/-- An integer operand. -/
def asInt : Operand → Option Int
  | .one (.num n) => some n
  | _ => none

/-- A byte operand. -/
def asByte : Operand → Option Byte
  | .one a => byteAtom a
  | .many _ => none

/-- A buffer operand (R68). -/
def asBuf : Operand → Option Buf
  | .one (.name cs) => if cs = "tx".toList then some .tx else if cs = "rx".toList then some .rx else none
  | _ => none

/-- A TAP state operand. -/
def asState (names : List String) : Operand → Option TapState
  | .one a => stateAtom names a
  | .many _ => none

/-- A list operand. -/
def asList {α : Type} (item : Atom → Option α) : Operand → Option (List α)
  | .many as => as.mapM item
  | .one _ => none

/-- The operation of a mnemonic with its operands, "positional in the order of rule R68" (R73). EXECUTE is no single
line. -/
def operation (names : List String) : Op → List Operand → Option Instr
  | .encode, [a, b, c, d] => do return .encode (← asBit a) (← asBit b) (← asBit c) (← asBit d)
  | .encodeRst, [a, b] => do return .encodeRst (← asBit a) (← asBit b)
  | .enq, [a] => do return .enq (← asByte a)
  | .pulse, [a, b, c] => do return .pulse (← asBit a) (← asBit b) (← asBit c)
  | .idle, [] => some .idle
  | .qAvail, [a] => do return .qAvail (← asBuf a)
  | .qEmpty, [a] => do return .qEmpty (← asBuf a)
  | .qFull, [a] => do return .qFull (← asBuf a)
  | .flush, [] => some .flush
  | .rxRead, [] => some .rxRead
  | .transition, [a] => do return .transition (← asState names a)
  | .cmdReset, [a, b] => do return .cmdReset (← asBit a) (← asBit b)
  | .cmdRuntest, [a, b] => do return .cmdRuntest (← asNat a) (← asState names b)
  | .cmdPathmove, [a] => do return .cmdPathmove (← asList (stateAtom names) a)
  | .cmdStableclocks, [a] => do return .cmdStableclocks (← asNat a)
  | .cmdTms, [a, b] => do return .cmdTms (← asNat a) (← asList byteAtom b)
  | .cmdSleep, [a] => do return .cmdSleep (← asNat a)
  | .cmdScan, [a] => do return .cmdScan (← asList byteAtom a)
  | .adpEmit, [a, b, c, d] => do return .adpEmit (← asBit a) (← asBit b) (← asBit c) (← asBit d)
  | .adpFlush, [] => some .adpFlush
  | .adpDelay, [a] => do return .adpDelay (← asNat a)
  | .adpAssertReset, [a, b] => do return .adpAssertReset (← asBit a) (← asBit b)
  | .adpAvail, [] => some .adpAvail
  | .adpRead, [] => some .adpRead
  | .openSession, [] => some .openSession
  | .closeSession, [] => some .closeSession
  | .setSpeed, [a] => do return .setSpeed (← asNat a)
  | .speedToKhz, [a] => do return .speedToKhz (← asNat a)
  | .khzToSpeed, [a] => do return .khzToSpeed (← asInt a)
  | .setLatency, [a] => do return .setLatency (← asList argAtom a)
  | _, _ => none

/-- A pseudo-operation (R74). -/
def pseudo (cs : List Char) : List Operand → Option Pseudo
  | [] =>
    if cs = "HRESET".toList then some .hreset
    else if cs = "SRESET".toList then some .sreset
    else if cs = "RELEASE".toList then some .release
    else if cs = "SYNC".toList then some .sync
    else none
  | [a] =>
    if cs = "CLOCK".toList then (asBit a).map .clock
    else if cs = "IDLECLK".toList then (asNat a).map .idleclk
    else none
  | [a, b, c] =>
    if cs = "ADP_CLOCK".toList then do return .adpClock (← asBit a) (← asBit b) (← asBit c) else none
  | _ => none

/-- The operations of a line: one, or a pseudo-operation's expansion (R73, R74). -/
def lineOps (names : List String) (idleState : TapState) : List Token → Option (List Instr)
  | .word cs :: ts =>
    (operands ts).bind fun os =>
      match allOps.find? fun op => decide ((mnemonic op).toList = cs) with
      | some op => (operation names op os).map fun i => [i]
      | none => (pseudo cs os).map (Pseudo.expand idleState)
  | _ => none

/-- The command record of a "CMD_ line itself" in a queue (R73). -/
def commandOf : Instr → Option Command
  | .cmdReset trst srst => some (.reset trst srst)
  | .cmdRuntest cycles endState => some (.runtest cycles endState)
  | .cmdPathmove path => some (.pathmove path)
  | .cmdStableclocks cycles => some (.stableclocks cycles)
  | .cmdTms nbits bits => some (.tms nbits bits)
  | .cmdSleep us => some (.sleep us)
  | .cmdScan payload => some (.scan payload)
  | _ => none

/-! ### Programs -/

/-- The lines of a text: its tokens cut at the ends of lines. -/
def linesOf : List Token → List (List Token)
  | [] => [[]]
  | .newline :: ts => [] :: linesOf ts
  | t :: ts =>
    match linesOf ts with
    | [] => [[t]]
    | line :: rest => (t :: line) :: rest

/-- The operations of the lines of a program; `queue` holds the records of an EXECUTE that is open, in order. -/
def programOps (names : List String) (idleState : TapState) : Option (List Command) → List (List Token) → Option (List Instr)
  | none, [] => some []
  | some _, [] => none
  | queue, [] :: rest => programOps names idleState queue rest
  | none, line :: rest =>
    if line = [.word "EXECUTE".toList, .queueOpen] then programOps names idleState (some []) rest
    else (lineOps names idleState line).bind fun is => (programOps names idleState none rest).map (is ++ ·)
  | some queue, line :: rest =>
    if line = [.queueClose] then (programOps names idleState none rest).map (.execute queue :: ·)
    else (lineOps names idleState line).bind fun is =>
      (is.mapM commandOf).bind fun cs => programOps names idleState (some (queue ++ cs)) rest

/-- The operations of a program, "one operation per line" (R73); none for a text that is no program. -/
def assemble (names : List String) (idleState : TapState) (text : List Char) : Option (List Instr) :=
  (tokens (.word []) text).bind fun ts => programOps names idleState none (linesOf ts)

end Sys2Proof.Machine
end

