-- ==== Sys2Proof/Safety.lean ====
section
/-! DEFINITION. The terms the statements use: the invariant of the session, the states in which an operation that needs a
session runs to its end, what a run of appended bytes does to the state, and the samples a flush keeps. -/

namespace Sys2Proof.Safety

open Sys2Proof Sys2Proof.Machine

/-! ### The invariant -/

/-- The session's invariant: the parameters meet R5's constraints, "count never exceeds capacity" (spec/10_state.md R14),
`speed_khz >= 1` (R17), `latency` in 0..255 (R18), the TapService's registers hold TAP states (R20), and the flush
transient and the queue index exist only while their operations run, so an unfaulted state holds neither (R15, R29). -/
structure SessionInv (s : State) : Prop where
  params : s.cfg.ok = true
  txBound : s.tx.length ≤ s.cfg.txCap
  rxBound : s.rx.length ≤ s.cfg.rxCap
  speed : 1 ≤ s.speedKhz
  latency : s.latency ≤ 255
  tapCur : s.tapCur < s.cfg.tap.count
  tapEnd : s.tapEnd < s.cfg.tap.count
  transient : s.fault = none → s.flush = none ∧ s.qi = none

/-! ### Samples -/

/-- How many bytes of a list request a sample: their SREQ bit is 1 (spec/41_transport.md R112). -/
def sampleCount (p : PinMap) (bytes : List Byte) : Nat := (bytes.filter fun b => bitAt b p.sreq).length

/-- The bytes kept of the samples read for a list of transmit bytes: of each pair of a transmit byte with SREQ = 1 and
the byte read in its place, the kept form of the latter, in order (R104, R109). -/
def retained (c : Params) (sent read : List Byte) : List Byte :=
  ((sent.zip read).filter fun p => bitAt p.1 c.pins.sreq).map fun p => rxValue c p.2

/-! ### Running to the end -/

/-- A session in which nothing stops an operation: it is open and unfaulted, no listed reply of the Device is a hang, and
the receive buffer has room for the samples the transmit buffer requests and `extra` more (R11, R101, R104, R218). -/
structure ReadyFor (extra : Nat) (s : State) : Prop where
  params : s.cfg.ok = true
  unfaulted : s.fault = none
  opened : s.isOpen = true
  answering : DevReply.hangs ∉ s.ext.replies
  room : s.rx.length + sampleCount s.cfg.pins s.tx + extra ≤ s.cfg.rxCap

/-- Ready for the samples already requested. -/
abbrev Ready (s : State) : Prop := ReadyFor 0 s

/-- What an operation that appends `bytes`, in order, does to the state, from `s` to `t`. It keeps every register but those
its rule writes; the histories only grow. With room in the transmit buffer nothing else happens. And where nothing was
logged (no transport failure, no dropped byte), the bytes written and queued have grown by exactly `bytes`, and no
sample was lost (spec/20_memory.md R41, R44; spec/40_encoder.md R92). `tap_cur` and `ret` are not spoken of. -/
structure Emits (bytes : List Byte) (s t : State) : Prop where
  cfg : t.cfg = s.cfg
  isOpen : t.isOpen = s.isOpen
  speedKhz : t.speedKhz = s.speedKhz
  latency : t.latency = s.latency
  tapEnd : t.tapEnd = s.tapEnd
  flush : t.flush = s.flush
  qi : t.qi = s.qi
  fault : t.fault = s.fault
  scanReturns : t.scanReturns = s.scanReturns
  devCalls : t.devCalls = s.devCalls
  calls : t.ext.calls = s.ext.calls
  endWrites : t.ext.endWrites = s.ext.endWrites
  primitives : t.ext.primitives = s.ext.primitives
  scans : t.ext.scans = s.ext.scans
  replies : t.ext.replies <:+ s.ext.replies
  written : s.wireOut <+: t.wireOut
  read : s.wireIn <+: t.wireIn
  logged : s.events <+: t.events
  direct : s.tx.length + bytes.length ≤ s.cfg.txCap →
    t.tx = s.tx ++ bytes ∧ t.rx = s.rx ∧ t.wireOut = s.wireOut ∧ t.wireIn = s.wireIn ∧ t.events = s.events ∧ t.ext = s.ext
  stream : t.events = s.events → t.wireOut ++ t.tx = s.wireOut ++ s.tx ++ bytes ∧ s.rx <+: t.rx

/-! ### Pin bytes of sequences -/

/-- The two bytes of a pulse: clock low, then clock high, with TMS and TDI held and the sample request only on the high
phase (spec/40_encoder.md R93). -/
def pulseBytes (p : PinMap) (tms tdi sreq : Bool) : List Byte :=
  [pinByte p false tms tdi false, pinByte p true tms tdi sreq]

/-- The bytes of one pulse with TDI = 0 and no sample request for each TMS value (R98). -/
def clockBytes (p : PinMap) (tmsValues : List Bool) : List Byte := tmsValues.flatMap fun tms => pulseBytes p tms false false

/-- The idle byte (R94). -/
def idleByte (p : PinMap) : Byte := pinByte p false false false false

/-- The bytes of a TRANSITION: one pulse per bit of the path, then the idle byte (spec/42_tap_driver.md R121). -/
def transitionBytes (c : Params) (s target : TapState) : List Byte :=
  clockBytes c.pins (pathBits (tapPath c.tap s target)) ++ [idleByte c.pins]

/-- The bytes an operation appends, for the five that append bytes and do nothing else (R92, R93, R94;
spec/44_adapter.md R151, R154). -/
def appends (p : PinMap) : Instr → Option (List Byte)
  | .enq b => some [b]
  | .pulse tms tdi sreq => some (pulseBytes p tms tdi sreq)
  | .idle => some [idleByte p]
  | .adpEmit clock select data sampleRequest => some [pinByte p clock select data sampleRequest]
  | .adpAssertReset lineA lineB => some [resetByte p lineA lineB]
  | _ => none

/-! ### Paths -/

/-- The TMS values of an explicit path: at each step the value whose successor is the next state, the "false" successor
tested first; none where a step is neither successor (spec/43_commands.md R133). -/
def pathTms (t : TapService) : TapState → List TapState → Option (List Bool)
  | _, [] => some []
  | cur, next :: rest =>
    if tapSucc t cur false = next then (pathTms t next rest).map fun bits => false :: bits
    else if tapSucc t cur true = next then (pathTms t next rest).map fun bits => true :: bits
    else none

/-- Every path the TapService gives to TAP_IDLE has at most 8 clocks, and TAP_IDLE is stable: a first transition of a
run-test never faults (R121, R131). -/
structure IdleReachable (t : TapService) : Prop where
  stable : tapStable t (tapIdle t) = true
  short : ∀ s : TapState, (tapPath t s (tapIdle t)).count ≤ 8

/-- A command that no state makes fault, given that TAP_IDLE is reachable: its operands alone keep every precondition. -/
def neverFaults (t : TapService) : Command → Prop
  | .reset _ _ => True
  | .runtest _ endState =>
    endState ≠ tapIdle t → tapStable t endState = true ∧ (tapPath t (tapIdle t) endState).count ≤ 8
  | .pathmove path => path = []
  | .stableclocks _ => False
  | .tms _ _ => True
  | .sleep _ => True
  | .scan _ => False

/-! ### Which operations need a session -/

/-- The operation NotOpen records when an operation runs with no session: the operation that checks, its own or one it
calls; none for the six that run with no session, the ones R181 lists (R11, R181, D27; log 29, 32). -/
def sessionOp : Instr → Option Op
  | .encode _ _ _ _ => some .encode
  | .encodeRst _ _ => some .encodeRst
  | .enq _ => some .enq
  | .pulse _ _ _ => some .enq
  | .idle => some .enq
  | .qAvail _ => some .qAvail
  | .qEmpty _ => some .qEmpty
  | .qFull _ => some .qFull
  | .flush => some .flush
  | .rxRead => some .rxRead
  | .transition _ => some .transition
  | .cmdReset _ _ => some .cmdReset
  | .cmdRuntest _ _ => some .cmdRuntest
  | .cmdPathmove _ => some .cmdPathmove
  | .cmdStableclocks _ => some .cmdStableclocks
  | .cmdTms _ _ => some .cmdTms
  | .cmdSleep _ => some .cmdSleep
  | .cmdScan _ => some .cmdScan
  | .adpEmit _ _ _ _ => some .adpEmit
  | .adpFlush => some .flush
  | .adpDelay _ => some .cmdSleep
  | .adpAssertReset _ _ => some .adpAssertReset
  | .adpAvail => some .qAvail
  | .adpRead => some .rxRead
  | .openSession => none
  | .closeSession => none
  | .setSpeed _ => none
  | .speedToKhz _ => none
  | .khzToSpeed _ => none
  | .setLatency _ => none
  | .execute _ => some .execute

/-! ### Answers of the Device -/

/-- The answers R101 admits to an iteration: item 1 for the write count, items 2 and 4 for the read count and data, item 3
the synchrony bound, and the bytes the answer puts on the lines. -/
structure Admissible (f : FlushState) (wreq : List Byte) (rreq : Nat) (it : Iteration) : Prop where
  noWrite : wreq = [] → it.w = 0
  write : it.w ≤ wreq.length
  noRead : rreq = 0 → it.r = 0
  read : it.r ≤ rreq
  data : it.data.length = it.r.toNat
  synchrony : 0 ≤ it.w → 0 ≤ it.r → f.rpos + it.r ≤ f.wpos + it.w
  wrote : 0 ≤ it.w → it.wrote = wreq.take it.w.toNat
  lost : it.w < 0 → it.wrote <+: wreq

/-! ### Iterations of a flush -/

/-- The transient a FLUSH starts with (spec/41_transport.md R102). -/
def flushStart (s : State) : FlushState := { snap := s.tx, wpos := 0, rpos := 0 }

/-- `k` iterations of a FLUSH from transient `f` in state `s`, each with neither count negative and room in `rx` for its
samples: the transient and the state they leave (R102 to R104). None where a FLUSH does not make that many such
iterations. -/
def flushRun : Nat → FlushState → State → Option (FlushState × State)
  | 0, f, s => some (f, s)
  | k + 1, f, s =>
    if flushBusy f then
      match devIter f s with
      | none => none
      | some (it, u) =>
        if it.w < 0 ∨ it.r < 0 then none
        else
          match keepSamples u.cfg (f.snap.drop f.rpos) it.data u.rx with
          | (_, true) => none
          | (rx, false) =>
            flushRun k { f with wpos := f.wpos + it.w.toNat, rpos := f.rpos + it.r.toNat } { u with rx := rx }
    else none

/-! ### Histories and reset bits -/

/-- The state with longer histories: the given elements before those it holds (R22, R23, R32). -/
def withPast (events : List Event) (out inn : List Byte) (calls : List DevCall) (s : State) : State :=
  { s with events := events ++ s.events, wireOut := out ++ s.wireOut, wireIn := inn ++ s.wireIn,
           devCalls := calls ++ s.devCalls }

/-- An outcome with its next state changed. -/
def onNext (g : State → State) : Host.Outcome State Fault Refusal → Host.Outcome State Fault Refusal
  | .next s => .next (g s)
  | .fault f => .fault f
  | .refused r => .refused r

/-- Both reset lines of a pin byte are deasserted (R61). -/
def released (p : PinMap) (b : Byte) : Prop := bitAt b p.trst = true ∧ bitAt b p.srst = true

/-- The operations that can append a byte with an asserted reset line: those that assert one, those that run such an
operation, and the raw append (R61, R92, R205). -/
def mayAssert : Instr → Bool
  | .enq _ => true
  | .cmdReset _ _ => true
  | .adpAssertReset _ _ => true
  | .cmdScan _ => true
  | .execute _ => true
  | _ => false

/-- The operations that can write `tap_cur` (R21): a wildcard stands for the rest, so that the list reads as R21's. -/
def mayWriteTap : Instr → Bool
  | .transition _ => true
  | .cmdReset _ _ => true
  | .cmdRuntest _ _ => true
  | .cmdPathmove _ => true
  | .cmdTms _ _ => true
  | .cmdScan _ => true
  | .execute _ => true
  | _ => false

/-! ### Sequences of operations run one by one -/

/-- An adapter operation of a ScanLayer as an instruction of its own (R150). -/
def adpInstr : AdpOp → Instr
  | .emit clock select data sampleRequest => .adpEmit clock select data sampleRequest
  | .flush => .adpFlush
  | .delay us => .adpDelay us
  | .assertReset lineA lineB => .adpAssertReset lineA lineB
  | .avail => .adpAvail
  | .read => .adpRead

/-- How many adapter operations of a scan request a sample. -/
def scanSamples (ops : List AdpOp) : Nat :=
  (ops.filter fun op => match op with | .emit _ _ _ sampleRequest => sampleRequest | _ => false).length

/-- Run operations one after the other as instructions of their own, stopping at a state with a fault. -/
def runInstrs : List Instr → State → Host.Outcome State Fault Refusal
  | [], s => .next s
  | i :: rest, s =>
    match exec i s with
    | .next t => if t.fault = none then runInstrs rest t else .next t
    | .fault f => .fault f
    | .refused r => .refused r

/-- The values the operations of such a sequence return, up to a fault. -/
def returnsOf : List Instr → State → List OpResult
  | [], _ => []
  | i :: rest, s =>
    match exec i s with
    | .next t => if t.fault = none then t.ret :: returnsOf rest t else []
    | .fault _ => []
    | .refused _ => []

/-- One pulse with TDI = 0 and no sample request, as an instruction: `CLOCK tms` (R74). -/
def clock (tms : Bool) : Instr := .pulse tms false false

/-- What an operation called in `s` leaves when the operations it runs leave `u`: its last write, and nothing returned; or,
where one of them raised a fault, `u` as it is (spec/60_exceptions.md R183), with the value of an earlier call in `ret`. -/
def finish (s u : State) (last : State → State) : State :=
  if u.fault = none then { last u with ret := .unit } else { u with ret := s.ret }

/-- How many bit operands an operation has, for those whose operands are bits alone (spec/30_encoding.md R68). -/
def bitOperands : Op → Nat
  | .encode => 4
  | .encodeRst => 2
  | .pulse => 3
  | .cmdReset => 2
  | .adpEmit => 4
  | .adpAssertReset => 2
  | _ => 0

/-- A bit operand as assembly text writes it: "bits 0 or 1" (R73). -/
def bitText (v : Bool) : List Char := if v then ['1'] else ['0']

/-- The character of a decimal digit (R167). -/
def digitChar (d : Nat) : Byte := BitVec.ofNat 8 (48 + d)

end Sys2Proof.Safety
end

