-- ==== Sys2Proof/Certificates/Slice0/Obligations.lean ====
section
/-! DEFINITION. The statements for the provers. Each docstring says which rule of the spec a statement formalises. `Ready`,
`Emits`, `SessionInv` and the other terms are those of Sys2Proof/Safety.lean. A raised fault is a next state whose `fault` is
set (log 7), so "runs to its end" is a next state with no fault. `ret` is the value an operation returns and `devCalls` the
calls on the Device's primitives: the rules give both, the fields that hold them are the model's (log 8, 9). -/

open Sys2Proof Sys2Proof.Machine Sys2Proof.Safety

/-! ### Words -/

/-- Decoding the encoding of any operation, whatever bytes follow, gives the operation and those bytes: no operand of any
form is dropped. The operand layout is the model's choice (log 11); the opcodes are R68's. -/
def Obligations.DecodeOfEncodeIsIdentity : Prop :=
  ∀ (i : Instr) (rest : List Byte), decode (encode i ++ rest) = .ok (i, rest)

/-- What the decoder accepts is exactly the encoding of what it answers: each operation has one word. The operand layout
is the model's choice (log 11). -/
def Obligations.DecodedWordIsItsEncoding : Prop :=
  ∀ (bytes rest : List Byte) (i : Instr), decode bytes = .ok (i, rest) → bytes = encode i ++ rest

/-- R70: an opcode not in the map, and a command record whose kind tag is not one of 0x10..0x16 wherever it stands in a
queue, spell no operation; the word is refused by name and nothing runs. The second clause writes the queue's word in
the model's own byte layout (log 11); that the opcode is the first byte of a word is the model's choice too. -/
def Obligations.UnmappedOpcodesAndKindsAreRefused : Prop :=
  (∀ (s : State) (code : Byte) (rest : List Byte), s.fault = none → s.ext.calls = code :: rest →
      (∀ op : Op, opCode op ≠ code.toNat) → step s = .refused (.badWord (.unknownOp code.toNat))) ∧
    ∀ (s : State) (earlier : List Command) (n : Nat) (tag : Byte) (rest : List Byte), s.fault = none →
      s.ext.calls = 0x36 :: (putNat n ++ earlier.flatMap putCommand ++ tag :: rest) → earlier.length < n →
      (tag.toNat < 0x10 ∨ 0x16 < tag.toNat) → step s = .refused (.badWord (.unknownKind tag.toNat))

/-- R71, R182: a word with an ill-formed operand is refused by name and nothing runs: an operation that is not well formed
under the session's TapService; a bit operand other than 0 or 1, of an operation or of a CMD_RESET record wherever it
stands in a queue; a buffer operand that is neither tx nor rx. Which check names the refusal is the model's choice (log
31), and so is the byte layout, where a bit and a buffer are one byte each and a byte operand over 255 cannot be written
(log 11). -/
def Obligations.IllFormedOperandsAreRefused : Prop :=
  (∀ (s : State) (i : Instr) (rest : List Byte), s.fault = none → s.ext.calls = encode i ++ rest →
      i.wellFormed s.cfg.tap.count = false → step s = .refused (.illFormed i.op)) ∧
    (∀ (s : State) (op : Op) (good rest : List Byte) (bad : Byte), s.fault = none → (∀ b ∈ good, b = 0 ∨ b = 1) →
      good.length < bitOperands op → bad ≠ 0 → bad ≠ 1 →
      s.ext.calls = BitVec.ofNat 8 (opCode op) :: (good ++ bad :: rest) →
        step s = .refused (.badWord (.badBit bad.toNat))) ∧
    (∀ (s : State) (earlier : List Command) (n : Nat) (good rest : List Byte) (bad : Byte), s.fault = none →
      earlier.length < n → (∀ b ∈ good, b = 0 ∨ b = 1) → good.length < bitOperands .cmdReset → bad ≠ 0 → bad ≠ 1 →
      s.ext.calls = 0x36 :: (putNat n ++ earlier.flatMap putCommand ++ 0x10 :: (good ++ bad :: rest)) →
        step s = .refused (.badWord (.badBit bad.toNat))) ∧
    ∀ (s : State) (op : Op) (rest : List Byte) (bad : Byte), s.fault = none → (op = .qAvail ∨ op = .qEmpty ∨ op = .qFull) →
      bad ≠ 0 → bad ≠ 1 → s.ext.calls = BitVec.ofNat 8 (opCode op) :: bad :: rest →
        step s = .refused (.badWord (.badBuffer bad.toNat))

/-- Words written out from the opcode map (R68), one of each family, decode to what they stand for. -/
def Obligations.WrittenOutWordsDecode : Prop :=
  decode [0x00, 0x01, 0x00, 0x01, 0x00] = .ok (.encode true false true false, []) ∧
    decode [0x02, 0xA5] = .ok (.enq 0xA5, []) ∧
    decode [0x08] = .ok (.flush, []) ∧
    decode [0x0A, 0x06] = .ok (.transition 6, []) ∧
    decode [0x14, 0x0A, 0x02, 0xFF, 0x02] = .ok (.cmdTms 10 [0xFF, 0x02], []) ∧
    decode [0x20, 0x01, 0x00, 0x01, 0x01] = .ok (.adpEmit true false true true, []) ∧
    decode [0x32, 0xE8, 0x07] = .ok (.setSpeed 1000, []) ∧
    decode [0x36, 0x02, 0x10, 0x01, 0x00, 0x15, 0x64] = .ok (.execute [.reset true false, .sleep 100], [])

/-- R74: each pseudo-operation, written as a line of assembly, is its expansion: CLOCK and ADP_CLOCK with every value of
their operands, IDLECLK with decimal and hexadecimal counts (R73). -/
def Obligations.PseudoOperationsAssemble : Prop :=
  ∀ idleState : TapState,
    (∀ tms : Bool, assemble [] idleState ("CLOCK ".toList ++ bitText tms) = some [.pulse tms false false]) ∧
      (∀ tms tdi sreq : Bool,
        assemble [] idleState
            ("ADP_CLOCK ".toList ++ bitText tms ++ ", ".toList ++ bitText tdi ++ ", ".toList ++ bitText sreq) =
          some [.adpEmit false tms tdi false, .adpEmit true tms tdi sreq]) ∧
      assemble [] idleState "HRESET".toList = some [.cmdReset true false] ∧
      assemble [] idleState "SRESET".toList = some [.cmdReset false true] ∧
      assemble [] idleState "RELEASE".toList = some [.cmdReset false false] ∧
      (assemble [] idleState "IDLECLK 0".toList = some [.cmdRuntest 0 idleState] ∧
        assemble [] idleState "IDLECLK 5".toList = some [.cmdRuntest 5 idleState] ∧
        assemble [] idleState "IDLECLK 4096".toList = some [.cmdRuntest 4096 idleState] ∧
        assemble [] idleState "IDLECLK 0x1F".toList = some [.cmdRuntest 31 idleState]) ∧
      assemble [] idleState "SYNC".toList = some [.flush]

/-! ### The machine -/

/-- A step runs the decoded operation: with no fault set and a well-formed operation at the head of the Host's calls, the
step is that operation's meaning in the state with its word taken off the stream and a pending outside write of tap_end
done. With no call pending the step only does that write (log 10, 15). -/
def Obligations.StepRunsTheDecodedOperation : Prop :=
  (∀ (s : State) (i : Instr) (rest : List Byte), s.fault = none → decode s.ext.calls = .ok (i, rest) →
      i.wellFormed s.cfg.tap.count = true → step s = exec i (afterFetch rest s)) ∧
    ∀ s : State, s.fault = none → s.ext.calls = [] → step s = .next (takeEndWrite s)

/-- R25: `fault` is empty at power-on; a raise sets it to the kind with its info and the operation and changes nothing
else; a state with a fault set takes no further step, so none clears it. That such a state answers `sessionFaulted` is the
model's name for it (log 7). -/
def Obligations.FaultIsStickyAndFinal : Prop :=
  (∀ (c : Params) (cur fin : TapState), (State.powerOn c cur fin).fault = none) ∧
    (∀ (op : Op) (kind : FaultKind) (s : State),
      (raise op kind s : Res Unit) = .raised { s with fault := some ⟨kind, op⟩ }) ∧
    ∀ (s : State) (m : FaultMark), s.fault = some m →
      step s = .fault (.sessionFaulted m) ∧ ∀ i : Instr, exec i s = .fault (.sessionFaulted m)

/-- Every step keeps the invariant: parameters within R5's constraints, both buffers within capacity (R14), the
configuration registers and the TAP registers in range (R17, R18, R20), no transient state between unfaulted steps
(R15, R29). -/
def Obligations.StepKeepsInvariant : Prop :=
  ∀ s t : State, SessionInv s → step s = .next t → SessionInv t

/-- The invariant holds at power-on of every machine whose parameters meet R5's constraints, and at reset. -/
def Obligations.PowerOnMeetsInvariant : Prop :=
  (∀ (c : Params) (cur fin : TapState), c.ok = true → SessionInv (State.powerOn c cur fin)) ∧ SessionInv State.reset

/-- R200: power-on. The TapService's registers take every state of the state type. Two clauses read R200 through the
model's own terms: "no device is claimed" as no primitive called, a record the spec does not name and whose value at
power-on is the model's (log 9, 27), and "no line is driven" as no byte written (log 17). -/
def Obligations.PowerOnValues : Prop :=
  ∀ (c : Params) (cur fin : TapState),
    (State.powerOn c cur fin).isOpen = false ∧ (State.powerOn c cur fin).tx = [] ∧ (State.powerOn c cur fin).rx = [] ∧
      (State.powerOn c cur fin).speedKhz = c.initKhz ∧ (State.powerOn c cur fin).latency = c.initLatency ∧
      (State.powerOn c cur fin).wireOut = [] ∧ (State.powerOn c cur fin).wireIn = [] ∧
      (State.powerOn c cur fin).events = [] ∧ (State.powerOn c cur fin).fault = none ∧
      (State.powerOn c cur fin).devCalls = [] ∧ lineLatch (State.powerOn c cur fin) = none ∧
      (cur < c.tap.count → (State.powerOn c cur fin).tapCur = cur) ∧
      (fin < c.tap.count → (State.powerOn c cur fin).tapEnd = fin)

/-- No operation changes a parameter (R10), writes tap_end (R21), or shortens a history (R22, R23: "never cleared");
`is_open` is written only by OPEN and CLOSE (R11), `speed_khz` only by SET_SPEED (R17), `latency` only by SET_LATENCY
(R18). -/
def Obligations.OperationsWriteOnlyTheirRegisters : Prop :=
  ∀ (i : Instr) (s t : State), s.cfg.ok = true → exec i s = .next t →
    t.cfg = s.cfg ∧ t.tapEnd = s.tapEnd ∧ s.wireOut <+: t.wireOut ∧ s.wireIn <+: t.wireIn ∧ s.events <+: t.events ∧
      s.devCalls <+: t.devCalls ∧ (i ≠ .openSession → i ≠ .closeSession → t.isOpen = s.isOpen) ∧
      ((∀ khz, i ≠ .setSpeed khz) → t.speedKhz = s.speedKhz) ∧ ((∀ args, i ≠ .setLatency args) → t.latency = s.latency)

/-- R21: `tap_cur` is written only by TRANSITION, CMD_PATHMOVE, CMD_TMS, CMD_RESET and CMD_SCAN, and by the operations that
run one of them (CMD_RUNTEST, EXECUTE). -/
def Obligations.OnlyTapOperationsWriteTapCur : Prop :=
  ∀ (i : Instr) (s t : State), s.cfg.ok = true → mayWriteTap i = false → exec i s = .next t → t.tapCur = s.tapCur

/-- No operation reads a history back: "Logging is the only trace, and no operation reads it" (R197, R27), nor the streams
and the calls on the Device. An operation on a state with longer histories does what it does on the state without. -/
def Obligations.NoOperationReadsTheHistories : Prop :=
  ∀ (i : Instr) (s : State) (events : List Event) (out inn : List Byte) (calls : List DevCall),
    exec i (withPast events out inn calls s) = onNext (withPast events out inn calls) (exec i s)

/-- "those lines move only by CMD_RESET and ADP_ASSERT_RESET" (R205), and raw bytes of ENQ: any other operation, run where
every queued byte has both reset lines deasserted, leaves only such bytes queued and has written only such bytes. -/
def Obligations.ResetLinesMoveOnlyByResetOperations : Prop :=
  ∀ (i : Instr) (s t : State), s.cfg.ok = true → mayAssert i = false → exec i s = .next t →
    (∀ b ∈ s.tx, released s.cfg.pins b) →
      (∀ b ∈ t.tx, released s.cfg.pins b) ∧
        ∃ wrote, t.wireOut = s.wireOut ++ wrote ∧ ∀ b ∈ wrote, released s.cfg.pins b

/-- NotOpen comes first in every operation but the six that R11 and R181 except, whatever its operands (R11, R181, R191,
D27): the state stays as it was but for the mark, which names the operation that checks (log 29, 32). -/
def Obligations.SessionOperationsNeedAnOpenSession : Prop :=
  ∀ (i : Instr) (op : Op) (s : State), sessionOp i = some op → s.fault = none → s.isOpen = false →
    exec i s = .next { s with fault := some ⟨.notOpen, op⟩ }

/-! ### Encoder and buffers -/

/-- R90: in an open session ENCODE returns the byte whose six fields are the four signals and both reset lines deasserted,
every other bit 0, and writes nothing. With the session closed it raises NotOpen: that R11, R181 and D27 hold for it,
whose own rule says "Exceptions: none", is the model's reading (log 32). -/
def Obligations.EncodeReturnsThePinByte : Prop :=
  opCode .encode = 0x00 ∧
    ∀ (tck tms tdi sreq : Bool) (s : State), s.fault = none →
    (s.isOpen = true → s.cfg.pins.distinct = true →
      ∃ b : Byte, exec (.encode tck tms tdi sreq) s = .next { s with ret := .byte b } ∧
        bitAt b s.cfg.pins.tck = tck ∧ bitAt b s.cfg.pins.tms = tms ∧ bitAt b s.cfg.pins.tdi = tdi ∧
        bitAt b s.cfg.pins.sreq = sreq ∧ bitAt b s.cfg.pins.trst = true ∧ bitAt b s.cfg.pins.srst = true ∧
        ∀ j : Fin 8,
          j ∉ [s.cfg.pins.tck, s.cfg.pins.tms, s.cfg.pins.tdi, s.cfg.pins.sreq, s.cfg.pins.trst, s.cfg.pins.srst] →
            bitAt b j = false) ∧
      (s.isOpen = false → exec (.encode tck tms tdi sreq) s = .next { s with fault := some ⟨.notOpen, .encode⟩ })

/-- R91: in an open session ENCODE_RST returns the byte whose reset bits are the negated requests and every other bit 0, and
writes nothing; with nothing requested it is the idle byte. With the session closed it raises NotOpen: that R11, R181 and
D27 hold for it, whose own rule says "Exceptions: none", is the model's reading (log 32). -/
def Obligations.EncodeRstReturnsTheResetByte : Prop :=
  opCode .encodeRst = 0x01 ∧
    ∀ (trst srst : Bool) (s : State), s.fault = none →
    (s.isOpen = true → s.cfg.pins.distinct = true →
      ∃ b : Byte, exec (.encodeRst trst srst) s = .next { s with ret := .byte b } ∧
        bitAt b s.cfg.pins.trst = !trst ∧ bitAt b s.cfg.pins.srst = !srst ∧
        (∀ j : Fin 8, j ≠ s.cfg.pins.trst → j ≠ s.cfg.pins.srst → bitAt b j = false) ∧
        (trst = false → srst = false → b = pinByte s.cfg.pins false false false false)) ∧
      (s.isOpen = false → exec (.encodeRst trst srst) s = .next { s with fault := some ⟨.notOpen, .encodeRst⟩ })

/-- R75: the pin bytes under the reference map. -/
def Obligations.ReferencePinBytes : Prop :=
  (∀ tck tms tdi sreq : Bool,
      pinByte Config.referencePins tck tms tdi sreq =
        0x30 ||| BitVec.ofNat 8 (tck.toNat + 2 * tdi.toNat + 4 * sreq.toNat + 8 * tms.toNat)) ∧
    resetByte Config.referencePins false false = 0x30 ∧ resetByte Config.referencePins true false = 0x20 ∧
    resetByte Config.referencePins false true = 0x10 ∧ resetByte Config.referencePins true true = 0x00

/-- R95, R96, R97, R155: the queries return the count, emptiness and fullness of the named buffer and write nothing;
without a session they raise NotOpen. -/
def Obligations.QueriesReturnTheCounts : Prop :=
  (opCode .qAvail = 0x05 ∧ opCode .qEmpty = 0x06 ∧ opCode .qFull = 0x07 ∧ opCode .adpAvail = 0x24) ∧
    ∀ s : State, s.fault = none →
    (s.isOpen = true →
      (exec (.qAvail .tx) s = .next { s with ret := .nat s.tx.length } ∧
        exec (.qAvail .rx) s = .next { s with ret := .nat s.rx.length } ∧
        exec .adpAvail s = .next { s with ret := .nat s.rx.length }) ∧
      (exec (.qEmpty .tx) s = .next { s with ret := .bit (decide (s.tx.length = 0)) } ∧
        exec (.qEmpty .rx) s = .next { s with ret := .bit (decide (s.rx.length = 0)) }) ∧
      (exec (.qFull .tx) s = .next { s with ret := .bit (decide (s.tx.length = s.cfg.txCap)) } ∧
        exec (.qFull .rx) s = .next { s with ret := .bit (decide (s.rx.length = s.cfg.rxCap)) })) ∧
    (s.isOpen = false → ∀ buf : Buf,
      exec (.qAvail buf) s = .next { s with fault := some ⟨.notOpen, .qAvail⟩ } ∧
        exec .adpAvail s = .next { s with fault := some ⟨.notOpen, .qAvail⟩ } ∧
        exec (.qEmpty buf) s = .next { s with fault := some ⟨.notOpen, .qEmpty⟩ } ∧
        exec (.qFull buf) s = .next { s with fault := some ⟨.notOpen, .qFull⟩ })

/-- R108, R156: a read returns and removes the oldest byte of `rx`, or returns -1 and changes nothing; without a session
it raises NotOpen. -/
def Obligations.ReadTakesTheOldestSample : Prop :=
  (opCode .rxRead = 0x09 ∧ opCode .adpRead = 0x25) ∧
    ∀ (i : Instr) (s : State), (i = .rxRead ∨ i = .adpRead) → s.fault = none →
    (s.isOpen = true → s.rx = [] → exec i s = .next { s with ret := .int (-1) }) ∧
      (∀ (v : Byte) (rest : List Byte), s.isOpen = true → s.rx = v :: rest →
        exec i s = .next { s with rx := rest, ret := .int v.toNat }) ∧
      (s.isOpen = false → exec i s = .next { s with fault := some ⟨.notOpen, .rxRead⟩ })

/-- R92, every case of ENQ: with room it appends; at a full buffer it drops and logs, or flushes first and appends
to the emptied buffer whatever the flush's status was, where the flush raised no fault. -/
def Obligations.EnqAppendsFlushesOrDrops : Prop :=
  opCode .enq = 0x02 ∧
    ∀ (b : Byte) (s : State), s.fault = none →
    (s.isOpen = false → exec (.enq b) s = .next { s with fault := some ⟨.notOpen, .enq⟩ }) ∧
      (s.isOpen = true → s.tx.length ≠ s.cfg.txCap →
        exec (.enq b) s = .next { s with tx := s.tx ++ [b], ret := .status .ok }) ∧
      (s.isOpen = true → s.tx.length = s.cfg.txCap → s.cfg.policy = .dropAndLog →
        exec (.enq b) s =
          .next { s with events := s.events ++ [.log (.wOverflow b) .enq], ret := .status .fail }) ∧
      (s.isOpen = true → s.tx.length = s.cfg.txCap → s.cfg.policy = .flushOnFull → ∀ t : State, exec .flush s = .next t →
        (t.fault = none → exec (.enq b) s = .next { t with tx := [b], ret := .status .ok }) ∧
          (t.fault ≠ none → exec (.enq b) s = .next t))

/-- ENQ, PULSE, IDLE, ADP_EMIT and ADP_ASSERT_RESET run to their end from a ready session with room for the samples they
request, append exactly their bytes (R92, R93, R94, R151, R154), change nothing else of the session, and return OK where
the policy flushes or the bytes fit. Under the drop policy, from any open session, they append the bytes that fit, log
each byte dropped, and return OK only where none was: PULSE's status is FAIL unless both its appends are OK (R92, R93,
R185, R189). -/
def Obligations.AppendsRunToTheEnd : Prop :=
  ∀ (i : Instr) (bytes : List Byte) (s : State), appends s.cfg.pins i = some bytes →
    (ReadyFor (sampleCount s.cfg.pins bytes) s →
      ∃ t, exec i s = .next t ∧ Emits bytes s t ∧ t.tapCur = s.tapCur ∧
        (s.cfg.policy = .flushOnFull ∨ s.tx.length + bytes.length ≤ s.cfg.txCap → t.ret = .status .ok)) ∧
    ∀ room : Nat, s.fault = none → s.isOpen = true → s.cfg.policy = .dropAndLog → s.tx.length + room = s.cfg.txCap →
      exec i s =
        .next { s with tx := s.tx ++ bytes.take room,
                       events := s.events ++ (bytes.drop room).map fun b => .log (.wOverflow b) .enq,
                       ret := .status (if bytes.length ≤ room then .ok else .fail) }

/-- R74's ADP_CLOCK is PULSE: its two ADP_EMITs leave the state the pulse leaves, but for the returned status: the pulse's
is OK where both emits' are, else FAIL (R93). Where an emit raises a fault, the pulse raises the same and returns
nothing. -/
def Obligations.AdapterClockIsPulse : Prop :=
  ∀ (tms tdi sreq : Bool) (s t : State), s.isOpen = true → s.fault = none →
    runInstrs (Pseudo.expand (tapIdle s.cfg.tap) (.adpClock tms tdi sreq)) s = .next t →
      (t.fault = none → ∃ s1 s2 : Status,
        returnsOf (Pseudo.expand (tapIdle s.cfg.tap) (.adpClock tms tdi sreq)) s = [.status s1, .status s2] ∧
          exec (.pulse tms tdi sreq) s =
            .next { t with ret := .status (if s1 = .ok ∧ s2 = .ok then .ok else .fail) }) ∧
        (t.fault ≠ none → exec (.pulse tms tdi sreq) s = .next { t with ret := s.ret })

/-! ### Transport -/

/-- R101: with a listed reply at hand (log 3), the iterations the model's Device can make are exactly those R101 admits, with
R101's effect on the histories, whatever the answer listed; a listed hang is no iteration. With none listed, the draw is
one that R101 admits, and one that makes progress: that a draw makes progress is the model's choice (log 4). -/
def Obligations.AnswersAreTheAdmissibleOnes : Prop :=
  (∀ (f : FlushState) (s : State) (rest : List DevReply) (it : Iteration), f.rpos ≤ f.wpos →
    (Admissible f (writeRequest s.cfg.frame f) (readRequest s.cfg.frame f) it ↔
      ∃ a : DevAnswer, devIter f { s with ext := { s.ext with replies := .answers a :: rest } } =
        some (it, { s with wireOut := s.wireOut ++ it.wrote, wireIn := s.wireIn ++ it.data,
                           ext := { s.ext with replies := rest } }))) ∧
    (∀ (f : FlushState) (s : State) (rest : List DevReply), s.ext.replies = .hangs :: rest → devIter f s = none) ∧
    ∀ (f : FlushState) (s : State), s.cfg.ok = true → f.rpos ≤ f.wpos → flushBusy f = true → s.ext.replies = [] →
      ∃ it : Iteration, Admissible f (writeRequest s.cfg.frame f) (readRequest s.cfg.frame f) it ∧
        (it.w ≠ 0 ∨ it.r ≠ 0) ∧
        devIter f s =
          some (it, { s with wireOut := s.wireOut ++ it.wrote, wireIn := s.wireIn ++ it.data,
                             ext := { s.ext with drawn := s.ext.drawn + 1 } })

/-- FLUSH and ADP_FLUSH run to their end from every ready session (R102, R152): either every queued byte is written and
read back and the requested samples are appended to `rx`, or a transfer failed and both buffers are empty. Nothing else
of the session changes. -/
def Obligations.FlushRunsToTheEnd : Prop :=
  ∀ (i : Instr) (s : State), (i = .flush ∨ i = .adpFlush) → Ready s →
    ∃ (t : State) (data : List Byte) (e : Outside), exec i s = .next t ∧
      e.calls = s.ext.calls ∧ e.endWrites = s.ext.endWrites ∧ e.primitives = s.ext.primitives ∧ e.scans = s.ext.scans ∧
      e.replies <:+ s.ext.replies ∧
      ((data.length = s.tx.length ∧
          t = { s with tx := [], rx := s.rx ++ retained s.cfg s.tx data, wireOut := s.wireOut ++ s.tx,
                       wireIn := s.wireIn ++ data, ext := e, ret := .status .ok }) ∨
        ∃ (wrote : List Byte) (w r : Int), (w < 0 ∨ r < 0) ∧ wrote <+: s.tx ∧
          t = { s with tx := [], rx := [], wireOut := s.wireOut ++ wrote, wireIn := s.wireIn ++ data, ext := e,
                       events := s.events ++ [.log (.wTransport w r) .flush], ret := .status .fail })

/-- R44: after a FLUSH that returns OK, `wire_out` has grown by exactly the `tx` contents at entry, in order; after one
that returns FAIL, by a prefix of them. -/
def Obligations.FlushKeepsFifoOrder : Prop :=
  ∀ s t : State, s.cfg.ok = true → s.isOpen = true → exec .flush s = .next t → t.fault = none →
    (t.ret = .status .ok → t.wireOut = s.wireOut ++ s.tx) ∧
      (t.ret = .status .fail → ∃ p, p <+: s.tx ∧ t.wireOut = s.wireOut ++ p) ∧
      (t.ret = .status .ok ∨ t.ret = .status .fail)

/-- R112: a successful FLUSH of a `tx` with k sample requests appends exactly k bytes to `rx`, in the order of their
transmit bytes: the kept forms (R109) of the samples that the Device returned in the requesting bytes' places. The
backlog stays as it was (R31). -/
def Obligations.FlushKeepsExactlyTheRequestedSamples : Prop :=
  ∀ s t : State, s.cfg.ok = true → s.isOpen = true → exec .flush s = .next t → t.fault = none →
    t.ret = .status .ok →
      ∃ data kept, t.wireIn = s.wireIn ++ data ∧ data.length = s.tx.length ∧ t.rx = s.rx ++ kept ∧
        kept = retained s.cfg s.tx data ∧ kept.length = sampleCount s.cfg.pins s.tx ∧ backlog t = backlog s

/-- R184, R106: a FLUSH fails in the iteration, the first or a later one, whose write or read count is negative, and only
there. It records one W_TRANSPORT event with that iteration's two counts, empties both buffers, holds no transient state
and leaves the session open; what was written before and in the failing iteration stays in `wire_out`, a prefix of the
bytes queued. -/
def Obligations.FailedFlushEmptiesBothBuffers : Prop :=
  ∀ s : State, s.cfg.ok = true → s.isOpen = true → s.fault = none → s.flush = none →
    (∀ (k : Nat) (f : FlushState) (u v : State) (it : Iteration), flushRun k (flushStart s) s = some (f, u) →
      flushBusy f = true → devIter f u = some (it, v) → (it.w < 0 ∨ it.r < 0) →
        (∃ wrote, wrote <+: s.tx ∧ v.wireOut = s.wireOut ++ wrote) ∧ s.wireIn <+: v.wireIn ∧
        exec .flush s =
          .next { s with isOpen := true, tx := [], rx := [], flush := none,
                         events := s.events ++ [.log (.wTransport it.w it.r) .flush], wireOut := v.wireOut,
                         wireIn := v.wireIn, ext := v.ext, ret := .status .fail }) ∧
    ∀ t : State, exec .flush s = .next t → t.fault = none → t.ret = .status .fail →
      ∃ (k : Nat) (f : FlushState) (u v : State) (it : Iteration), flushRun k (flushStart s) s = some (f, u) ∧
        flushBusy f = true ∧ devIter f u = some (it, v) ∧ (it.w < 0 ∨ it.r < 0) ∧
        t.events = s.events ++ [.log (.wTransport it.w it.r) .flush]

/-- R191, R106: a negative count decides before any sample of that iteration is filtered. After `k` good iterations, a
listed answer (log 3) whose write fails, or whose read fails, or both, ends the FLUSH with FAIL, even where `rx` has no
room for the samples it brings; they are not kept. The one event records both counts, a negative one as the Device gave
it. -/
def Obligations.NegativeCountDecidesBeforeSamples : Prop :=
  ∀ (s u : State) (k : Nat) (f : FlushState) (a : DevAnswer) (rest : List DevReply), s.cfg.ok = true → s.isOpen = true →
    s.fault = none → flushRun k (flushStart s) s = some (f, u) → u.ext.replies = .answers a :: rest →
    (f.wpos < s.tx.length ∧ a.w < 0) ∨ (f.rpos < s.tx.length ∧ a.r < 0) →
      ∃ (w r : Int) (wrote data : List Byte), wrote <+: s.tx ∧
        (f.wpos < s.tx.length → a.w < 0 → w = a.w) ∧ (f.rpos < s.tx.length → a.r < 0 → r = a.r) ∧
        (0 ≤ a.w → 0 ≤ w) ∧ (0 ≤ a.r → 0 ≤ r) ∧
        exec .flush s =
          .next { s with tx := [], rx := [], events := s.events ++ [.log (.wTransport w r) .flush],
                         wireOut := s.wireOut ++ wrote, wireIn := s.wireIn ++ data,
                         ext := { u.ext with replies := rest }, ret := .status .fail }

/-- R104, R183: the one fault a FLUSH of an open session raises is RxOverflow. It needs more samples than `rx` has room
for; the samples appended before it stay, filling `rx`; `tx` is not cleared; the transient stays in the state (that it does,
where R15 gives it to a running FLUSH alone, is the model's reading: log 16). -/
def Obligations.OverflowKeepsWhatWasAppended : Prop :=
  ∀ (s t : State) (m : FaultMark), s.cfg.ok = true → s.isOpen = true → exec .flush s = .next t → t.fault = some m →
    m = ⟨.rxOverflow, .flush⟩ ∧ t.tx = s.tx ∧ s.rx <+: t.rx ∧ t.rx.length = s.cfg.rxCap ∧ t.events = s.events ∧
      t.flush ≠ none ∧ t.tapCur = s.tapCur ∧ s.cfg.rxCap < s.rx.length + sampleCount s.cfg.pins s.tx

/-- R107: an empty FLUSH makes no transfer and returns OK. -/
def Obligations.EmptyFlushMakesNoTransfer : Prop :=
  ∀ s : State, s.isOpen = true → s.fault = none → s.tx = [] → exec .flush s = .next { s with ret := .status .ok }

/-- A Device that makes no progress for ever makes a FLUSH of a non-empty buffer never return (R101; I14): the step is
stuck. -/
def Obligations.HangingDeviceSticksTheFlush : Prop :=
  ∀ (s : State) (rest : List DevReply), s.isOpen = true → s.fault = none → s.tx ≠ [] → s.ext.replies = .hangs :: rest →
    exec .flush s = .fault .deviceStuck

/-- "with full transfers a flush of n bytes makes ceil(n / FRAME) iterations" (R110): from a ready session whose next
listed replies are that many full transfers, a FLUSH takes exactly those and returns OK. -/
def Obligations.FullTransfersTakeOneIterationPerFrame : Prop :=
  ∀ (s : State) (a : DevAnswer) (rest : List DevReply), Ready s → (s.cfg.frame : Int) ≤ a.w → (s.cfg.frame : Int) ≤ a.r →
    s.ext.replies =
      List.replicate ((s.tx.length + s.cfg.frame - 1) / s.cfg.frame) (DevReply.answers a) ++ rest →
      ∃ t, exec .flush s = .next t ∧ t.ret = .status .ok ∧ t.wireOut = s.wireOut ++ s.tx ∧ t.ext.replies = rest

/-! ### TAP driver and commands -/

/-- R124, with R121's bytes: from a ready session, TRANSITION to a stable target by a path of at most 8 clocks runs to its
end, appends the path's pulses, least significant bit first, and one idle byte, and leaves `tap_cur` equal to the
target. With a path of length 0, which the path from a state to itself always is, the bytes are the idle byte alone
(R123). And from any state, a TRANSITION that does not fault ends with `tap_cur` equal to the target. -/
def Obligations.TransitionEndsInItsTarget : Prop :=
  (∀ (target : TapState) (s : State), Ready s → tapStable s.cfg.tap target = true →
    (tapPath s.cfg.tap s.tapCur target).count ≤ 8 →
      ∃ t, exec (.transition target) s = .next t ∧ Emits (transitionBytes s.cfg s.tapCur target) s t ∧
        t.tapCur = target ∧ t.ret = .unit ∧
        (transitionBytes s.cfg s.tapCur target).length = 2 * (tapPath s.cfg.tap s.tapCur target).count + 1 ∧
        ((tapPath s.cfg.tap s.tapCur target).count = 0 →
          transitionBytes s.cfg s.tapCur target = [pinByte s.cfg.pins false false false false]) ∧
        (s.tapCur = target → (tapPath s.cfg.tap s.tapCur target).count = 0)) ∧
    ∀ (target : TapState) (s t : State), exec (.transition target) s = .next t → t.fault = none → t.tapCur = target

/-- R121's faults, in R191's order, each before any byte is appended and before `tap_cur` is written. -/
def Obligations.TransitionFaultsBeforeAnyByte : Prop :=
  ∀ (target : TapState) (s : State), s.fault = none → s.isOpen = true →
    (tapStable s.cfg.tap target = false →
      exec (.transition target) s = .next { s with fault := some ⟨.nonStableTarget target, .transition⟩ }) ∧
      (tapStable s.cfg.tap target = true → 8 < (tapPath s.cfg.tap s.tapCur target).count →
        exec (.transition target) s =
          .next { s with
            fault := some ⟨.pathTooLong s.tapCur target (tapPath s.cfg.tap s.tapCur target).count, .transition⟩ })

/-- R130: CMD_RESET runs to its end from a ready session and appends the reset byte; a hard reset, or a soft reset
configured to imply it, forces `tap_cur` to the reset state, and does so before the byte is queued: also where the
append raised a fault. Otherwise `tap_cur` stays. -/
def Obligations.CmdResetForcesTheTapState : Prop :=
  ∀ (trst srst : Bool) (s : State),
    (Ready s → ∃ t, exec (.cmdReset trst srst) s = .next t ∧ Emits [resetByte s.cfg.pins trst srst] s t ∧
      t.tapCur = (if trst ∨ (srst ∧ s.cfg.srstPullsTrst) then tapReset s.cfg.tap else s.tapCur) ∧ t.ret = .unit) ∧
    (s.cfg.ok = true → s.isOpen = true → ∀ t, exec (.cmdReset trst srst) s = .next t →
      t.tapCur = (if trst ∨ (srst ∧ s.cfg.srstPullsTrst) then tapReset s.cfg.tap else s.tapCur)) ∧
    (s.fault = none → s.isOpen = false →
      exec (.cmdReset trst srst) s = .next { s with fault := some ⟨.notOpen, .cmdReset⟩ })

/-- R131: CMD_RUNTEST runs to its end from a ready session where the transitions it needs can be made: to TAP_IDLE where
the TAP is not there, N pulses with TMS = TDI = 0, and on to the end state where it is another. -/
def Obligations.RuntestPulsesInIdle : Prop :=
  ∀ (cycles : Nat) (endState : TapState) (s : State), Ready s →
    (s.tapCur ≠ tapIdle s.cfg.tap → tapStable s.cfg.tap (tapIdle s.cfg.tap) = true ∧
      (tapPath s.cfg.tap s.tapCur (tapIdle s.cfg.tap)).count ≤ 8) →
    (endState ≠ tapIdle s.cfg.tap → tapStable s.cfg.tap endState = true ∧
      (tapPath s.cfg.tap (tapIdle s.cfg.tap) endState).count ≤ 8) →
      ∃ t, exec (.cmdRuntest cycles endState) s = .next t ∧
        Emits
          ((if s.tapCur ≠ tapIdle s.cfg.tap then transitionBytes s.cfg s.tapCur (tapIdle s.cfg.tap) else []) ++
            clockBytes s.cfg.pins (List.replicate cycles false) ++
            (if endState ≠ tapIdle s.cfg.tap then transitionBytes s.cfg (tapIdle s.cfg.tap) endState else [])) s t ∧
        t.tapCur = endState ∧ t.ret = .unit

/-- R131: "A non-stable `end_state` faults after the N pulses have been queued": they are, and the TAP is in TAP_IDLE. -/
def Obligations.RuntestFaultsAfterItsPulses : Prop :=
  ∀ (cycles : Nat) (endState : TapState) (s : State), Ready s → s.tapCur = tapIdle s.cfg.tap →
    endState ≠ tapIdle s.cfg.tap → tapStable s.cfg.tap endState = false →
      ∃ t, exec (.cmdRuntest cycles endState) s = .next { t with fault := some ⟨.nonStableTarget endState, .transition⟩ } ∧
        Emits (clockBytes s.cfg.pins (List.replicate cycles false)) s t ∧ t.tapCur = tapIdle s.cfg.tap

/-- R132: CMD_STABLECLOCKS runs to its end from a ready session in a stable state and appends N pulses with TMS = 1 in the
reset state and 0 in every other; in a state that is not stable it raises NotStable before any byte. -/
def Obligations.StableclocksHoldTheState : Prop :=
  ∀ (cycles : Nat) (s : State),
    (Ready s → tapStable s.cfg.tap s.tapCur = true →
      ∃ t, exec (.cmdStableclocks cycles) s = .next t ∧
        Emits (clockBytes s.cfg.pins (List.replicate cycles (decide (s.tapCur = tapReset s.cfg.tap)))) s t ∧
        t.tapCur = s.tapCur ∧ t.ret = .unit) ∧
    (s.fault = none → s.isOpen = true → tapStable s.cfg.tap s.tapCur = false →
      exec (.cmdStableclocks cycles) s = .next { s with fault := some ⟨.notStable s.tapCur, .cmdStableclocks⟩ }) ∧
    (s.fault = none → s.isOpen = false →
      exec (.cmdStableclocks cycles) s = .next { s with fault := some ⟨.notOpen, .cmdStableclocks⟩ })

/-- The pseudocode of TRANSITION, CMD_RESET, CMD_RUNTEST, CMD_STABLECLOCKS, CMD_TMS and CMD_PATHMOVE (R121, R130, R131, R132,
R135, R133), from any open session: each leaves what its operations leave when they run one by one as instructions, and
then commits; and where one of them raises a fault, what they leave there, without the commit. CMD_PATHMOVE commits each
step after its own pulse: so with the pulses of the steps `before` run, it ends at the idle byte, at a fault of the next
step's pulse, which that step has not committed, or at a step that is no successor, with InvalidPathStep. -/
def Obligations.HandlersRunTheirOperations : Prop :=
  ∀ s u : State, s.cfg.ok = true → s.fault = none → s.isOpen = true →
    (∀ target : TapState, tapStable s.cfg.tap target = true → (tapPath s.cfg.tap s.tapCur target).count ≤ 8 →
      runInstrs ((pathBits (tapPath s.cfg.tap s.tapCur target)).map clock ++ [.idle]) s = .next u →
        exec (.transition target) s = .next (finish s u fun v => { v with tapCur := target })) ∧
    (∀ trst srst : Bool,
      runInstrs [.enq (resetByte s.cfg.pins trst srst)]
          (if trst ∨ (srst ∧ s.cfg.srstPullsTrst) then { s with tapCur := tapReset s.cfg.tap } else s) = .next u →
        exec (.cmdReset trst srst) s = .next (finish s u id)) ∧
    (∀ (cycles : Nat) (endState : TapState),
      runInstrs
          ((if s.tapCur ≠ tapIdle s.cfg.tap then [.transition (tapIdle s.cfg.tap)] else []) ++
            List.replicate cycles (clock false) ++ (if endState ≠ tapIdle s.cfg.tap then [.transition endState] else []))
          s = .next u →
        exec (.cmdRuntest cycles endState) s = .next (finish s u id)) ∧
    (∀ cycles : Nat, tapStable s.cfg.tap s.tapCur = true →
      runInstrs (List.replicate cycles (clock (decide (s.tapCur = tapReset s.cfg.tap)))) s = .next u →
        exec (.cmdStableclocks cycles) s = .next (finish s u id)) ∧
    (∀ (nbits : Nat) (bits : List Byte), (nbits + 7) / 8 ≤ bits.length →
      runInstrs ((List.range nbits).map fun i => clock ((bits.getD (i / 8) 0).getLsbD (i % 8))) s = .next u →
        exec (.cmdTms nbits bits) s = .next (finish s u fun v => { v with tapCur := v.tapEnd })) ∧
    ∀ (before : List TapState) (bits : List Bool), pathTms s.cfg.tap s.tapCur before = some bits →
      runInstrs (bits.map clock) s = .next u → u.fault = none →
        (∀ v, exec .idle u = .next v →
          exec (.cmdPathmove before) s = .next (finish s { v with tapCur := before.getLastD s.tapCur } id)) ∧
        (∀ (target : TapState) (tms : Bool) (after : List TapState) (v : State),
          pathTms s.cfg.tap (before.getLastD s.tapCur) [target] = some [tms] → exec (clock tms) u = .next v →
          v.fault ≠ none →
            exec (.cmdPathmove (before ++ target :: after)) s =
              .next { v with tapCur := before.getLastD s.tapCur, ret := s.ret }) ∧
        ∀ (bad : TapState) (after : List TapState), pathTms s.cfg.tap (before.getLastD s.tapCur) [bad] = none →
          exec (.cmdPathmove (before ++ bad :: after)) s =
            .next { u with
              tapCur := before.getLastD s.tapCur, ret := s.ret,
              fault := some ⟨.invalidPathStep (before.getLastD s.tapCur) bad before.length, .cmdPathmove⟩ }

/-- R133: CMD_PATHMOVE along a path of successors runs to its end from a ready session: one pulse per step with the TMS
value of that step, then the idle byte, and `tap_cur` is the last state of the path. -/
def Obligations.PathmoveFollowsThePath : Prop :=
  ∀ (path : List TapState) (bits : List Bool) (s : State), Ready s → pathTms s.cfg.tap s.tapCur path = some bits →
    ∃ t, exec (.cmdPathmove path) s = .next t ∧ Emits (clockBytes s.cfg.pins bits ++ [idleByte s.cfg.pins]) s t ∧
      t.tapCur = path.getLastD s.tapCur ∧ t.ret = .unit

/-- R133: a step that is neither successor raises InvalidPathStep after the pulses and commits of the steps before it and
before anything of its own. -/
def Obligations.InvalidPathStepKeepsEarlierSteps : Prop :=
  ∀ (before after : List TapState) (bad : TapState) (bits : List Bool) (s : State), Ready s →
    pathTms s.cfg.tap s.tapCur before = some bits →
    tapSucc s.cfg.tap (before.getLastD s.tapCur) false ≠ bad → tapSucc s.cfg.tap (before.getLastD s.tapCur) true ≠ bad →
      ∃ t, exec (.cmdPathmove (before ++ bad :: after)) s =
          .next { t with
            fault := some ⟨.invalidPathStep (before.getLastD s.tapCur) bad before.length, .cmdPathmove⟩ } ∧
        Emits (clockBytes s.cfg.pins bits) s t ∧ t.tapCur = before.getLastD s.tapCur

/-- R135: CMD_TMS runs to its end from every ready session: one pulse per bit of the array, bit i being bit i mod 8 of byte
i div 8, no idle byte, and then `tap_cur` is the desired end state, which stays. -/
def Obligations.TmsClocksTheArray : Prop :=
  ∀ (nbits : Nat) (bits : List Byte) (s : State), Ready s → (nbits + 7) / 8 ≤ bits.length →
    ∃ (t : State) (values : List Bool), exec (.cmdTms nbits bits) s = .next t ∧ values.length = nbits ∧
      (∀ (i : Nat) (b : Byte), i < nbits → bits[i / 8]? = some b → values[i]? = some (b.getLsbD (i % 8))) ∧
      Emits (clockBytes s.cfg.pins values) s t ∧ t.tapCur = s.tapEnd ∧ t.ret = .unit

/-- R136, R153: CMD_SLEEP and ADP_DELAY are a FLUSH whose status is ignored and then one Delay event; where the FLUSH
raises a fault there is no delay; from a ready session they run to their end; without a session they raise NotOpen. -/
def Obligations.SleepFlushesThenDelays : Prop :=
  (opCode .cmdSleep = 0x15 ∧ opCode .adpDelay = 0x22) ∧
    ∀ (us : Nat) (i : Instr) (s : State), (i = .cmdSleep us ∨ i = .adpDelay us) →
    (s.isOpen = true → ∀ u, exec .flush s = .next u →
      (u.fault = none → exec i s = .next { u with events := u.events ++ [.delay us], ret := .unit }) ∧
        (u.fault ≠ none → exec i s = .next u)) ∧
    (Ready s → ∃ t, exec i s = .next t ∧ t.fault = none ∧ t.tx = [] ∧ t.events.getLast? = some (.delay us)) ∧
    (s.fault = none → s.isOpen = false → exec i s = .next { s with fault := some ⟨.notOpen, .cmdSleep⟩ })

/-- R211: a reset followed directly by a sleep whose flush succeeds is held over the delay: the reset byte is the last
byte on the lines (the latch itself is R31's general knowledge, log 17). -/
def Obligations.ResetIsHeldAcrossASleep : Prop :=
  ∀ (trst srst : Bool) (us : Nat) (s t : State), Ready s →
    runInstrs [.cmdReset trst srst, .cmdSleep us] s = .next t → t.events = s.events ++ [.delay us] →
      lineLatch t = some (resetByte s.cfg.pins trst srst)

/-- R137: a scan runs the ScanLayer's adapter operations, each by its own rule and in order, as they would run as
instructions; their results go to the ScanLayer; then `tap_cur` is the state the ScanLayer leaves. With no scan listed,
what the ScanLayer does is a draw (log 6): the operation is what it is with the drawn scan listed. -/
def Obligations.ScanRunsTheAdapterOperations : Prop :=
  (∀ (payload : List Byte) (run : ScanRun) (rest : List ScanReply) (s u : State), s.cfg.ok = true → s.fault = none →
    s.isOpen = true → s.ext.scans = .returns run :: rest →
    runInstrs (run.ops.map adpInstr) { s with scanReturns := [], ext := { s.ext with scans := rest } } = .next u →
      (u.fault = none → exec (.cmdScan payload) s =
        .next { u with tapCur := s.cfg.tap.norm run.leaves, ret := .unit,
                       scanReturns := returnsOf (run.ops.map adpInstr)
                         { s with scanReturns := [], ext := { s.ext with scans := rest } } }) ∧
      (u.fault ≠ none → exec (.cmdScan payload) s =
        .next { u with ret := s.ret,
                       scanReturns := returnsOf (run.ops.map adpInstr)
                         { s with scanReturns := [], ext := { s.ext with scans := rest } } })) ∧
    ∀ (payload : List Byte) (s : State), s.fault = none → s.isOpen = true → s.ext.scans = [] →
      exec (.cmdScan payload) s =
        exec (.cmdScan payload)
          { s with ext := { s.ext with scans := [Config.scanReply payload s.ext.drawn], drawn := s.ext.drawn + 1 } }

/-- R137: from a ready session with room for the samples the ScanLayer's next scan requests, CMD_SCAN runs to its end with
a result for each operation. A ScanLayer that never returns makes it stuck. The same holds of a drawn scan, by whichever
of the two the draw is (log 6): from a ready session it does one or the other, or overflows the receive buffer. -/
def Obligations.ScanRunsToTheEnd : Prop :=
  (∀ (payload : List Byte) (run : ScanRun) (rest : List ScanReply) (s : State), s.ext.scans = .returns run :: rest →
      ReadyFor (scanSamples run.ops) s →
        ∃ t, exec (.cmdScan payload) s = .next t ∧ t.fault = none ∧ t.tapCur = s.cfg.tap.norm run.leaves ∧
          t.scanReturns.length = run.ops.length ∧ t.cfg = s.cfg ∧ t.isOpen = true ∧ t.speedKhz = s.speedKhz ∧
          t.latency = s.latency ∧ t.tapEnd = s.tapEnd ∧ t.devCalls = s.devCalls ∧ t.ext.scans = rest ∧ t.ret = .unit) ∧
    (∀ (payload : List Byte) (rest : List ScanReply) (s : State), s.fault = none → s.isOpen = true →
      s.ext.scans = .hangs :: rest → exec (.cmdScan payload) s = .fault .scanStuck) ∧
    ∀ (payload : List Byte) (s : State), s.ext.scans = [] → Ready s →
      exec (.cmdScan payload) s = .fault .scanStuck ∨
        ∃ t, exec (.cmdScan payload) s = .next t ∧ t.cfg = s.cfg ∧ t.isOpen = true ∧ t.speedKhz = s.speedKhz ∧
          t.latency = s.latency ∧ t.tapEnd = s.tapEnd ∧ t.devCalls = s.devCalls ∧ t.ext.scans = [] ∧
          ((t.fault = none ∧ t.ret = .unit) ∨ t.fault = some ⟨.rxOverflow, .flush⟩)

/-! ### Host -/

/-- R162, R188 by the Device's listed results: OPEN of a closed session calls claim, mode, latency and clock in that order;
with four OKs the session is open; at the first FAIL the device is released if it was claimed, E_OPEN is recorded with
the step, and the session stays closed; the buffers are empty either way. OPEN of an open session raises AlreadyOpen. -/
def Obligations.OpenConfiguresInOrder : Prop :=
  opCode .openSession = 0x30 ∧
    ∀ (s : State) (rest : List Bool), s.fault = none →
    (s.isOpen = true → exec .openSession s = .next { s with fault := some ⟨.alreadyOpen, .openSession⟩ }) ∧
    (s.isOpen = false → s.ext.primitives = true :: true :: true :: true :: rest →
      exec .openSession s =
        .next { s with isOpen := true, tx := [], rx := [], ext := { s.ext with primitives := rest }, ret := .status .ok,
                       devCalls := s.devCalls ++ [.claim s.cfg.devVid s.cfg.devPid, .setBitbang s.cfg.outputMask,
                         .setLatency s.latency, .setClock s.speedKhz] }) ∧
    (s.isOpen = false → s.ext.primitives = false :: rest →
      exec .openSession s =
        .next { s with tx := [], rx := [], ext := { s.ext with primitives := rest }, ret := .status .fail,
                       events := s.events ++ [.log (.eOpen .claim) .openSession],
                       devCalls := s.devCalls ++ [.claim s.cfg.devVid s.cfg.devPid] }) ∧
    (s.isOpen = false → s.ext.primitives = true :: false :: rest →
      exec .openSession s =
        .next { s with tx := [], rx := [], ext := { s.ext with primitives := rest }, ret := .status .fail,
                       events := s.events ++ [.log (.eOpen .mode) .openSession],
                       devCalls := s.devCalls ++ [.claim s.cfg.devVid s.cfg.devPid, .setBitbang s.cfg.outputMask,
                         .release] }) ∧
    (s.isOpen = false → s.ext.primitives = true :: true :: false :: rest →
      exec .openSession s =
        .next { s with tx := [], rx := [], ext := { s.ext with primitives := rest }, ret := .status .fail,
                       events := s.events ++ [.log (.eOpen .latency) .openSession],
                       devCalls := s.devCalls ++ [.claim s.cfg.devVid s.cfg.devPid, .setBitbang s.cfg.outputMask,
                         .setLatency s.latency, .release] }) ∧
    (s.isOpen = false → s.ext.primitives = true :: true :: true :: false :: rest →
      exec .openSession s =
        .next { s with tx := [], rx := [], ext := { s.ext with primitives := rest }, ret := .status .fail,
                       events := s.events ++ [.log (.eOpen .clock) .openSession],
                       devCalls := s.devCalls ++ [.claim s.cfg.devVid s.cfg.devPid, .setBitbang s.cfg.outputMask,
                         .setLatency s.latency, .setClock s.speedKhz, .release] })

/-- Whatever the Device answers, OPEN of a closed session runs to its end with empty buffers: open with OK and no event, or
closed with FAIL and one E_OPEN event (R162, R201, R202); OPEN of an open session raises AlreadyOpen and changes nothing
else. -/
def Obligations.OpenAlwaysAnswers : Prop :=
  ∀ s : State, s.fault = none →
    (s.isOpen = false →
      ∃ t, exec .openSession s = .next t ∧ t.fault = none ∧ t.tx = [] ∧ t.rx = [] ∧ t.tapCur = s.tapCur ∧
        t.wireOut = s.wireOut ∧ t.wireIn = s.wireIn ∧ t.speedKhz = s.speedKhz ∧ t.latency = s.latency ∧
        ((t.isOpen = true ∧ t.ret = .status .ok ∧ t.events = s.events) ∨
          (t.isOpen = false ∧ t.ret = .status .fail ∧
            ∃ step, t.events = s.events ++ [.log (.eOpen step) .openSession]))) ∧
    (s.isOpen = true → exec .openSession s = .next { s with fault := some ⟨.alreadyOpen, .openSession⟩ })

/-- R163: CLOSE releases the device and clears `is_open`, and is idempotent; it writes nothing else, pending bytes
included. -/
def Obligations.CloseReleasesAndIsIdempotent : Prop :=
  opCode .closeSession = 0x31 ∧
    ∀ s : State, s.fault = none →
    (s.isOpen = true →
      exec .closeSession s =
        .next { s with isOpen := false, devCalls := s.devCalls ++ [.release], ret := .status .ok }) ∧
    (s.isOpen = false → exec .closeSession s = .next { s with ret := .status .ok })

/-- R164: SET_SPEED of 0 raises BadSpeed; with the session closed the value is stored; with it open the Device is
programmed first, and the value is stored only where it took it. -/
def Obligations.SetSpeedProgramsTheDevice : Prop :=
  opCode .setSpeed = 0x32 ∧
    ∀ (khz : Nat) (s : State), s.fault = none →
    (khz = 0 → exec (.setSpeed khz) s = .next { s with fault := some ⟨.badSpeed 0, .setSpeed⟩ }) ∧
    (1 ≤ khz → s.isOpen = false → exec (.setSpeed khz) s = .next { s with speedKhz := khz, ret := .status .ok }) ∧
    (1 ≤ khz → s.isOpen = true →
      (∀ rest, s.ext.primitives = true :: rest →
        exec (.setSpeed khz) s =
          .next { s with speedKhz := khz, devCalls := s.devCalls ++ [.setClock khz],
                         ext := { s.ext with primitives := rest }, ret := .status .ok }) ∧
      (∀ rest, s.ext.primitives = false :: rest →
        exec (.setSpeed khz) s =
          .next { s with devCalls := s.devCalls ++ [.setClock khz], ext := { s.ext with primitives := rest },
                         ret := .status .fail }) ∧
      ∃ t, exec (.setSpeed khz) s = .next t ∧ t.fault = none ∧
        ((t.ret = .status .ok ∧ t.speedKhz = khz) ∨ (t.ret = .status .fail ∧ t.speedKhz = s.speedKhz)))

/-- R165, R166: the speed conversions. SPEED_TO_KHZ is the identity on every natural; KHZ_TO_SPEED of 0 fails distinctly
and is logged, of n > 0 succeeds and yields n, of a negative value raises BadSpeed. No session is needed. -/
def Obligations.SpeedConversions : Prop :=
  (opCode .speedToKhz = 0x33 ∧ opCode .khzToSpeed = 0x34) ∧
    ∀ s : State, s.fault = none →
    (∀ speed : Nat, exec (.speedToKhz speed) s = .next { s with ret := .nat speed }) ∧
    (∀ n : Nat, 0 < n → exec (.khzToSpeed n) s = .next { s with ret := .speed .ok (some n) }) ∧
    exec (.khzToSpeed 0) s =
      .next { s with events := s.events ++ [.log (.eCapability 0) .khzToSpeed], ret := .speed .failCapability none } ∧
    ∀ n : Int, n < 0 → exec (.khzToSpeed n) s = .next { s with fault := some ⟨.badSpeed n, .khzToSpeed⟩ }

/-- R167: SET_LATENCY stores one decimal integer in 0..255; any other argument list is logged and is a no-op; every path
returns OK. No session is needed. What reads as an integer is log 12, what an event records of a bad value log 13. -/
def Obligations.SetLatencyTakesOneSmallInteger : Prop :=
  opCode .setLatency = 0x35 ∧
    ∀ (args : List ArgString) (s : State), s.fault = none →
    (∀ (arg : ArgString) (v : Nat), args = [arg] → parseInt arg = some (v : Int) → v ≤ 255 →
      exec (.setLatency args) s = .next { s with latency := v, ret := .status .ok }) ∧
    (∀ arg : ArgString, args = [arg] → (∀ v : Nat, parseInt arg = some (v : Int) → 255 < v) →
      exec (.setLatency args) s =
        .next { s with events := s.events ++ [.log (.eConfigValue arg) .setLatency], ret := .status .ok }) ∧
    (args.length ≠ 1 →
      exec (.setLatency args) s =
        .next { s with events := s.events ++ [.log (.eConfigCount args.length) .setLatency], ret := .status .ok })

/-- What "decimal integer" of R167 reads: a non-empty string of decimal digits is its value, with a minus sign before it
the negative value, and a string with any other character is no integer. The sign and what else is no integer are the
model's choice (log 12). -/
def Obligations.DecimalArgumentsRead : Prop :=
  (∀ digits : List Nat, digits ≠ [] → (∀ d ∈ digits, d < 10) →
      parseInt (digits.map digitChar) = some ((Nat.ofDigits 10 digits.reverse : Nat) : Int) ∧
        parseInt (45 :: digits.map digitChar) = some (-((Nat.ofDigits 10 digits.reverse : Nat) : Int))) ∧
    (∀ (before after : List Byte) (ch : Byte), (ch.toNat < 48 ∨ 57 < ch.toNat) → (before ≠ [] ∨ ch ≠ 45) →
      parseInt (before ++ ch :: after) = none) ∧
    parseInt [] = none ∧ parseInt [45] = none

/-- R169, R138: EXECUTE runs its commands in order, each as it runs as an instruction, and then one closing FLUSH, whose
status it returns; a fault in the closing flush leaves the queue index at the end of the queue (log 16). -/
def Obligations.ExecuteIsItsCommandsThenAFlush : Prop :=
  ∀ (queue : List Command) (s u t : State), s.fault = none → s.isOpen = true →
    runInstrs (queue.map Command.toInstr) s = .next u → u.fault = none → exec .flush u = .next t →
      (t.fault = none → exec (.execute queue) s = .next { t with qi := none }) ∧
        (t.fault ≠ none → exec (.execute queue) s = .next { t with qi := some queue.length, ret := s.ret })

/-- R183, R169: a fault a command raises ends EXECUTE there: neither the rest of the queue nor the closing flush runs, the
state is what the steps before the raise wrote, and the queue index stands at the command (log 16). -/
def Obligations.FaultEndsExecute : Prop :=
  ∀ (before after : List Command) (c : Command) (s u t : State), s.fault = none → s.isOpen = true →
    runInstrs (before.map Command.toInstr) s = .next u → u.fault = none → exec c.toInstr u = .next t → t.fault ≠ none →
      exec (.execute (before ++ c :: after)) s = .next { t with qi := some before.length, ret := s.ret }

/-- R169: from a ready session, EXECUTE of commands that no state makes fault runs to its end: the transmit buffer is empty
after the closing flush, whose status it returns, and the session's other registers stay. -/
def Obligations.ExecuteRunsToTheEnd : Prop :=
  ∀ (queue : List Command) (s : State), Ready s → IdleReachable s.cfg.tap → (∀ c ∈ queue, neverFaults s.cfg.tap c) →
    ∃ t, exec (.execute queue) s = .next t ∧ t.fault = none ∧ t.tx = [] ∧ t.qi = none ∧ t.cfg = s.cfg ∧ t.isOpen = true ∧
      t.speedKhz = s.speedKhz ∧ t.latency = s.latency ∧ t.tapEnd = s.tapEnd ∧ t.devCalls = s.devCalls ∧
      t.scanReturns = s.scanReturns ∧ s.wireOut <+: t.wireOut ∧ s.wireIn <+: t.wireIn ∧ s.events <+: t.events ∧
      (t.ret = .status .ok ∨ t.ret = .status .fail)
end

