-- ==== Sys2Proof/Laws/Asm.lean ====
section
/-! SUPPORT. What a line of assembly assembles to (spec/30_encoding.md R73, R74), from its tokens and operands: each
hypothesis is a closed fact that evaluates, while the state TAP_IDLE stays a variable. -/

namespace Sys2Proof.Laws

open Sys2Proof Sys2Proof.Machine

/-- A text of one line that is not the head of a queue assembles to that line's operations. -/
theorem assemble_line {text : List Char} {line : List Token} (ht : tokens (.word []) text = some line)
    (hl : linesOf line = [line]) (hne : line ≠ []) (hx : line ≠ [.word "EXECUTE".toList, .queueOpen]) (names : List String)
    (idleState : TapState) : assemble names idleState text = lineOps names idleState line := by
  obtain ⟨t, ts, rfl⟩ := List.exists_cons_of_ne_nil hne
  simp only [assemble, ht, Option.bind_some, hl, programOps, if_neg hx]
  cases lineOps names idleState (t :: ts) with
  | none => rfl
  | some is => simp

/-- A line of a pseudo-operation is its expansion (R74). -/
theorem lineOps_pseudo {cs : List Char} {ts : List Token} {os : List Operand} {p : Pseudo} (ho : operands ts = some os)
    (hn : (allOps.find? fun op => decide ((mnemonic op).toList = cs)) = none) (hp : pseudo cs os = some p)
    (names : List String) (idleState : TapState) :
    lineOps names idleState (.word cs :: ts) = some (p.expand idleState) := by
  simp only [lineOps, ho, Option.bind_some, hn, hp, Option.map_some]

/-- A text of one pseudo-operation assembles to its expansion (R74). -/
theorem assemble_pseudo {text : List Char} {cs : List Char} {ts : List Token} {os : List Operand} {p : Pseudo}
    (ht : tokens (.word []) text = some (.word cs :: ts)) (hl : linesOf (.word cs :: ts) = [.word cs :: ts])
    (hx : .word cs :: ts ≠ [.word "EXECUTE".toList, .queueOpen]) (ho : operands ts = some os)
    (hn : (allOps.find? fun op => decide ((mnemonic op).toList = cs)) = none) (hp : pseudo cs os = some p)
    (names : List String) (idleState : TapState) : assemble names idleState text = some (p.expand idleState) := by
  rw [assemble_line ht hl (by simp) hx, lineOps_pseudo ho hn hp]

end Sys2Proof.Laws
end

