-- ==== Sys2Proof/Laws/Codec.lean ====
section
/-! SUPPORT. The readers and writers of operands agree (Sys2Proof/Decode.lean): for each operand form, reading what was
written gives it back (`Reads`), and what is read was written so (`Exact`). -/

namespace Sys2Proof.Laws

open Sys2Proof

/-- Reading after `put` gives the value and the bytes after it. -/
def Reads {α : Type} (p : Parse α) (put : α → List Byte) : Prop :=
  ∀ (a : α) (rest : List Byte), p (put a ++ rest) = .ok (a, rest)

/-- What is read is what `put` writes. -/
def Exact {α : Type} (p : Parse α) (put : α → List Byte) : Prop :=
  ∀ (bytes rest : List Byte) (a : α), p bytes = .ok (a, rest) → bytes = put a ++ rest

theorem andThen_ok {α β : Type} {p : Parse α} {f : α → Parse β} {bytes rest : List Byte} {a : α}
    (h : p bytes = .ok (a, rest)) : andThen p f bytes = f a rest := by simp [andThen, h]

theorem andThen_error {α β : Type} {p : Parse α} {f : α → Parse β} {bytes : List Byte} {e : DecodeError}
    (h : p bytes = .error e) : andThen p f bytes = .error e := by simp [andThen, h]

/-- What two readers in a row can answer. -/
theorem andThen_eq_ok {α β : Type} {p : Parse α} {f : α → Parse β} {bytes rest : List Byte} {b : β}
    (h : andThen p f bytes = .ok (b, rest)) : ∃ a mid, p bytes = .ok (a, mid) ∧ f a mid = .ok (b, rest) := by
  unfold andThen at h
  split at h
  · rename_i a mid heq; exact ⟨a, mid, heq, h⟩
  · cases h

theorem give_eq_ok {α : Type} {a b : α} {bytes rest : List Byte} (h : give a bytes = .ok (b, rest)) :
    a = b ∧ bytes = rest := by
  simp only [give, Except.ok.injEq, Prod.mk.injEq] at h; exact h

@[simp] theorem give_ok {α : Type} (a : α) (bytes : List Byte) : give a bytes = .ok (a, bytes) := rfl

/-! ### Bytes, bits, buffers -/

theorem reads_byte : Reads takeByte fun b => [b] := fun _ _ => rfl

theorem exact_byte : Exact takeByte fun b => [b] := by
  intro bytes rest a h
  cases bytes with
  | nil => cases h
  | cons b bs => simp only [takeByte, Except.ok.injEq, Prod.mk.injEq] at h; simp [h.1, h.2]

theorem reads_bit : Reads takeBit putBit := by
  intro v rest; cases v <;> simp [takeBit, putBit]

theorem exact_bit : Exact takeBit putBit := by
  intro bytes rest v h
  cases bytes with
  | nil => cases h
  | cons b bs =>
    simp only [takeBit] at h
    by_cases h0 : b = 0
    · rw [if_pos h0] at h
      cases h; simp [h0, putBit]
    · rw [if_neg h0] at h
      by_cases h1 : b = 1
      · rw [if_pos h1] at h
        cases h; simp [h1, putBit]
      · rw [if_neg h1] at h; cases h

theorem reads_buf : Reads takeBuf putBuf := by
  intro v rest; cases v <;> simp [takeBuf, putBuf]

theorem exact_buf : Exact takeBuf putBuf := by
  intro bytes rest v h
  cases bytes with
  | nil => cases h
  | cons b bs =>
    simp only [takeBuf] at h
    by_cases h0 : b = 0
    · rw [if_pos h0] at h
      cases h; simp [h0, putBuf]
    · rw [if_neg h0] at h
      by_cases h1 : b = 1
      · rw [if_pos h1] at h
        cases h; simp [h1, putBuf]
      · rw [if_neg h1] at h; cases h

/-! ### Naturals and integers -/

theorem toNat_ofNat_small {n : Nat} (h : n < 256) : (BitVec.ofNat 8 n).toNat = n := by
  simp [BitVec.toNat_ofNat]; omega

theorem takeNat_digits : ∀ (fuel n : Nat) (rest : List Byte), n ≤ fuel →
    takeNat (putNatDigits fuel n ++ rest) = .ok (n, rest)
  | 0, n, rest, h => by
    have : n = 0 := by omega
    subst this
    simp [putNatDigits, takeNat]
  | fuel + 1, n, rest, h => by
    unfold putNatDigits
    by_cases hn : n < 128
    · have hb := toNat_ofNat_small (n := n) (by omega)
      simp only [hn, if_true, List.cons_append, List.nil_append, takeNat, hb]
    · have hb := toNat_ofNat_small (n := n % 128 + 128) (by omega)
      have ih := takeNat_digits fuel (n / 128) rest (by omega)
      obtain ⟨m, hm⟩ : ∃ m, n / 128 = m + 1 := ⟨n / 128 - 1, by omega⟩
      simp only [hn, if_false, List.cons_append, takeNat, hb, ih]
      rw [if_neg (by omega), hm]
      simp only [Except.ok.injEq, Prod.mk.injEq, and_true]
      omega

theorem reads_nat : Reads takeNat putNat := fun n rest => takeNat_digits n n rest (Nat.le_refl n)

/-- More fuel than the value writes the same digits. -/
theorem putNatDigits_eq : ∀ (fuel n : Nat), n ≤ fuel → putNatDigits fuel n = putNat n := by
  intro fuel
  induction fuel using Nat.strongRecOn with
  | ind fuel ih =>
    intro n h
    cases fuel with
    | zero =>
      have : n = 0 := by omega
      subst this; rfl
    | succ f =>
      cases n with
      | zero => simp [putNatDigits, putNat]
      | succ n =>
        unfold putNat
        simp only [putNatDigits]
        split
        · rfl
        · congr 1
          rw [ih f (by omega) ((n + 1) / 128) (by omega)]
          by_cases hnf : n = f
          · subst hnf; rw [ih n (by omega) ((n + 1) / 128) (by omega)]
          · rw [ih n (by omega) ((n + 1) / 128) (by omega)]

theorem putNat_small {n : Nat} (h : n < 128) : putNat n = [BitVec.ofNat 8 n] := by
  cases n with
  | zero => rfl
  | succ n => simp [putNat, putNatDigits, h]

theorem putNat_large {n : Nat} (h : ¬ n < 128) : putNat n = BitVec.ofNat 8 (n % 128 + 128) :: putNat (n / 128) := by
  cases n with
  | zero => omega
  | succ n =>
    rw [putNat, putNatDigits, if_neg h, putNatDigits_eq n ((n + 1) / 128) (by omega)]

theorem exact_nat : Exact takeNat putNat := by
  intro bytes
  induction bytes with
  | nil => intro rest n h; cases h
  | cons b bs ih =>
    intro rest n h
    unfold takeNat at h
    have hb : b.toNat < 256 := b.isLt
    split at h
    · rename_i hlt
      simp only [Except.ok.injEq, Prod.mk.injEq] at h
      obtain ⟨rfl, rfl⟩ := h
      rw [putNat_small hlt]
      simp
    · rename_i hge
      split at h
      · cases h
      · rename_i m r heq
        simp only [Except.ok.injEq, Prod.mk.injEq] at h
        obtain ⟨rfl, rfl⟩ := h
        have hdiv : (b.toNat - 128 + 128 * (m + 1)) / 128 = m + 1 := by omega
        have hmod : (b.toNat - 128 + 128 * (m + 1)) % 128 + 128 = b.toNat := by omega
        rw [putNat_large (by omega), hdiv, hmod, ih r (m + 1) heq]
        simp
      · cases h

theorem unzigzag_zigzag (n : Int) : unzigzag (zigzag n) = n := by
  cases n with
  | ofNat n => simp [zigzag, unzigzag]
  | negSucc n =>
    have h1 : (2 * n + 1) % 2 = 1 := by omega
    have h2 : (2 * n + 1) / 2 = n := by omega
    simp [zigzag, unzigzag, h1, h2]

theorem zigzag_unzigzag (n : Nat) : zigzag (unzigzag n) = n := by
  unfold unzigzag
  split
  · simp only [zigzag]; omega
  · simp only [zigzag]; omega

theorem reads_int : Reads takeInt putInt := by
  intro n rest
  rw [takeInt, putInt, andThen_ok (reads_nat (zigzag n) rest)]
  simp [unzigzag_zigzag]

theorem exact_int : Exact takeInt putInt := by
  intro bytes rest n h
  obtain ⟨m, mid, h1, h2⟩ := andThen_eq_ok h
  obtain ⟨rfl, rfl⟩ := give_eq_ok h2
  rw [putInt, zigzag_unzigzag]
  exact exact_nat _ _ _ h1

/-! ### Lists -/

theorem takeMany_put {α : Type} {p : Parse α} {put : α → List Byte} (hp : Reads p put) :
    ∀ (xs : List α) (rest : List Byte), takeMany p xs.length (xs.flatMap put ++ rest) = .ok (xs, rest)
  | [], rest => by simp [takeMany]
  | x :: xs, rest => by
    simp only [List.length_cons, takeMany, List.flatMap_cons, List.append_assoc]
    rw [andThen_ok (hp x _), andThen_ok (takeMany_put hp xs rest)]
    rfl

theorem takeMany_exact {α : Type} {p : Parse α} {put : α → List Byte} (hp : Exact p put) :
    ∀ (n : Nat) (bytes rest : List Byte) (xs : List α), takeMany p n bytes = .ok (xs, rest) →
      xs.length = n ∧ bytes = xs.flatMap put ++ rest
  | 0, bytes, rest, xs, h => by
    obtain ⟨rfl, rfl⟩ := give_eq_ok h; simp
  | n + 1, bytes, rest, xs, h => by
    obtain ⟨x, mid, h1, h2⟩ := andThen_eq_ok h
    obtain ⟨ys, mid2, h3, h4⟩ := andThen_eq_ok h2
    obtain ⟨rfl, rfl⟩ := give_eq_ok h4
    obtain ⟨hl, hb⟩ := takeMany_exact hp n _ _ _ h3
    exact ⟨by simp [hl], by rw [hp _ _ _ h1, hb]; simp⟩

theorem reads_list {α : Type} {p : Parse α} {put : α → List Byte} (hp : Reads p put) :
    Reads (takeList p) (putList put) := by
  intro xs rest
  rw [takeList, putList, List.append_assoc, andThen_ok (reads_nat xs.length _)]
  exact takeMany_put hp xs rest

theorem exact_list {α : Type} {p : Parse α} {put : α → List Byte} (hp : Exact p put) :
    Exact (takeList p) (putList put) := by
  intro bytes rest xs h
  obtain ⟨n, mid, h1, h2⟩ := andThen_eq_ok h
  obtain ⟨rfl, hb⟩ := takeMany_exact hp n _ _ _ h2
  rw [exact_nat _ _ _ h1, hb, putList, List.append_assoc]

/-! ### Opcodes and command records -/

/-- The opcode of every operation selects it (R68). -/
theorem opOfCode_opCode (op : Op) : opOfCode (opCode op) = some op := by cases op <;> decide

/-- An opcode selects an operation only where it is that operation's. -/
theorem opCode_of_opOfCode {code : Nat} {op : Op} (h : opOfCode code = some op) : opCode op = code := by
  have := List.find?_some h
  simpa using this

theorem opCode_lt (op : Op) : opCode op < 256 := by cases op <;> decide

theorem opCode_byte (op : Op) : (BitVec.ofNat 8 (opCode op)).toNat = opCode op := toNat_ofNat_small (opCode_lt op)

theorem reads_fields (c : Command) (rest : List Byte) :
    takeFields c.toInstr.op (putFields c ++ rest) = .ok (c, rest) := by
  cases c with
  | reset trst srst =>
    simp only [Command.toInstr, Instr.op, takeFields, putFields, List.append_assoc]
    rw [andThen_ok (reads_bit trst _), andThen_ok (reads_bit srst _)]; rfl
  | runtest cycles endState =>
    simp only [Command.toInstr, Instr.op, takeFields, putFields, List.append_assoc]
    rw [andThen_ok (reads_nat cycles _), andThen_ok (reads_nat endState _)]; rfl
  | pathmove path =>
    simp only [Command.toInstr, Instr.op, takeFields, putFields]
    rw [andThen_ok (reads_list reads_nat path _)]; rfl
  | stableclocks cycles =>
    simp only [Command.toInstr, Instr.op, takeFields, putFields]
    rw [andThen_ok (reads_nat cycles _)]; rfl
  | tms nbits bits =>
    simp only [Command.toInstr, Instr.op, takeFields, putFields, List.append_assoc]
    rw [andThen_ok (reads_nat nbits _), andThen_ok (reads_list reads_byte bits _)]; rfl
  | sleep us =>
    simp only [Command.toInstr, Instr.op, takeFields, putFields]
    rw [andThen_ok (reads_nat us _)]; rfl
  | scan payload =>
    simp only [Command.toInstr, Instr.op, takeFields, putFields]
    rw [andThen_ok (reads_list reads_byte payload _)]; rfl

/-- What the fields of a record can be read as: a command of that kind, from its own bytes. -/
theorem exact_fields {op : Op} {bytes rest : List Byte} {c : Command} (h : takeFields op bytes = .ok (c, rest)) :
    c.toInstr.op = op ∧ bytes = putFields c ++ rest := by
  cases op
  case cmdReset =>
    obtain ⟨_, _, h1, h2⟩ := andThen_eq_ok h
    obtain ⟨_, _, h3, h4⟩ := andThen_eq_ok h2
    obtain ⟨rfl, rfl⟩ := give_eq_ok h4
    exact ⟨rfl, by rw [exact_bit _ _ _ h1, exact_bit _ _ _ h3]; simp [putFields]⟩
  case cmdRuntest =>
    obtain ⟨_, _, h1, h2⟩ := andThen_eq_ok h
    obtain ⟨_, _, h3, h4⟩ := andThen_eq_ok h2
    obtain ⟨rfl, rfl⟩ := give_eq_ok h4
    exact ⟨rfl, by rw [exact_nat _ _ _ h1, exact_nat _ _ _ h3]; simp [putFields]⟩
  case cmdPathmove =>
    obtain ⟨_, _, h1, h2⟩ := andThen_eq_ok h
    obtain ⟨rfl, rfl⟩ := give_eq_ok h2
    exact ⟨rfl, by rw [exact_list exact_nat _ _ _ h1]; simp [putFields]⟩
  case cmdStableclocks =>
    obtain ⟨_, _, h1, h2⟩ := andThen_eq_ok h
    obtain ⟨rfl, rfl⟩ := give_eq_ok h2
    exact ⟨rfl, by rw [exact_nat _ _ _ h1]; simp [putFields]⟩
  case cmdTms =>
    obtain ⟨_, _, h1, h2⟩ := andThen_eq_ok h
    obtain ⟨_, _, h3, h4⟩ := andThen_eq_ok h2
    obtain ⟨rfl, rfl⟩ := give_eq_ok h4
    exact ⟨rfl, by rw [exact_nat _ _ _ h1, exact_list exact_byte _ _ _ h3]; simp [putFields]⟩
  case cmdSleep =>
    obtain ⟨_, _, h1, h2⟩ := andThen_eq_ok h
    obtain ⟨rfl, rfl⟩ := give_eq_ok h2
    exact ⟨rfl, by rw [exact_nat _ _ _ h1]; simp [putFields]⟩
  case cmdScan =>
    obtain ⟨_, _, h1, h2⟩ := andThen_eq_ok h
    obtain ⟨rfl, rfl⟩ := give_eq_ok h2
    exact ⟨rfl, by rw [exact_list exact_byte _ _ _ h1]; simp [putFields]⟩
  all_goals (simp only [takeFields] at h; cases h)

theorem reads_command : Reads takeCommand putCommand := by
  intro c rest
  rw [takeCommand, andThen_ok (show takeByte (putCommand c ++ rest) = .ok (_, putFields c ++ rest) from rfl)]
  simp only [opCode_byte, opOfCode_opCode]
  exact reads_fields c rest

theorem exact_command : Exact takeCommand putCommand := by
  intro bytes rest c h
  obtain ⟨tag, mid, h1, h2⟩ := andThen_eq_ok h
  rw [exact_byte _ _ _ h1]
  cases hop : opOfCode tag.toNat with
  | none => simp only [hop] at h2; cases h2
  | some op =>
    simp only [hop] at h2
    obtain ⟨rfl, hb⟩ := exact_fields h2
    rw [hb, putCommand, opCode_of_opOfCode hop]
    simp

end Sys2Proof.Laws
end

