-- ==== Sys2Proof/Laws/State.lean ====
section
/-! SUPPORT. What each named update of the state leaves, one lemma per field it writes and one for what it keeps, so that
no proof unfolds an update; and the small lemmas of `Res`. -/

namespace Sys2Proof.Laws

open Sys2Proof Sys2Proof.Machine

/-! ### Results of operations -/

@[simp] theorem andThen_done {α β : Type} (a : α) (s : State) (f : α → State → Res β) :
    (Res.done a s).andThen f = f a s := rfl

@[simp] theorem andThen_raised {α β : Type} (s : State) (f : α → State → Res β) :
    (Res.raised s : Res α).andThen f = .raised s := rfl

@[simp] theorem andThen_stuck {α β : Type} (e : Fault) (f : α → State → Res β) :
    (Res.stuck e : Res α).andThen f = .stuck e := rfl

theorem andThen_assoc {α β γ : Type} (r : Res α) (f : α → State → Res β) (g : β → State → Res γ) :
    (r.andThen f).andThen g = r.andThen fun a s => (f a s).andThen g := by
  cases r <;> rfl

@[simp] theorem map_done {α β : Type} (g : α → β) (a : α) (s : State) : (Res.done a s).map g = .done (g a) s := rfl

@[simp] theorem map_raised {α β : Type} (g : α → β) (s : State) : (Res.raised s : Res α).map g = .raised s := rfl

@[simp] theorem map_stuck {α β : Type} (g : α → β) (e : Fault) : (Res.stuck e : Res α).map g = .stuck e := rfl

theorem raise_eq {α : Type} (op : Op) (kind : FaultKind) (s : State) :
    (raise op kind s : Res α) = .raised { s with fault := some ⟨kind, op⟩ } := rfl

theorem needOpen_open {α : Type} (op : Op) (body : State → Res α) (s : State) (h : s.isOpen = true) :
    needOpen op body s = body s := by simp [needOpen, h]

theorem needOpen_closed {α : Type} (op : Op) (body : State → Res α) (s : State) (h : s.isOpen = false) :
    needOpen op body s = .raised { s with fault := some ⟨.notOpen, op⟩ } := by simp [needOpen, h, raise]

/-! ### One host operation -/

theorem perform_faulted (body : State → Res OpResult) (s : State) (m : FaultMark) (h : s.fault = some m) :
    perform body s = .fault (.sessionFaulted m) := by simp [perform, h]

theorem perform_done (body : State → Res OpResult) (s t : State) (v : OpResult) (h : s.fault = none)
    (hb : body s = .done v t) : perform body s = .next { t with ret := v } := by simp [perform, h, hb]

theorem perform_raised (body : State → Res OpResult) (s t : State) (h : s.fault = none) (hb : body s = .raised t) :
    perform body s = .next t := by simp [perform, h, hb]

theorem perform_stuck (body : State → Res OpResult) (s : State) (f : Fault) (h : s.fault = none)
    (hb : body s = .stuck f) : perform body s = .fault f := by simp [perform, h, hb]

/-- All an operation's next state can be: the body's value in `ret`, or the state its raise left. -/
theorem perform_next (body : State → Res OpResult) (s t : State) (h : perform body s = .next t) :
    s.fault = none ∧ ((∃ v t', body s = .done v t' ∧ t = { t' with ret := v }) ∨ body s = .raised t) := by
  unfold perform at h
  split at h
  · cases h
  · rename_i hf
    refine ⟨hf, ?_⟩
    split at h
    · rename_i v t' hb
      exact .inl ⟨v, t', hb, by cases h; rfl⟩
    · rename_i t' hb
      cases h
      exact .inr hb
    · cases h

/-! ### Named updates -/

@[simp] theorem warn_events (k : EventKind) (op : Op) (s : State) : (warn k op s).events = s.events ++ [.log k op] := rfl
@[simp] theorem warn_cfg (k : EventKind) (op : Op) (s : State) : (warn k op s).cfg = s.cfg := rfl
@[simp] theorem warn_isOpen (k : EventKind) (op : Op) (s : State) : (warn k op s).isOpen = s.isOpen := rfl
@[simp] theorem warn_tx (k : EventKind) (op : Op) (s : State) : (warn k op s).tx = s.tx := rfl
@[simp] theorem warn_rx (k : EventKind) (op : Op) (s : State) : (warn k op s).rx = s.rx := rfl
@[simp] theorem warn_flush (k : EventKind) (op : Op) (s : State) : (warn k op s).flush = s.flush := rfl
@[simp] theorem warn_qi (k : EventKind) (op : Op) (s : State) : (warn k op s).qi = s.qi := rfl
@[simp] theorem warn_speedKhz (k : EventKind) (op : Op) (s : State) : (warn k op s).speedKhz = s.speedKhz := rfl
@[simp] theorem warn_latency (k : EventKind) (op : Op) (s : State) : (warn k op s).latency = s.latency := rfl
@[simp] theorem warn_tapCur (k : EventKind) (op : Op) (s : State) : (warn k op s).tapCur = s.tapCur := rfl
@[simp] theorem warn_tapEnd (k : EventKind) (op : Op) (s : State) : (warn k op s).tapEnd = s.tapEnd := rfl
@[simp] theorem warn_wireOut (k : EventKind) (op : Op) (s : State) : (warn k op s).wireOut = s.wireOut := rfl
@[simp] theorem warn_wireIn (k : EventKind) (op : Op) (s : State) : (warn k op s).wireIn = s.wireIn := rfl
@[simp] theorem warn_fault (k : EventKind) (op : Op) (s : State) : (warn k op s).fault = s.fault := rfl
@[simp] theorem warn_ret (k : EventKind) (op : Op) (s : State) : (warn k op s).ret = s.ret := rfl
@[simp] theorem warn_scanReturns (k : EventKind) (op : Op) (s : State) : (warn k op s).scanReturns = s.scanReturns := rfl
@[simp] theorem warn_devCalls (k : EventKind) (op : Op) (s : State) : (warn k op s).devCalls = s.devCalls := rfl
@[simp] theorem warn_ext (k : EventKind) (op : Op) (s : State) : (warn k op s).ext = s.ext := rfl

@[simp] theorem release_devCalls (s : State) : (release s).devCalls = s.devCalls ++ [.release] := rfl
@[simp] theorem release_cfg (s : State) : (release s).cfg = s.cfg := rfl
@[simp] theorem release_isOpen (s : State) : (release s).isOpen = s.isOpen := rfl
@[simp] theorem release_tx (s : State) : (release s).tx = s.tx := rfl
@[simp] theorem release_rx (s : State) : (release s).rx = s.rx := rfl
@[simp] theorem release_flush (s : State) : (release s).flush = s.flush := rfl
@[simp] theorem release_qi (s : State) : (release s).qi = s.qi := rfl
@[simp] theorem release_speedKhz (s : State) : (release s).speedKhz = s.speedKhz := rfl
@[simp] theorem release_latency (s : State) : (release s).latency = s.latency := rfl
@[simp] theorem release_tapCur (s : State) : (release s).tapCur = s.tapCur := rfl
@[simp] theorem release_tapEnd (s : State) : (release s).tapEnd = s.tapEnd := rfl
@[simp] theorem release_wireOut (s : State) : (release s).wireOut = s.wireOut := rfl
@[simp] theorem release_wireIn (s : State) : (release s).wireIn = s.wireIn := rfl
@[simp] theorem release_events (s : State) : (release s).events = s.events := rfl
@[simp] theorem release_fault (s : State) : (release s).fault = s.fault := rfl
@[simp] theorem release_ret (s : State) : (release s).ret = s.ret := rfl
@[simp] theorem release_scanReturns (s : State) : (release s).scanReturns = s.scanReturns := rfl
@[simp] theorem release_ext (s : State) : (release s).ext = s.ext := rfl

@[simp] theorem transportFail_tx (w r : Int) (s : State) : (transportFail w r s).tx = [] := rfl
@[simp] theorem transportFail_rx (w r : Int) (s : State) : (transportFail w r s).rx = [] := rfl
@[simp] theorem transportFail_events (w r : Int) (s : State) :
    (transportFail w r s).events = s.events ++ [.log (.wTransport w r) .flush] := rfl

theorem transportFail_eq (w r : Int) (s : State) :
    transportFail w r s = { s with tx := [], rx := [], events := s.events ++ [.log (.wTransport w r) .flush] } := rfl

@[simp] theorem afterFetch_cfg (rest : List Byte) (s : State) : (afterFetch rest s).cfg = s.cfg := by
  unfold afterFetch takeEndWrite; split <;> rfl
@[simp] theorem afterFetch_fault (rest : List Byte) (s : State) : (afterFetch rest s).fault = s.fault := by
  unfold afterFetch takeEndWrite; split <;> rfl

end Sys2Proof.Laws
end

