-- ==== Sys2Proof/Laws/Flush.lean ====
section
/-! SUPPORT. All that a flush can do (spec/41_transport.md R101 to R107), once: `flushOp_end`. The provers cite it instead
of unfolding the loop. -/

namespace Sys2Proof.Laws

open Sys2Proof Sys2Proof.Machine Sys2Proof.Safety

/-! ### Retained samples -/

@[simp] theorem retained_nil_left (c : Params) (d : List Byte) : retained c [] d = [] := by simp [retained]

@[simp] theorem retained_nil_right (c : Params) (t : List Byte) : retained c t [] = [] := by simp [retained]

theorem retained_cons (c : Params) (t d : Byte) (ts ds : List Byte) :
    retained c (t :: ts) (d :: ds) =
      if bitAt t c.pins.sreq then rxValue c d :: retained c ts ds else retained c ts ds := by
  simp only [retained, List.zip_cons_cons, List.filter_cons]
  split <;> simp_all

theorem retained_append (c : Params) (d1 d2 : List Byte) : ∀ sent : List Byte, d1.length ≤ sent.length →
    retained c sent (d1 ++ d2) = retained c sent d1 ++ retained c (sent.drop d1.length) d2 := by
  induction d1 with
  | nil => simp
  | cons d ds ih =>
    intro sent h
    cases sent with
    | nil => simp at h
    | cons t ts =>
      simp only [List.cons_append, retained_cons, List.length_cons, List.drop_succ_cons]
      rw [ih ts (by simpa using h)]
      split <;> simp

@[simp] theorem sampleCount_nil (p : PinMap) : sampleCount p [] = 0 := rfl

theorem sampleCount_append (p : PinMap) (a b : List Byte) :
    sampleCount p (a ++ b) = sampleCount p a + sampleCount p b := by simp [sampleCount]

theorem sampleCount_cons (p : PinMap) (t : Byte) (ts : List Byte) :
    sampleCount p (t :: ts) = (if bitAt t p.sreq then 1 else 0) + sampleCount p ts := by
  simp only [sampleCount, List.filter_cons]
  split <;> simp_all
  omega

theorem retained_length_le (c : Params) : ∀ sent data : List Byte, (retained c sent data).length ≤ sampleCount c.pins sent
  | [], _ => by simp
  | _ :: _, [] => by simp
  | t :: ts, d :: ds => by
    have := retained_length_le c ts ds
    rw [retained_cons, sampleCount_cons]
    split <;> simp <;> omega

/-- "yields exactly `k` bytes appended to the receive buffer" (R112). -/
theorem retained_length (c : Params) : ∀ sent data : List Byte, data.length = sent.length →
    (retained c sent data).length = sampleCount c.pins sent
  | [], _, _ => by simp
  | _ :: _, [], h => by simp at h
  | t :: ts, d :: ds, h => by
    have := retained_length c ts ds (by simpa using h)
    rw [retained_cons, sampleCount_cons]
    split <;> simp <;> omega

/-- All that filtering can do (R104). -/
theorem keepSamples_spec (c : Params) : ∀ (ts ds rx : List Byte),
    (keepSamples c ts ds rx = (rx ++ retained c ts ds, false) ∧
        (rx.length ≤ c.rxCap → (rx ++ retained c ts ds).length ≤ c.rxCap)) ∨
      ∃ k, keepSamples c ts ds rx = (rx ++ k, true) ∧ k <+: retained c ts ds ∧
        k.length < (retained c ts ds).length ∧ (rx ++ k).length = c.rxCap
  | [], ds, rx => by simp [keepSamples]
  | t :: ts, [], rx => by simp [keepSamples]
  | t :: ts, d :: ds, rx => by
    unfold keepSamples
    rw [retained_cons]
    by_cases hs : bitAt t c.pins.sreq
    · simp only [hs, if_true]
      by_cases hf : rx.length = c.rxCap
      · right
        exact ⟨[], by simp [hf], List.nil_prefix, by simp, by simpa using hf⟩
      · simp only [hf, if_false]
        rcases keepSamples_spec c ts ds (rx ++ [rxValue c d]) with ⟨h, hb⟩ | ⟨k, h, hp, hl, hc⟩
        · left
          refine ⟨by simp [h], fun hle => ?_⟩
          have := hb (by simp; omega)
          simpa using this
        · right
          refine ⟨rxValue c d :: k, by simp [h], ?_, by simpa using hl, by simpa using hc⟩
          exact (List.prefix_cons_inj _).2 hp
    · simp only [hs, if_false, Bool.false_eq_true]
      exact keepSamples_spec c ts ds rx

/-! ### Iterations -/

/-- What a flush does to what is pending outside: it takes replies and draws. -/
structure ExtTaken (e e' : Outside) : Prop where
  calls : e'.calls = e.calls
  endWrites : e'.endWrites = e.endWrites
  primitives : e'.primitives = e.primitives
  scans : e'.scans = e.scans
  replies : e'.replies <:+ e.replies

theorem ExtTaken.refl (e : Outside) : ExtTaken e e := ⟨rfl, rfl, rfl, rfl, List.suffix_refl _⟩

theorem ExtTaken.trans {a b c : Outside} (h1 : ExtTaken a b) (h2 : ExtTaken b c) : ExtTaken a c :=
  ⟨h2.calls.trans h1.calls, h2.endWrites.trans h1.endWrites, h2.primitives.trans h1.primitives,
    h2.scans.trans h1.scans, h2.replies.trans h1.replies⟩

/-- The transient as the loop keeps it: progress within the snapshot, and no sample ahead of its byte (R15, R101). -/
structure Synchronous (f : FlushState) : Prop where
  written : f.wpos ≤ f.snap.length
  read : f.rpos ≤ f.wpos

theorem writeRequest_eq (frame : Nat) (f : FlushState) :
    writeRequest frame f = (f.snap.drop f.wpos).take (min frame (f.snap.length - f.wpos)) := by
  unfold writeRequest
  split
  · rfl
  · rename_i h
    simp [List.drop_eq_nil_of_le (Nat.le_of_not_lt h)]

theorem writeRequest_length (frame : Nat) (f : FlushState) :
    (writeRequest frame f).length = min frame (f.snap.length - f.wpos) := by
  rw [writeRequest_eq]; simp

theorem readRequest_eq (frame : Nat) (f : FlushState) : readRequest frame f = min frame (f.snap.length - f.rpos) := by
  unfold readRequest
  split <;> omega

theorem writeRequest_prefix (frame : Nat) (f : FlushState) : writeRequest frame f <+: f.snap.drop f.wpos := by
  rw [writeRequest_eq]; exact List.take_prefix _ _

theorem readData_length (r : Int) (a : DevAnswer) : (readData r a).length = r.toNat := by
  simp [readData]; omega

/-- What an iteration whose counts are not negative does (R101, R103). -/
structure Advances (frame : Nat) (f : FlushState) (it : Iteration) : Prop where
  w : 0 ≤ it.w
  r : 0 ≤ it.r
  wBound : it.w.toNat ≤ min frame (f.snap.length - f.wpos)
  rBound : it.r.toNat ≤ min frame (f.snap.length - f.rpos)
  synchrony : f.rpos + it.r.toNat ≤ f.wpos + it.w.toNat
  data : it.data.length = it.r.toNat
  wrote : it.wrote = (f.snap.drop f.wpos).take it.w.toNat

theorem take_writeRequest (frame : Nat) (f : FlushState) (k : Nat) (h : k ≤ min frame (f.snap.length - f.wpos)) :
    (writeRequest frame f).take k = (f.snap.drop f.wpos).take k := by
  rw [writeRequest_eq, List.take_take, Nat.min_eq_left h]

/-- All that an admitted answer can be (R101). -/
theorem admit_spec (frame : Nat) (f : FlushState) (hf : Synchronous f) (a : DevAnswer) :
    ((admitted f (writeRequest frame f) (readRequest frame f) a).w < 0 ∨
        (admitted f (writeRequest frame f) (readRequest frame f) a).r < 0) ∨
      Advances frame f (admitted f (writeRequest frame f) (readRequest frame f) a) := by
  have hl := writeRequest_length frame f
  have hr := readRequest_eq frame f
  obtain ⟨h1, h2⟩ := hf
  by_cases hneg : (admitted f (writeRequest frame f) (readRequest frame f) a).w < 0 ∨
      (admitted f (writeRequest frame f) (readRequest frame f) a).r < 0
  · exact .inl hneg
  · right
    have hw0 : 0 ≤ writeCount (writeRequest frame f) a := by
      have := hneg; simp [admitted, iterationOf] at this; exact this.1
    have hr0 : 0 ≤ readCount f (writeCount (writeRequest frame f) a) (readRequest frame f) a := by
      have := hneg; simp [admitted, iterationOf] at this; exact this.2
    have hwb : (writeCount (writeRequest frame f) a).toNat ≤ min frame (f.snap.length - f.wpos) := by
      unfold writeCount
      split
      · simp
      · split
        · omega
        · rw [hl]; omega
    have hrb : readCount f (writeCount (writeRequest frame f) a) (readRequest frame f) a ≤ readRequest frame f ∧
        readCount f (writeCount (writeRequest frame f) a) (readRequest frame f) a ≤
          f.wpos + writeCount (writeRequest frame f) a - f.rpos := by
      unfold readCount
      split
      · omega
      · split
        · omega
        · split <;> omega
    refine ⟨hw0, hr0, hwb, ?_, ?_, ?_, ?_⟩
    · simp only [admitted, iterationOf]; omega
    · simp only [admitted, iterationOf]; omega
    · simp only [admitted, iterationOf, readData_length]
    · simp only [admitted, iterationOf]
      rw [if_neg (by omega), take_writeRequest frame f _ hwb]

/-- All that an answer drawn from Config can be: besides, it makes progress (log 4). -/
theorem admitProgress_spec (frame : Nat) (f : FlushState) (hf : Synchronous f) (hb : flushBusy f = true)
    (hframe : 1 ≤ frame) (a : DevAnswer) :
    ((admitProgress f (writeRequest frame f) (readRequest frame f) a).w < 0 ∨
        (admitProgress f (writeRequest frame f) (readRequest frame f) a).r < 0) ∨
      (Advances frame f (admitProgress f (writeRequest frame f) (readRequest frame f) a) ∧
        0 < (admitProgress f (writeRequest frame f) (readRequest frame f) a).w.toNat +
          (admitProgress f (writeRequest frame f) (readRequest frame f) a).r.toNat) := by
  have hl := writeRequest_length frame f
  have hspec := admit_spec frame f hf a
  obtain ⟨h1, h2⟩ := hf
  have hb' : f.wpos < f.snap.length ∨ f.rpos < f.snap.length := by simpa [flushBusy] using hb
  unfold admitProgress
  split
  · right
    split
    · rename_i hz hnil
      have : f.snap.length ≤ f.wpos := by
        rw [hnil] at hl; simp at hl; omega
      refine ⟨⟨by simp [iterationOf], by simp [iterationOf], by simp [iterationOf], ?_, ?_, ?_, ?_⟩, by simp [iterationOf]⟩
      · simp [iterationOf]; omega
      · simp [iterationOf]; omega
      · simp only [iterationOf, readData_length]
      · simp [iterationOf]
    · rename_i hz hnil
      have hlen : 0 < (writeRequest frame f).length := List.length_pos_of_ne_nil hnil
      refine ⟨⟨by simp [iterationOf], by simp [iterationOf], ?_, by simp [iterationOf], ?_, ?_, ?_⟩, by simp [iterationOf]⟩
      · simp [iterationOf]; omega
      · simp [iterationOf]; omega
      · simp only [iterationOf, readData_length]
      · simp only [iterationOf]
        rw [if_neg (by omega), take_writeRequest frame f _ (by simp; omega)]
  · rename_i hz
    rcases hspec with h | h
    · exact .inl h
    · right
      refine ⟨h, ?_⟩
      have := h.w
      have := h.r
      omega

/-- All that one iteration can do (R101): it hangs, fails, or advances; an iteration that takes no listed reply makes
progress. -/
theorem devIter_spec (f : FlushState) (hf : Synchronous f) (hb : flushBusy f = true) (s : State)
    (hframe : 1 ≤ s.cfg.frame) :
    (devIter f s = none ∧ DevReply.hangs ∈ s.ext.replies) ∨
      ∃ it e, devIter f s =
          some (it, { s with wireOut := s.wireOut ++ it.wrote, wireIn := s.wireIn ++ it.data, ext := e }) ∧
        ExtTaken s.ext e ∧
        (((it.w < 0 ∨ it.r < 0) ∧ it.wrote <+: f.snap.drop f.wpos) ∨
          (Advances s.cfg.frame f it ∧
            e.replies.length + 1 ≤ s.ext.replies.length + it.w.toNat + it.r.toNat)) := by
  have hwp : ∀ (a : DevAnswer) (w r : Int),
      (iterationOf (writeRequest s.cfg.frame f) a w r).wrote <+: f.snap.drop f.wpos := by
    intro a w r
    refine List.IsPrefix.trans ?_ (writeRequest_prefix s.cfg.frame f)
    simp only [iterationOf]
    split <;> exact List.take_prefix _ _
  have hwp' : ∀ a : DevAnswer,
      (admitProgress f (writeRequest s.cfg.frame f) (readRequest s.cfg.frame f) a).wrote <+: f.snap.drop f.wpos := by
    intro a
    unfold admitProgress
    split
    · split <;> exact hwp _ _ _
    · exact hwp _ _ _
  unfold devIter
  split
  · rename_i tl heq
    left; simp [heq]
  · rename_i a tl heq
    right
    refine ⟨_, _, rfl, ⟨rfl, rfl, rfl, rfl, by simp [heq]⟩, ?_⟩
    rcases admit_spec s.cfg.frame f hf a with h | h
    · exact .inl ⟨h, hwp _ _ _⟩
    · exact .inr ⟨h, by simp [heq]; omega⟩
  · rename_i heq
    right
    refine ⟨_, _, rfl, ⟨rfl, rfl, rfl, rfl, by simp⟩, ?_⟩
    rcases admitProgress_spec s.cfg.frame f hf hb hframe (Config.devAnswer s.ext.drawn) with h | ⟨h, hp⟩
    · exact .inl ⟨h, hwp' _⟩
    · exact .inr ⟨h, by simp [heq]; omega⟩

/-! ### The loop -/

/-- How a flush can end, with `unsent` and `unread` the bytes not yet written and not yet read back. -/
inductive FlushEnd (unsent unread : List Byte) (s : State) : Res Status → Prop
  | ok (data : List Byte) (e : Outside) (hlen : data.length = unread.length) (he : ExtTaken s.ext e)
      (hcap : s.rx.length ≤ s.cfg.rxCap → (s.rx ++ retained s.cfg unread data).length ≤ s.cfg.rxCap) :
      FlushEnd unsent unread s
        (.done .ok { s with tx := [], rx := s.rx ++ retained s.cfg unread data, wireOut := s.wireOut ++ unsent,
                            wireIn := s.wireIn ++ data, ext := e })
  | failed (wrote data : List Byte) (w r : Int) (e : Outside) (hneg : w < 0 ∨ r < 0) (hp : wrote <+: unsent)
      (he : ExtTaken s.ext e) :
      FlushEnd unsent unread s
        (.done .fail { s with tx := [], rx := [], wireOut := s.wireOut ++ wrote, wireIn := s.wireIn ++ data,
                              events := s.events ++ [.log (.wTransport w r) .flush], ext := e })
  | overflow (wrote data kept : List Byte) (f : FlushState) (e : Outside) (hp : wrote <+: unsent)
      (hlen : data.length ≤ unread.length) (hk : kept <+: retained s.cfg unread data)
      (hfull : (s.rx ++ kept).length = s.cfg.rxCap) (hmore : s.cfg.rxCap < s.rx.length + sampleCount s.cfg.pins unread)
      (he : ExtTaken s.ext e) :
      FlushEnd unsent unread s
        (.raised { s with rx := s.rx ++ kept, flush := some f, wireOut := s.wireOut ++ wrote,
                          wireIn := s.wireIn ++ data, fault := some ⟨.rxOverflow, .flush⟩, ext := e })
  | stuck (h : DevReply.hangs ∈ s.ext.replies) : FlushEnd unsent unread s (.stuck .deviceStuck)

theorem flushLoop_end : ∀ (fuel : Nat) (f : FlushState) (s : State), Synchronous f → 1 ≤ s.cfg.frame →
    s.ext.replies.length + (f.snap.length - f.wpos) + (f.snap.length - f.rpos) < fuel →
    FlushEnd (f.snap.drop f.wpos) (f.snap.drop f.rpos) s (flushLoop fuel f s)
  | 0, _, _, _, _, h => by omega
  | fuel + 1, f, s, hf, hframe, hfuel => by
    unfold flushLoop
    by_cases hb : flushBusy f = true
    · simp only [hb, if_true]
      rcases devIter_spec f hf hb s hframe with ⟨hn, hh⟩ | ⟨it, e, hit, he, hcase⟩
      · simp only [hn]; exact .stuck hh
      · simp only [hit]
        rcases hcase with ⟨hneg, hp⟩ | ⟨hadv, hprog⟩
        · rw [if_pos hneg]
          exact .failed it.wrote it.data it.w it.r e hneg hp he
        · obtain ⟨hw0, hr0, hwb, hrb, hsync, hdata, hwrote⟩ := hadv
          obtain ⟨hsw, hsr⟩ := hf
          rw [if_neg (by omega)]
          have hdl : it.data.length ≤ (f.snap.drop f.rpos).length := by simp; omega
          rcases keepSamples_spec s.cfg (f.snap.drop f.rpos) it.data s.rx with ⟨hk, hkc⟩ | ⟨k, hk, hkp, hkl, hfull⟩
          · simp only [hk]
            have ih := flushLoop_end fuel { f with wpos := f.wpos + it.w.toNat, rpos := f.rpos + it.r.toNat }
              { s with rx := s.rx ++ retained s.cfg (f.snap.drop f.rpos) it.data,
                       wireOut := s.wireOut ++ it.wrote, wireIn := s.wireIn ++ it.data, ext := e }
              ⟨by simp; omega, by simpa using hsync⟩ hframe (by simp; omega)
            have hsent : f.snap.drop f.wpos = it.wrote ++ f.snap.drop (f.wpos + it.w.toNat) := by
              rw [hwrote, ← List.drop_drop, List.take_append_drop]
            have hdrop : (f.snap.drop f.rpos).drop it.data.length = f.snap.drop (f.rpos + it.r.toNat) := by
              rw [List.drop_drop, hdata]
            generalize hres : flushLoop fuel _ _ = res at ih
            cases ih with
            | ok data e' hlen he' hcap =>
              have := FlushEnd.ok (unsent := f.snap.drop f.wpos) (unread := f.snap.drop f.rpos) (s := s)
                (it.data ++ data) e' (by simp at hlen ⊢; omega) (he.trans he')
                (by
                  intro hle
                  rw [retained_append _ _ _ _ hdl, hdrop, ← List.append_assoc]
                  exact hcap (hkc hle))
              rw [retained_append _ _ _ _ hdl, hdrop, hsent] at this
              rw [hsent]
              simpa using this
            | failed wrote data w r e' hneg hp he' =>
              have := FlushEnd.failed (unsent := f.snap.drop f.wpos) (unread := f.snap.drop f.rpos) (s := s)
                (it.wrote ++ wrote) (it.data ++ data) w r e' hneg
                (by rw [hsent]; exact (List.prefix_append_right_inj _).2 hp) (he.trans he')
              simpa using this
            | overflow wrote data kept f' e' hp hlen hkp hfull hmore he' =>
              have := FlushEnd.overflow (unsent := f.snap.drop f.wpos) (unread := f.snap.drop f.rpos) (s := s)
                (it.wrote ++ wrote) (it.data ++ data) (retained s.cfg (f.snap.drop f.rpos) it.data ++ kept) f' e'
                (by rw [hsent]; exact (List.prefix_append_right_inj _).2 hp)
                (by simp at hlen ⊢; omega)
                (by
                  rw [retained_append _ _ _ _ hdl, hdrop]
                  exact (List.prefix_append_right_inj _).2 hkp)
                (by simpa using hfull)
                (by
                  simp only [List.length_append] at hmore
                  have h1 : f.snap.drop f.rpos =
                      (f.snap.drop f.rpos).take it.data.length ++ f.snap.drop (f.rpos + it.r.toNat) := by
                    rw [← hdrop, List.take_append_drop]
                  have h2 := congrArg (sampleCount s.cfg.pins) h1
                  rw [sampleCount_append] at h2
                  have h3 : (retained s.cfg (f.snap.drop f.rpos) it.data).length =
                      sampleCount s.cfg.pins ((f.snap.drop f.rpos).take it.data.length) := by
                    rw [← retained_length s.cfg _ it.data (by simpa using hdl)]
                    congr 1
                    simp only [retained]
                    congr 2
                    conv_lhs => rw [← List.take_append_drop it.data.length (f.snap.drop f.rpos)]
                    conv_lhs => rw [← List.append_nil it.data]
                    rw [List.zip_append (by simpa using hdl)]
                    simp
                  omega)
                (he.trans he')
              simpa using this
            | stuck h => exact .stuck (he.replies.subset h)
          · simp only [hk, raise]
            have hmore : s.cfg.rxCap < s.rx.length + sampleCount s.cfg.pins (f.snap.drop f.rpos) := by
              have := retained_length_le s.cfg (f.snap.drop f.rpos) it.data
              simp at hfull
              omega
            exact .overflow it.wrote it.data k f e
              (by rw [hwrote]; exact List.take_prefix _ _) hdl hkp hfull hmore he
    · have hb' : f.snap.length ≤ f.wpos ∧ f.snap.length ≤ f.rpos := by simpa [flushBusy] using hb
      simp only [hb, Bool.false_eq_true, if_false]
      have := FlushEnd.ok (unsent := f.snap.drop f.wpos) (unread := f.snap.drop f.rpos) (s := s) [] s.ext
        (by simp [List.drop_eq_nil_of_le hb'.2]) (.refl _) (by simp)
      simpa [List.drop_eq_nil_of_le hb'.1, List.drop_eq_nil_of_le hb'.2] using this

/-- All that FLUSH can do in an open session (R102). -/
theorem flushOp_end (s : State) (ho : s.isOpen = true) (hframe : 1 ≤ s.cfg.frame) :
    FlushEnd s.tx s.tx s (flushOp s) := by
  rw [flushOp, needOpen_open _ _ _ ho]
  have := flushLoop_end (flushFuel s) { snap := s.tx, wpos := 0, rpos := 0 } s ⟨by simp, by simp⟩ hframe
    (by simp [flushFuel]; omega)
  simpa using this

/-! ### Iterations one by one -/

/-- Iterations made are iterations the loop makes: it goes on from what they leave (R102). -/
theorem flushLoop_of_run : ∀ (k fuel : Nat) (f g : FlushState) (s u : State), flushRun k f s = some (g, u) →
    flushLoop (k + fuel) f s = flushLoop fuel g u
  | 0, fuel, f, g, s, u, h => by
    cases h
    rw [Nat.zero_add]
  | k + 1, fuel, f, g, s, u, h => by
    rw [Nat.add_right_comm]
    unfold flushRun at h
    conv_lhs => unfold flushLoop
    split at h
    · rename_i hb
      rw [if_pos hb]
      cases hd : devIter f s with
      | none => rw [hd] at h; cases h
      | some p =>
        rw [hd] at h
        simp only at h ⊢
        split at h
        · cases h
        · rename_i hn
          rw [if_neg hn]
          rcases hk : keepSamples p.2.cfg (f.snap.drop f.rpos) p.1.data p.2.rx with ⟨rx, b⟩
          rw [hk] at h
          cases b with
          | true => cases h
          | false => exact flushLoop_of_run k fuel _ _ _ _ h
    · cases h

/-- What a run of iterations leaves: the transient further on, the samples kept, the histories grown, replies taken. -/
structure Iterated (k : Nat) (f g : FlushState) (s u : State) : Prop where
  snap : g.snap = f.snap
  synchronous : Synchronous g
  state : ∃ rx wrote data e, u = { s with rx := rx, wireOut := s.wireOut ++ wrote, wireIn := s.wireIn ++ data, ext := e } ∧
    f.snap.drop f.wpos = wrote ++ f.snap.drop g.wpos ∧ ExtTaken s.ext e ∧
    e.replies.length + (f.snap.length - g.wpos) + (f.snap.length - g.rpos) + k ≤
      s.ext.replies.length + (f.snap.length - f.wpos) + (f.snap.length - f.rpos)

/-- All that a run of iterations can do (R102 to R104). -/
theorem flushRun_spec : ∀ (k : Nat) (f g : FlushState) (s u : State), Synchronous f → 1 ≤ s.cfg.frame →
    flushRun k f s = some (g, u) → Iterated k f g s u
  | 0, f, g, s, u, hf, _, h => by
    cases h
    exact ⟨rfl, hf, s.rx, [], [], s.ext, by simp, by simp, .refl _, by omega⟩
  | k + 1, f, g, s, u, hf, hframe, h => by
    unfold flushRun at h
    split at h
    · rename_i hb
      rcases devIter_spec f hf hb s hframe with ⟨hn, _⟩ | ⟨it, e, hit, he, hcase⟩
      · rw [hn] at h; cases h
      · rw [hit] at h
        simp only at h
        split at h
        · cases h
        · rename_i hnn
          rcases hcase with ⟨hneg, _⟩ | ⟨hadv, hprog⟩
          · exact absurd hneg hnn
          · rcases hk : keepSamples s.cfg (f.snap.drop f.rpos) it.data s.rx with ⟨rx, b⟩
            rw [hk] at h
            cases b with
            | true => cases h
            | false =>
              obtain ⟨h1, h2⟩ := hf
              have hw := hadv.wBound
              have hr := hadv.rBound
              obtain ⟨i1, i2, rx', wrote, data, e', i3, i4, i5, i6⟩ :=
                flushRun_spec k { f with wpos := f.wpos + it.w.toNat, rpos := f.rpos + it.r.toNat } g
                  { s with rx := rx, wireOut := s.wireOut ++ it.wrote, wireIn := s.wireIn ++ it.data, ext := e } u
                  ⟨by simp; omega, hadv.synchrony⟩ hframe h
              refine ⟨i1, i2, rx', it.wrote ++ wrote, it.data ++ data, e', by rw [i3]; simp, ?_, he.trans i5, ?_⟩
              · have hsent : f.snap.drop f.wpos = it.wrote ++ f.snap.drop (f.wpos + it.w.toNat) := by
                  rw [hadv.wrote, ← List.drop_drop, List.take_append_drop]
                rw [hsent, i4, List.append_assoc]
              · simp only at i6
                omega
    · cases h

/-- The loop's failures are those of an iteration: where it returns FAIL, some iterations went well and the next had a
negative count (R106, R184). -/
theorem flushLoop_fail : ∀ (fuel : Nat) (f : FlushState) (s t : State), flushLoop fuel f s = .done .fail t →
    ∃ k g u it v, flushRun k f s = some (g, u) ∧ flushBusy g = true ∧ devIter g u = some (it, v) ∧ (it.w < 0 ∨ it.r < 0)
  | 0, _, _, _, h => by cases h
  | fuel + 1, f, s, t, h => by
    unfold flushLoop at h
    split at h
    · rename_i hb
      split at h
      · cases h
      · rename_i it v hd
        split at h
        · rename_i hneg
          exact ⟨0, f, s, it, v, rfl, hb, hd, hneg⟩
        · rename_i hneg
          rcases hk : keepSamples v.cfg (f.snap.drop f.rpos) it.data v.rx with ⟨rx, b⟩
          rw [hk] at h
          cases b with
          | true => cases h
          | false =>
            obtain ⟨k, g, u, it', v', h1, h2⟩ := flushLoop_fail fuel _ _ _ h
            exact ⟨k + 1, g, u, it', v', by unfold flushRun; simp only [hb, if_true, hd, if_neg hneg, hk]; exact h1, h2⟩
    · cases h

end Sys2Proof.Laws
end

