-- ==== Sys2Proof/Laws/Pins.lean ====
section
/-! SUPPORT. The bits of a pin byte and of a reset byte (spec/40_encoder.md R90, R91; spec/30_encoding.md R60 to R62). -/

namespace Sys2Proof.Laws

open Sys2Proof Sys2Proof.Machine Sys2Proof.Safety

theorem bitAt_zero (i : Fin 8) : bitAt 0 i = false := by simp [bitAt]

theorem bitAt_setBit (b : Byte) (i j : Fin 8) (v : Bool) :
    bitAt (setBit b i v) j = if i = j then v else bitAt b j := by
  have hj : j.val < 8 := j.isLt
  have hij : (i = j) ↔ (i.val = j.val) := Fin.ext_iff
  by_cases h : i.val = j.val
  · cases v <;> simp [bitAt, setBit, hij, h, hj]
  · cases v <;> simp [bitAt, setBit, hij, h, hj, Ne.symm h]

theorem byte_ext_bits {a b : Byte} (h : ∀ i : Fin 8, bitAt a i = bitAt b i) : a = b := by
  apply BitVec.eq_of_getLsbD_eq
  intro i hi
  exact h ⟨i, hi⟩

/-- The six positions are pairwise distinct (R5, R60). -/
theorem pins_ne {p : PinMap} (h : p.distinct = true) :
    p.tck ≠ p.tms ∧ p.tck ≠ p.tdi ∧ p.tck ≠ p.sreq ∧ p.tck ≠ p.trst ∧ p.tck ≠ p.srst ∧ p.tms ≠ p.tdi ∧
      p.tms ≠ p.sreq ∧ p.tms ≠ p.trst ∧ p.tms ≠ p.srst ∧ p.tdi ≠ p.sreq ∧ p.tdi ≠ p.trst ∧ p.tdi ≠ p.srst ∧
      p.sreq ≠ p.trst ∧ p.sreq ≠ p.srst ∧ p.trst ≠ p.srst := by
  simp [PinMap.distinct] at h
  tauto

/-- Every bit of a pin byte, by position. -/
theorem bitAt_pinByte (p : PinMap) (tck tms tdi sreq : Bool) (j : Fin 8) :
    bitAt (pinByte p tck tms tdi sreq) j =
      if p.srst = j then true else if p.trst = j then true else if p.sreq = j then sreq
      else if p.tdi = j then tdi else if p.tms = j then tms else if p.tck = j then tck else false := by
  simp only [pinByte, bitAt_setBit, bitAt_zero]

/-- Every bit of a reset byte, by position. -/
theorem bitAt_resetByte (p : PinMap) (trst srst : Bool) (j : Fin 8) :
    bitAt (resetByte p trst srst) j = if p.srst = j then !srst else if p.trst = j then !trst else false := by
  simp only [resetByte, bitAt_setBit, bitAt_zero]

theorem pinByte_sreq {p : PinMap} (h : p.distinct = true) (tck tms tdi sreq : Bool) :
    bitAt (pinByte p tck tms tdi sreq) p.sreq = sreq := by
  obtain ⟨_, _, _, _, _, _, _, _, _, _, _, _, h1, h2, _⟩ := pins_ne h
  rw [bitAt_pinByte]; simp [h1.symm, h2.symm]

theorem resetByte_sreq {p : PinMap} (h : p.distinct = true) (trst srst : Bool) :
    bitAt (resetByte p trst srst) p.sreq = false := by
  obtain ⟨_, _, _, _, _, _, _, _, _, _, _, _, h1, h2, _⟩ := pins_ne h
  rw [bitAt_resetByte]; simp [h1.symm, h2.symm]

/-- "with both reset lines at their deasserted level" the reset byte is the idle byte (R91). -/
theorem resetByte_released {p : PinMap} : resetByte p false false = pinByte p false false false false := by
  apply byte_ext_bits
  intro j
  rw [bitAt_resetByte, bitAt_pinByte]
  split <;> simp_all

end Sys2Proof.Laws
end

