-- ==== Sys2Proof/Laws/Emit.lean ====
section
/-! SUPPORT. What an append does (spec/40_encoder.md R92), and from it what every sequence of appended bytes does
(spec/40_encoder.md R93, R94, R98; spec/42_tap_driver.md R121): `enqOp_emits` and the lemmas after it. -/

namespace Sys2Proof.Laws

open Sys2Proof Sys2Proof.Machine Sys2Proof.Safety

/-! ### Parameters -/

theorem ok_frame {c : Params} (h : c.ok = true) : 1 ≤ c.frame := by
  simp [Params.ok] at h; omega

theorem ok_pins {c : Params} (h : c.ok = true) : c.pins.distinct = true := by
  simp [Params.ok] at h; simp [h]

theorem capacityOk_bounds {n : Nat} (h : capacityOk n = true) : 64 ≤ n ∧ n ≤ 16384 := by
  simp [capacityOk] at h; omega

theorem ok_txCap {c : Params} (h : c.ok = true) : 64 ≤ c.txCap := by
  have h1 : capacityOk c.txCap = true := by simp [Params.ok] at h; simp [h]
  exact (capacityOk_bounds h1).1

/-! ### The relation `Emits` -/

theorem Emits_refl (s : State) : Emits [] s s :=
  ⟨rfl, rfl, rfl, rfl, rfl, rfl, rfl, rfl, rfl, rfl, rfl, rfl, rfl, rfl, List.suffix_refl _, List.prefix_refl _,
    List.prefix_refl _, List.prefix_refl _, fun _ => by simp, fun _ => by simp⟩

theorem Emits_trans {a b : List Byte} {s t u : State} (h1 : Emits a s t) (h2 : Emits b t u) : Emits (a ++ b) s u where
  cfg := h2.cfg.trans h1.cfg
  isOpen := h2.isOpen.trans h1.isOpen
  speedKhz := h2.speedKhz.trans h1.speedKhz
  latency := h2.latency.trans h1.latency
  tapEnd := h2.tapEnd.trans h1.tapEnd
  flush := h2.flush.trans h1.flush
  qi := h2.qi.trans h1.qi
  fault := h2.fault.trans h1.fault
  scanReturns := h2.scanReturns.trans h1.scanReturns
  devCalls := h2.devCalls.trans h1.devCalls
  calls := h2.calls.trans h1.calls
  endWrites := h2.endWrites.trans h1.endWrites
  primitives := h2.primitives.trans h1.primitives
  scans := h2.scans.trans h1.scans
  replies := h2.replies.trans h1.replies
  written := h1.written.trans h2.written
  read := h1.read.trans h2.read
  logged := h1.logged.trans h2.logged
  direct := by
    intro hroom
    simp only [List.length_append] at hroom
    obtain ⟨a1, a2, a3, a4, a5, a6⟩ := h1.direct (by omega)
    obtain ⟨b1, b2, b3, b4, b5, b6⟩ := h2.direct (by rw [a1, h1.cfg]; simp; omega)
    exact ⟨by rw [b1, a1, List.append_assoc], b2.trans a2, b3.trans a3, b4.trans a4, b5.trans a5, b6.trans a6⟩
  stream := by
    intro hev
    have h3 : t.events = s.events := by
      have h4 : t.events <+: s.events := hev ▸ h2.logged
      exact h4.eq_of_length_le h1.logged.length_le
    obtain ⟨a1, a2⟩ := h1.stream h3
    obtain ⟨b1, b2⟩ := h2.stream (hev.trans h3.symm)
    exact ⟨by rw [b1, a1, List.append_assoc], a2.trans b2⟩

theorem Emits_tapCur {a : List Byte} {s t : State} (x : TapState) (h : Emits a s t) : Emits a s { t with tapCur := x } :=
  ⟨h.cfg, h.isOpen, h.speedKhz, h.latency, h.tapEnd, h.flush, h.qi, h.fault, h.scanReturns, h.devCalls, h.calls,
    h.endWrites, h.primitives, h.scans, h.replies, h.written, h.read, h.logged, h.direct, h.stream⟩

theorem Emits_of_tapCur {a : List Byte} {s t : State} (x : TapState) (h : Emits a { s with tapCur := x } t) :
    Emits a s t :=
  ⟨h.cfg, h.isOpen, h.speedKhz, h.latency, h.tapEnd, h.flush, h.qi, h.fault, h.scanReturns, h.devCalls, h.calls,
    h.endWrites, h.primitives, h.scans, h.replies, h.written, h.read, h.logged, h.direct, h.stream⟩

theorem Emits_ret {a : List Byte} {s t : State} (x : OpResult) (h : Emits a s t) : Emits a s { t with ret := x } :=
  ⟨h.cfg, h.isOpen, h.speedKhz, h.latency, h.tapEnd, h.flush, h.qi, h.fault, h.scanReturns, h.devCalls, h.calls,
    h.endWrites, h.primitives, h.scans, h.replies, h.written, h.read, h.logged, h.direct, h.stream⟩

theorem ReadyFor_weaken {j k : Nat} {s : State} (hjk : j ≤ k) (h : ReadyFor k s) : ReadyFor j s :=
  ⟨h.params, h.unfaulted, h.opened, h.answering, by have := h.room; omega⟩

theorem ReadyFor_tapCur {k : Nat} {s : State} (x : TapState) (h : ReadyFor k s) : ReadyFor k { s with tapCur := x } :=
  ⟨h.params, h.unfaulted, h.opened, h.answering, h.room⟩

/-! ### Appends -/

/-- How an append of `bytes` runs from a ready state: to its end. -/
structure Runs (k : Nat) (bytes : List Byte) (s t : State) : Prop where
  emits : Emits bytes s t
  tapCur : t.tapCur = s.tapCur
  ret : t.ret = s.ret
  ready : ReadyFor k t

theorem Runs_trans {j k : Nat} {a b : List Byte} {s t u : State} (h1 : Runs j a s t) (h2 : Runs k b t u) :
    Runs k (a ++ b) s u :=
  ⟨Emits_trans h1.emits h2.emits, h2.tapCur.trans h1.tapCur, h2.ret.trans h1.ret, h2.ready⟩

/-- ENQ from a ready state runs to its end (R92). -/
theorem enqOp_emits (b : Byte) (k : Nat) (s : State) (h : ReadyFor (sampleCount s.cfg.pins [b] + k) s) :
    ∃ st t, enqOp b s = .done st t ∧ Runs k [b] s t ∧
      (s.cfg.policy = .flushOnFull ∨ s.tx.length + 1 ≤ s.cfg.txCap → st = .ok) := by
  have hroom := h.room
  have hcap := ok_txCap h.params
  rw [enqOp, needOpen_open _ _ _ h.opened]
  by_cases hfull : s.tx.length = s.cfg.txCap
  · rw [if_pos hfull]
    have hnd : ¬ (s.tx.length + [b].length ≤ s.cfg.txCap) := by simp [hfull]
    cases hpol : s.cfg.policy with
    | dropAndLog =>
      refine ⟨_, _, rfl, ⟨⟨rfl, rfl, rfl, rfl, rfl, rfl, rfl, rfl, rfl, rfl, rfl, rfl, rfl, rfl, List.suffix_refl _,
        List.prefix_refl _, List.prefix_refl _, List.prefix_append _ _, fun hh => absurd hh hnd, ?_⟩, rfl, rfl,
        ⟨h.params, h.unfaulted, h.opened, h.answering, ?_⟩⟩, fun hh => ?_⟩
      · intro hev; simp at hev
      · simp; omega
      · rcases hh with hh | hh
        · cases hh
        · omega
    | flushOnFull =>
      have hend := flushOp_end s h.opened (ok_frame h.params)
      simp only
      generalize flushOp s = res at hend
      cases hend with
      | ok data e hlen he hcap =>
        refine ⟨_, _, rfl, ⟨⟨rfl, rfl, rfl, rfl, rfl, rfl, rfl, rfl, rfl, rfl, he.calls, he.endWrites, he.primitives,
          he.scans, he.replies, List.prefix_append _ _, List.prefix_append _ _, List.prefix_refl _,
          fun hh => absurd hh hnd, ?_⟩, rfl, rfl,
          ⟨h.params, h.unfaulted, h.opened, fun hh => h.answering (he.replies.subset hh), ?_⟩⟩, fun _ => rfl⟩
        · intro _; exact ⟨by simp, List.prefix_append _ _⟩
        · have := retained_length s.cfg s.tx data hlen
          simp; omega
      | failed wrote data w r e hneg hp he =>
        refine ⟨_, _, rfl, ⟨⟨rfl, rfl, rfl, rfl, rfl, rfl, rfl, rfl, rfl, rfl, he.calls, he.endWrites, he.primitives,
          he.scans, he.replies, List.prefix_append _ _, List.prefix_append _ _, List.prefix_append _ _,
          fun hh => absurd hh hnd, ?_⟩, rfl, rfl,
          ⟨h.params, h.unfaulted, h.opened, fun hh => h.answering (he.replies.subset hh), ?_⟩⟩, fun _ => rfl⟩
        · intro hev; simp at hev
        · simp; omega
      | overflow _ _ _ _ _ _ _ _ _ hmore _ => omega
      | stuck hh => exact absurd hh h.answering
  · rw [if_neg hfull]
    refine ⟨_, _, rfl, ⟨⟨rfl, rfl, rfl, rfl, rfl, rfl, rfl, rfl, rfl, rfl, rfl, rfl, rfl, rfl, List.suffix_refl _,
      List.prefix_refl _, List.prefix_refl _, List.prefix_refl _, fun _ => by simp, fun _ => by simp⟩, rfl, rfl,
      ⟨h.params, h.unfaulted, h.opened, h.answering, ?_⟩⟩, fun _ => rfl⟩
    simp only [sampleCount_append]; omega

/-- A core-generated pin byte requests no sample (R98). -/
theorem sampleCount_pinByte {c : Params} (h : c.ok = true) (tck tms tdi : Bool) :
    sampleCount c.pins [pinByte c.pins tck tms tdi false] = 0 := by
  simp [sampleCount, pinByte_sreq (ok_pins h)]

theorem sampleCount_resetByte {c : Params} (h : c.ok = true) (trst srst : Bool) :
    sampleCount c.pins [resetByte c.pins trst srst] = 0 := by
  simp [sampleCount, resetByte_sreq (ok_pins h)]

/-- PULSE from a ready state runs to its end (R93). -/
theorem pulseOp_emits (tms tdi sreq : Bool) (k : Nat) (s : State) (h : ReadyFor ((if sreq then 1 else 0) + k) s) :
    ∃ st t, pulseOp tms tdi sreq s = .done st t ∧ Runs k (pulseBytes s.cfg.pins tms tdi sreq) s t ∧
      (s.cfg.policy = .flushOnFull ∨ s.tx.length + 2 ≤ s.cfg.txCap → st = .ok) := by
  obtain ⟨s1, t, ht, hr, hs1⟩ := enqOp_emits (pinByte s.cfg.pins false tms tdi false) ((if sreq then 1 else 0) + k) s
    (by rw [sampleCount_pinByte h.params]; simpa using h)
  have hc := hr.emits.cfg
  obtain ⟨s2, u, hu, hr2, hs2⟩ := enqOp_emits (pinByte t.cfg.pins true tms tdi sreq) k t
    (by
      refine ReadyFor_weaken ?_ hr.ready
      simp only [sampleCount, List.filter_cons, List.filter_nil]
      rw [pinByte_sreq (ok_pins hr.ready.params)]
      cases sreq <;> simp)
  refine ⟨bothOk s1 s2, u, by simp [pulseOp, ht, hu], ?_, ?_⟩
  · rw [hc] at hr2
    exact Runs_trans hr hr2
  · intro hp
    have h2 : t.cfg.policy = .flushOnFull ∨ t.tx.length + 1 ≤ t.cfg.txCap := by
      rw [hc]
      refine hp.imp id fun hroom => ?_
      rw [(hr.emits.direct (by simp; omega)).1]
      simp; omega
    rw [hs1 (hp.imp id fun hr => by omega), hs2 h2]; rfl

/-- IDLE from a ready state runs to its end (R94). -/
theorem idleOp_emits (k : Nat) (s : State) (h : ReadyFor k s) :
    ∃ st t, idleOp s = .done st t ∧ Runs k [idleByte s.cfg.pins] s t ∧
      (s.cfg.policy = .flushOnFull ∨ s.tx.length + 1 ≤ s.cfg.txCap → st = .ok) :=
  enqOp_emits _ k s (by rw [sampleCount_pinByte h.params]; simpa using h)

/-- A run of pulses from a ready state runs to its end (R98). -/
theorem clockAll_emits (k : Nat) : ∀ (bits : List Bool) (s : State), ReadyFor k s →
    ∃ t, clockAll bits s = .done () t ∧ Runs k (clockBytes s.cfg.pins bits) s t
  | [], s, h => ⟨s, rfl, Emits_refl s, rfl, rfl, h⟩
  | tms :: rest, s, h => by
    obtain ⟨st, t, ht, hr, _⟩ := pulseOp_emits tms false false k s (by simpa using h)
    obtain ⟨u, hu, hr2⟩ := clockAll_emits k rest t hr.ready
    rw [hr.emits.cfg] at hr2
    exact ⟨u, by simp [clockAll, ht, hu], Runs_trans hr hr2⟩

/-- TRANSITION from a ready state to a stable target by a path of at most 8 clocks runs to its end (R121). -/
theorem transitionOp_emits (k : Nat) (target : TapState) (s : State) (h : ReadyFor k s)
    (hs : tapStable s.cfg.tap target = true) (hp : (tapPath s.cfg.tap s.tapCur target).count ≤ 8) :
    ∃ t, transitionOp target s = .done () t ∧ Emits (transitionBytes s.cfg s.tapCur target) s t ∧ t.tapCur = target ∧
      t.ret = s.ret ∧ ReadyFor k t := by
  obtain ⟨t, ht, hr⟩ := clockAll_emits k (pathBits (tapPath s.cfg.tap s.tapCur target)) s h
  obtain ⟨st, u, hu, hr2, _⟩ := idleOp_emits k t hr.ready
  rw [hr.emits.cfg] at hr2
  have hr3 := Runs_trans hr hr2
  refine ⟨{ u with tapCur := target }, ?_, Emits_tapCur target hr3.emits, rfl, hr3.ret, ReadyFor_tapCur target hr3.ready⟩
  rw [transitionOp, needOpen_open _ _ _ h.opened, if_pos hs, if_neg (by omega)]
  simp [ht, hu]

/-- FLUSH from a ready state runs to its end, and leaves a ready state (R102). -/
theorem flushOp_ready (k : Nat) (s : State) (h : ReadyFor k s) :
    ∃ st t, flushOp s = .done st t ∧ FlushEnd s.tx s.tx s (.done st t) ∧ ReadyFor k t ∧ t.tx = [] := by
  have hend := flushOp_end s h.opened (ok_frame h.params)
  have hroom := h.room
  generalize hres : flushOp s = res at hend
  cases hend with
  | ok data e hlen he hcap =>
    refine ⟨_, _, rfl, .ok data e hlen he hcap, ⟨h.params, h.unfaulted, h.opened, fun hh => h.answering (he.replies.subset hh), ?_⟩, rfl⟩
    have := retained_length s.cfg s.tx data hlen
    simp; omega
  | failed wrote data w r e hneg hp he =>
    refine ⟨_, _, rfl, .failed wrote data w r e hneg hp he,
      ⟨h.params, h.unfaulted, h.opened, fun hh => h.answering (he.replies.subset hh), ?_⟩, rfl⟩
    simp; omega
  | overflow _ _ _ _ _ _ _ _ _ hmore _ => omega
  | stuck hh => exact absurd hh h.answering

end Sys2Proof.Laws
end

