-- ==== Sys2Proof/Laws/Exec.lean ====
section
/-! SUPPORT. Every operation is `perform` of a body: the shape all instructions share, so that a proof about `exec` is one
about the body's `Res`. -/

namespace Sys2Proof.Laws

open Sys2Proof Sys2Proof.Machine

/-- What an operation does in a session that may take a step, before its value goes to `ret`. -/
def body : Instr → State → Res OpResult
  | .encode tck tms tdi sreq, s => (encodeOp tck tms tdi sreq s).map .byte
  | .encodeRst trst srst, s => (encodeRstOp trst srst s).map .byte
  | .enq b, s => (enqOp b s).map .status
  | .pulse tms tdi sreq, s => (pulseOp tms tdi sreq s).map .status
  | .idle, s => (idleOp s).map .status
  | .qAvail buf, s => (availOp buf s).map .nat
  | .qEmpty buf, s => (emptyOp buf s).map .bit
  | .qFull buf, s => (fullOp buf s).map .bit
  | .flush, s => (flushOp s).map .status
  | .rxRead, s => (rxReadOp s).map .int
  | .transition target, s => (transitionOp target s).map fun _ => .unit
  | .cmdReset trst srst, s => (cmdResetOp trst srst s).map fun _ => .unit
  | .cmdRuntest cycles endState, s => (cmdRuntestOp cycles endState s).map fun _ => .unit
  | .cmdPathmove path, s => (cmdPathmoveOp path s).map fun _ => .unit
  | .cmdStableclocks cycles, s => (cmdStableclocksOp cycles s).map fun _ => .unit
  | .cmdTms nbits bits, s => (cmdTmsOp nbits bits s).map fun _ => .unit
  | .cmdSleep us, s => (sleepOp us s).map fun _ => .unit
  | .cmdScan payload, s => (cmdScanOp payload s).map fun _ => .unit
  | .adpEmit clock select data sampleRequest, s => (adpEmitOp clock select data sampleRequest s).map .status
  | .adpFlush, s => (flushOp s).map .status
  | .adpDelay us, s => (sleepOp us s).map fun _ => .unit
  | .adpAssertReset lineA lineB, s => (adpAssertResetOp lineA lineB s).map .status
  | .adpAvail, s => (availOp .rx s).map .nat
  | .adpRead, s => (rxReadOp s).map .int
  | .openSession, s => (openOp s).map .status
  | .closeSession, s => (closeOp s).map .status
  | .setSpeed khz, s => (setSpeedOp khz s).map .status
  | .speedToKhz speed, s => .done (.nat speed) s
  | .khzToSpeed khz, s => khzToSpeedOp khz s
  | .setLatency args, s => (setLatencyOp args s).map .status
  | .execute queue, s => (executeOp queue s).map .status

theorem exec_eq_perform (i : Instr) (s : State) : exec i s = perform (body i) s := by cases i <;> rfl

/-- An adapter operation of a scan has the body of its instruction (R150). -/
theorem adpOp_eq_body (op : AdpOp) (s : State) : adpOp op s = body (Safety.adpInstr op) s := by cases op <;> rfl

/-- A command record's handler has the body of its instruction (R138). -/
theorem dispatch_eq_body (c : Command) (s : State) : (dispatch c s).map (fun _ => .unit) = body c.toInstr s := by
  cases c <;> rfl

end Sys2Proof.Laws
end

