-- ==== Sys2Proof/Laws/Kept.lean ====
section
/-! SUPPORT. What every operation keeps, for any relation between the state before and the state after: if the relation holds
over the few updates an operation is made of (an append, a flush, a read, a log event, a mark, a TAP commit), it holds over
the operation. `Kept` names those updates, and the lemmas after it say so for each operation. -/

namespace Sys2Proof.Laws

open Sys2Proof Sys2Proof.Machine Sys2Proof.Safety

/-- An operation's end is related to the state it began in, and a raise has set the mark (R25); a stuck operation has no
end. -/
def Lands {α : Type} (R : State → State → Prop) (s : State) : Res α → Prop
  | .done _ t => R s t
  | .raised t => R s t ∧ t.fault ≠ none
  | .stuck _ => True

/-- A relation that the updates of the session's operations keep. `B` says which bytes may be appended, `T` which TAP states
committed. -/
structure Kept (B : Params → Byte → Prop) (R : State → State → Prop) : Prop where
  refl : ∀ s, R s s
  trans : ∀ {s t u}, R s t → R t u → R s u
  cfg : ∀ {s t}, R s t → t.cfg = s.cfg
  append : ∀ s b, s.cfg.ok = true → s.tx.length ≠ s.cfg.txCap → B s.cfg b → R s { s with tx := s.tx ++ [b] }
  flushed : ∀ s (r : Res Status), s.cfg.ok = true → FlushEnd s.tx s.tx s r → Lands R s r
  read : ∀ s v rest, s.rx = v :: rest → R s { s with rx := rest }
  logged : ∀ s e, R s { s with events := s.events ++ [e] }
  marked : ∀ s m, R s { s with fault := some m }
  pin : ∀ c tck tms tdi sreq, c.ok = true → B c (pinByte c.pins tck tms tdi sreq)

/-- The same, with the commits of the TAP operations and the updates around a scan and a queue. -/
structure KeptTap (B : Params → Byte → Prop) (T : Params → TapState → Prop) (R : State → State → Prop) : Prop
    extends Kept B R where
  tap : ∀ s x, T s.cfg x → R s { s with tapCur := x }
  tapEnd : ∀ s, R s { s with tapCur := s.tapEnd }
  named : ∀ c x, T c (c.tap.norm x)

section

variable {B : Params → Byte → Prop} {T : Params → TapState → Prop} {R : State → State → Prop}

theorem Lands_andThen {α β : Type} (hk : Kept B R) {s : State} {r : Res α} {f : α → State → Res β}
    (h : Lands R s r) (hf : ∀ a t, R s t → Lands R t (f a t)) : Lands R s (r.andThen f) := by
  cases r with
  | done a t =>
    have := hf a t h
    simp only [andThen_done]
    cases hr : f a t with
    | done b u => rw [hr] at this; exact hk.trans h this
    | raised u => rw [hr] at this; exact ⟨hk.trans h this.1, this.2⟩
    | stuck e => trivial
  | raised t => exact h
  | stuck e => trivial

theorem Lands_map {α β : Type} {s : State} {r : Res α} {g : α → β} (h : Lands R s r) : Lands R s (r.map g) := by
  cases r <;> exact h

theorem Lands_raise {α : Type} (hk : Kept B R) (op : Op) (k : FaultKind) (s : State) :
    Lands R s (raise op k s : Res α) := ⟨hk.marked s _, by simp⟩

theorem Lands_needOpen {α : Type} (hk : Kept B R) (op : Op) (body : State → Res α) (s : State)
    (h : s.isOpen = true → Lands R s (body s)) : Lands R s (needOpen op body s) := by
  unfold needOpen
  split
  · rename_i ho; exact h ho
  · exact Lands_raise hk _ _ _

theorem Lands_trans {α : Type} (hk : Kept B R) {s t : State} {r : Res α} (h : R s t) (hr : Lands R t r) : Lands R s r := by
  cases r with
  | done a u => exact hk.trans h hr
  | raised u => exact ⟨hk.trans h hr.1, hr.2⟩
  | stuck e => trivial

theorem flushOp_kept (hk : Kept B R) (s : State) (hc : s.cfg.ok = true) : Lands R s (flushOp s) := by
  cases ho : s.isOpen with
  | false => rw [flushOp, needOpen_closed _ _ _ ho]; exact Lands_raise hk .flush .notOpen s
  | true => exact hk.flushed s _ hc (flushOp_end s ho (ok_frame hc))

theorem enqOp_kept (hk : Kept B R) (b : Byte) (s : State) (hc : s.cfg.ok = true) (hb : B s.cfg b) :
    Lands R s (enqOp b s) := by
  have hcap := ok_txCap hc
  refine Lands_needOpen hk _ _ _ fun ho => ?_
  by_cases hfull : s.tx.length = s.cfg.txCap
  · rw [if_pos hfull]
    cases s.cfg.policy with
    | dropAndLog => exact hk.logged s _
    | flushOnFull =>
      have hl := flushOp_kept hk s hc
      have hend := flushOp_end s ho (ok_frame hc)
      simp only
      generalize flushOp s = r at hl hend
      cases hend with
      | ok => exact hk.trans hl (hk.append _ _ hc (by simp; omega) hb)
      | failed => exact hk.trans hl (hk.append _ _ hc (by simp; omega) hb)
      | overflow => exact hl
      | stuck => trivial
  · rw [if_neg hfull]
    exact hk.append s b hc hfull hb

theorem pulseOp_kept (hk : Kept B R) (tms tdi sreq : Bool) (s : State) (hc : s.cfg.ok = true) :
    Lands R s (pulseOp tms tdi sreq s) := by
  refine Lands_andThen hk (enqOp_kept hk _ s hc (hk.pin _ _ _ _ _ hc)) fun _ t ht => ?_
  have hc' : t.cfg.ok = true := by rw [hk.cfg ht]; exact hc
  exact Lands_andThen hk (enqOp_kept hk _ t hc' (hk.pin _ _ _ _ _ hc')) fun _ u _ => hk.refl u

theorem idleOp_kept (hk : Kept B R) (s : State) (hc : s.cfg.ok = true) : Lands R s (idleOp s) :=
  enqOp_kept hk _ s hc (hk.pin _ _ _ _ _ hc)

theorem clockAll_kept (hk : Kept B R) : ∀ (bits : List Bool) (s : State), s.cfg.ok = true → Lands R s (clockAll bits s)
  | [], s, _ => hk.refl s
  | tms :: rest, s, hc =>
    Lands_andThen hk (pulseOp_kept hk tms false false s hc) fun _ t ht =>
      clockAll_kept hk rest t (by rw [hk.cfg ht]; exact hc)

theorem rxReadOp_kept (hk : Kept B R) (s : State) : Lands R s (rxReadOp s) := by
  refine Lands_needOpen hk _ _ _ fun _ => ?_
  cases h : s.rx with
  | nil => exact hk.refl s
  | cons v rest => exact hk.read s v rest h

theorem sleepOp_kept (hk : Kept B R) (us : Nat) (s : State) (hc : s.cfg.ok = true) : Lands R s (sleepOp us s) :=
  Lands_needOpen hk _ _ _ fun _ => Lands_andThen hk (flushOp_kept hk s hc) fun _ t _ => hk.logged t _

theorem cmdStableclocksOp_kept (hk : Kept B R) (cycles : Nat) (s : State) (hc : s.cfg.ok = true) :
    Lands R s (cmdStableclocksOp cycles s) := by
  refine Lands_needOpen hk _ _ _ fun _ => ?_
  split
  · exact clockAll_kept hk _ s hc
  · exact Lands_raise hk _ _ _

theorem adpEmitOp_kept (hk : Kept B R) (a b c d : Bool) (s : State) (hc : s.cfg.ok = true) :
    Lands R s (adpEmitOp a b c d s) :=
  Lands_needOpen hk _ _ _ fun _ => enqOp_kept hk _ s hc (hk.pin _ _ _ _ _ hc)

theorem adpAssertResetOp_kept (hk : Kept B R) (a b : Bool) (s : State) (hc : s.cfg.ok = true)
    (hr : B s.cfg (resetByte s.cfg.pins a b)) : Lands R s (adpAssertResetOp a b s) :=
  Lands_needOpen hk _ _ _ fun _ => enqOp_kept hk _ s hc hr

theorem transitionOp_kept (hk : KeptTap B T R) (target : TapState) (s : State) (hc : s.cfg.ok = true) (ht : T s.cfg target) :
    Lands R s (transitionOp target s) := by
  refine Lands_needOpen hk.toKept _ _ _ fun _ => ?_
  split
  · split
    · exact Lands_raise hk.toKept _ _ _
    · refine Lands_andThen hk.toKept (clockAll_kept hk.toKept _ s hc) fun _ t h1 => ?_
      have hc1 := hk.cfg h1
      refine Lands_andThen hk.toKept (idleOp_kept hk.toKept t (by rw [hc1]; exact hc)) fun _ u h2 => ?_
      exact hk.tap u target (by rw [hk.cfg h2, hc1]; exact ht)
  · exact Lands_raise hk.toKept _ _ _

theorem cmdResetOp_kept (hk : KeptTap B T R) (trst srst : Bool) (s : State) (hc : s.cfg.ok = true)
    (hr : B s.cfg (resetByte s.cfg.pins trst srst)) : Lands R s (cmdResetOp trst srst s) := by
  refine Lands_needOpen hk.toKept _ _ _ fun _ => Lands_map ?_
  split
  · exact Lands_trans hk.toKept (hk.tap s _ (hk.named _ _)) (enqOp_kept hk.toKept _ _ hc hr)
  · exact enqOp_kept hk.toKept _ s hc hr

theorem cmdRuntestOp_kept (hk : KeptTap B T R) (cycles : Nat) (endState : TapState) (s : State) (hc : s.cfg.ok = true)
    (ht : T s.cfg endState) : Lands R s (cmdRuntestOp cycles endState s) := by
  refine Lands_needOpen hk.toKept _ _ _ fun _ => ?_
  refine Lands_andThen hk.toKept ?_ fun _ t h1 => ?_
  · split
    · exact transitionOp_kept hk _ s hc (hk.named _ _)
    · exact hk.refl s
  · have hc1 := hk.cfg h1
    refine Lands_andThen hk.toKept (clockAll_kept hk.toKept _ t (by rw [hc1]; exact hc)) fun _ u h2 => ?_
    have hc2 := hk.cfg h2
    split
    · exact transitionOp_kept hk _ u (by rw [hc2, hc1]; exact hc) (by rw [hc2, hc1]; exact ht)
    · exact hk.refl u

theorem pathSteps_kept (hk : KeptTap B T R) : ∀ (path : List TapState) (k : Nat) (s : State), s.cfg.ok = true →
    Lands R s (pathSteps k path s)
  | [], _, s, _ => hk.refl s
  | x :: rest, k, s, hc => by
    unfold pathSteps
    split
    · rename_i hx
      refine Lands_andThen hk.toKept (pulseOp_kept hk.toKept _ _ _ s hc) fun _ t h1 => ?_
      have hc1 := hk.cfg h1
      refine Lands_trans hk.toKept (hk.tap t x ?_) (pathSteps_kept hk rest _ _ (by simpa [hc1] using hc))
      rw [hc1, ← hx]; exact hk.named _ _
    · split
      · rename_i hx
        refine Lands_andThen hk.toKept (pulseOp_kept hk.toKept _ _ _ s hc) fun _ t h1 => ?_
        have hc1 := hk.cfg h1
        refine Lands_trans hk.toKept (hk.tap t x ?_) (pathSteps_kept hk rest _ _ (by simpa [hc1] using hc))
        rw [hc1, ← hx]; exact hk.named _ _
      · exact Lands_raise hk.toKept _ _ _

theorem cmdPathmoveOp_kept (hk : KeptTap B T R) (path : List TapState) (s : State) (hc : s.cfg.ok = true) :
    Lands R s (cmdPathmoveOp path s) := by
  refine Lands_needOpen hk.toKept _ _ _ fun _ => ?_
  refine Lands_andThen hk.toKept (pathSteps_kept hk path 0 s hc) fun _ t h1 => ?_
  exact Lands_map (idleOp_kept hk.toKept t (by rw [hk.cfg h1]; exact hc))

theorem cmdTmsOp_kept (hk : KeptTap B T R) (nbits : Nat) (bits : List Byte) (s : State) (hc : s.cfg.ok = true) :
    Lands R s (cmdTmsOp nbits bits s) :=
  Lands_needOpen hk.toKept _ _ _ fun _ =>
    Lands_andThen hk.toKept (clockAll_kept hk.toKept _ s hc) fun _ t _ => hk.tapEnd t

theorem adpOp_kept (hk : Kept B R) (hr : ∀ c a b, B c (resetByte c.pins a b)) (op : AdpOp) (s : State)
    (hc : s.cfg.ok = true) : Lands R s (adpOp op s) := by
  cases op with
  | emit a b c d => exact Lands_map (adpEmitOp_kept hk a b c d s hc)
  | flush => exact Lands_map (flushOp_kept hk s hc)
  | delay us => exact Lands_map (sleepOp_kept hk us s hc)
  | assertReset a b => exact Lands_map (adpAssertResetOp_kept hk a b s hc (hr _ _ _))
  | avail => exact Lands_map (Lands_needOpen hk _ _ _ fun _ => hk.refl s)
  | read => exact Lands_map (rxReadOp_kept hk s)

/-- Scans besides: they append reset bytes, write the ScanLayer's results and take a scan from outside. -/
structure KeptScan (B : Params → Byte → Prop) (T : Params → TapState → Prop) (R : State → State → Prop) : Prop
    extends KeptTap B T R where
  reset : ∀ c trst srst, B c (resetByte c.pins trst srst)
  returns : ∀ s l, R s { s with scanReturns := l }
  outside : ∀ s scans drawn, R s { s with ext := { s.ext with scans := scans, drawn := drawn } }

/-- Queues besides: they write the queue index. -/
structure KeptAll (B : Params → Byte → Prop) (T : Params → TapState → Prop) (R : State → State → Prop) : Prop
    extends KeptScan B T R where
  index : ∀ s k, R s { s with qi := k }

theorem runAdapter_kept (hk : KeptScan B T R) : ∀ (ops : List AdpOp) (s : State), s.cfg.ok = true →
    Lands R s (runAdapter ops s)
  | [], s, _ => hk.refl s
  | op :: rest, s, hc =>
    Lands_andThen hk.toKept (adpOp_kept hk.toKept hk.reset op s hc) fun _ t ht =>
      Lands_trans hk.toKept (hk.returns t _) (runAdapter_kept hk rest _ (by simpa [hk.cfg ht] using hc))

theorem cmdScanOp_kept (hk : KeptScan B T R) (payload : List Byte) (s : State) (hc : s.cfg.ok = true) :
    Lands R s (cmdScanOp payload s) := by
  refine Lands_needOpen hk.toKept _ _ _ fun _ => ?_
  have key : ∀ (run : ScanRun) (t : State), R s t → t.cfg.ok = true →
      Lands R s ((runAdapter run.ops { t with scanReturns := [] }).andThen fun _ s =>
        .done () { s with tapCur := s.cfg.tap.norm run.leaves }) := by
    intro run t ht hct
    refine Lands_trans hk.toKept (hk.trans ht (hk.returns t [])) ?_
    exact Lands_andThen hk.toKept (runAdapter_kept hk run.ops _ hct) fun _ u _ => hk.tap u _ (hk.named _ _)
  unfold nextScan
  cases hs : s.ext.scans with
  | nil =>
    simp only
    cases Config.scanReply payload s.ext.drawn with
    | hangs => trivial
    | returns run => exact key _ _ (hk.outside s s.ext.scans (s.ext.drawn + 1)) hc
  | cons r rest =>
    cases r with
    | hangs => trivial
    | returns run => exact key _ _ (hk.outside s rest s.ext.drawn) hc

/-- The TAP states a command names. -/
def commandTaps (T : Params → TapState → Prop) (p : Params) : Command → Prop
  | .runtest _ endState => T p endState
  | _ => True

theorem dispatch_kept (hk : KeptScan B T R) (c : Command) (s : State) (hc : s.cfg.ok = true)
    (ht : commandTaps T s.cfg c) : Lands R s (dispatch c s) := by
  cases c with
  | reset a b => exact cmdResetOp_kept hk.toKeptTap a b s hc (hk.reset _ _ _)
  | runtest n e => exact cmdRuntestOp_kept hk.toKeptTap n e s hc ht
  | pathmove p => exact cmdPathmoveOp_kept hk.toKeptTap p s hc
  | stableclocks n => exact cmdStableclocksOp_kept hk.toKept n s hc
  | tms n b => exact cmdTmsOp_kept hk.toKeptTap n b s hc
  | sleep us => exact sleepOp_kept hk.toKept us s hc
  | scan p => exact cmdScanOp_kept hk p s hc

theorem runQueue_kept (hk : KeptAll B T R) : ∀ (queue : List Command) (k : Nat) (s : State), s.cfg.ok = true →
    (∀ c ∈ queue, commandTaps T s.cfg c) → Lands R s (runQueue k queue s)
  | [], k, s, _, _ => hk.index s _
  | c :: rest, k, s, hc, ht => by
    refine Lands_trans hk.toKept (hk.index s (some k)) ?_
    refine Lands_andThen hk.toKept (dispatch_kept hk.toKeptScan c _ hc (ht c (by simp))) fun _ t h1 => ?_
    have hc1 : t.cfg = s.cfg := hk.cfg (s := { s with qi := some k }) h1
    exact runQueue_kept hk rest (k + 1) t (by rw [hc1]; exact hc) fun d hd => by rw [hc1]; exact ht d (by simp [hd])

theorem executeOp_kept (hk : KeptAll B T R) (queue : List Command) (s : State) (hc : s.cfg.ok = true)
    (ht : ∀ c ∈ queue, commandTaps T s.cfg c) : Lands R s (executeOp queue s) := by
  refine Lands_needOpen hk.toKept _ _ _ fun _ => ?_
  refine Lands_andThen hk.toKept (runQueue_kept hk queue 0 s hc ht) fun _ t h1 => ?_
  refine Lands_andThen hk.toKept (flushOp_kept hk.toKept t (by rw [hk.cfg h1]; exact hc)) fun _ u _ => hk.index u _

end

end Sys2Proof.Laws
end

