-- ==== Sys2Proof/Laws/Marks.lean ====
section
/-! SUPPORT. The sticky mark (spec/10_state.md R25, spec/60_exceptions.md R183): an operation that returns leaves it as it was,
and one that raises leaves it set. One lemma per operation. -/

namespace Sys2Proof.Laws

open Sys2Proof Sys2Proof.Machine Sys2Proof.Safety

/-- An operation that returns has not touched the mark, and one that raised has set it (R25, R183). -/
def Marks {α : Type} (s : State) : Res α → Prop
  | .done _ t => t.fault = s.fault
  | .raised t => t.fault ≠ none
  | .stuck _ => True

theorem Marks_andThen {α β : Type} {s : State} {r : Res α} {f : α → State → Res β} (h : Marks s r)
    (hf : ∀ a t, Marks t (f a t)) : Marks s (r.andThen f) := by
  cases r with
  | done a t =>
    have := hf a t
    simp only [andThen_done]
    cases hr : f a t with
    | done b u => rw [hr] at this; exact Eq.trans this h
    | raised u => rw [hr] at this; exact this
    | stuck e => trivial
  | raised t => exact h
  | stuck e => trivial

theorem Marks_needOpen {α : Type} (op : Op) (body : State → Res α) (s : State) (h : Marks s (body s)) :
    Marks s (needOpen op body s) := by
  unfold needOpen
  split
  · exact h
  · simp [Marks, raise]

theorem devIter_fault {f : FlushState} {s t : State} {it : Iteration} (h : devIter f s = some (it, t)) :
    t.fault = s.fault := by
  unfold devIter at h
  split at h
  · cases h
  · cases h; rfl
  · cases h; rfl

theorem flushLoop_marks : ∀ (fuel : Nat) (f : FlushState) (s : State), Marks s (flushLoop fuel f s)
  | 0, _, _ => trivial
  | fuel + 1, f, s => by
    unfold flushLoop
    split
    · split
      · trivial
      · rename_i it t heq
        have ht := devIter_fault heq
        split
        · exact ht
        · split
          · simp [Marks, raise]
          · rename_i rx _
            have := flushLoop_marks fuel { f with wpos := f.wpos + it.w.toNat, rpos := f.rpos + it.r.toNat } { t with rx := rx }
            generalize flushLoop fuel _ _ = r at this
            cases r with
            | done st u => exact Eq.trans this ht
            | raised u => exact this
            | stuck e => trivial
    · rfl

theorem flushOp_marks (s : State) : Marks s (flushOp s) := Marks_needOpen _ _ _ (flushLoop_marks _ _ _)

theorem enqOp_marks (b : Byte) (s : State) : Marks s (enqOp b s) := by
  refine Marks_needOpen _ _ _ ?_
  split
  · split
    · exact Marks_andThen (flushOp_marks s) fun _ _ => rfl
    · rfl
  · rfl

theorem Marks_map {α β : Type} {s : State} {r : Res α} (g : α → β) (h : Marks s r) : Marks s (r.map g) := by
  cases r <;> exact h

theorem Marks_raise {α : Type} (op : Op) (k : FaultKind) (s : State) : Marks s (raise op k s : Res α) := by
  simp [Marks, raise]

theorem pulseOp_marks (tms tdi sreq : Bool) (s : State) : Marks s (pulseOp tms tdi sreq s) :=
  Marks_andThen (enqOp_marks _ s) fun _ t => Marks_andThen (enqOp_marks _ t) fun _ _ => rfl

theorem idleOp_marks (s : State) : Marks s (idleOp s) := enqOp_marks _ s

theorem clockAll_marks : ∀ (bits : List Bool) (s : State), Marks s (clockAll bits s)
  | [], _ => rfl
  | _ :: rest, s => Marks_andThen (pulseOp_marks _ _ _ s) fun _ t => clockAll_marks rest t

theorem transitionOp_marks (target : TapState) (s : State) : Marks s (transitionOp target s) := by
  refine Marks_needOpen _ _ _ ?_
  split
  · split
    · exact Marks_raise _ _ _
    · exact Marks_andThen (clockAll_marks _ s) fun _ t => Marks_andThen (idleOp_marks t) fun _ _ => rfl
  · exact Marks_raise _ _ _

theorem sleepOp_marks (us : Nat) (s : State) : Marks s (sleepOp us s) :=
  Marks_needOpen _ _ _ (Marks_andThen (flushOp_marks s) fun _ _ => rfl)

theorem cmdResetOp_marks (trst srst : Bool) (s : State) : Marks s (cmdResetOp trst srst s) := by
  refine Marks_needOpen _ _ _ (Marks_map _ ?_)
  split
  · exact enqOp_marks (resetByte s.cfg.pins trst srst) { s with tapCur := tapReset s.cfg.tap }
  · exact enqOp_marks _ s

theorem cmdRuntestOp_marks (cycles : Nat) (endState : TapState) (s : State) : Marks s (cmdRuntestOp cycles endState s) := by
  refine Marks_needOpen _ _ _ (Marks_andThen ?_ fun _ t => Marks_andThen (clockAll_marks _ t) fun _ u => ?_)
  · split
    · exact transitionOp_marks _ s
    · rfl
  · split
    · exact transitionOp_marks _ u
    · rfl

theorem cmdStableclocksOp_marks (cycles : Nat) (s : State) : Marks s (cmdStableclocksOp cycles s) := by
  refine Marks_needOpen _ _ _ ?_
  split
  · exact clockAll_marks _ s
  · exact Marks_raise _ _ _

theorem pathSteps_marks : ∀ (path : List TapState) (k : Nat) (s : State), Marks s (pathSteps k path s)
  | [], _, _ => rfl
  | t :: rest, k, s => by
    unfold pathSteps
    split
    · exact Marks_andThen (pulseOp_marks _ _ _ s) fun _ u => pathSteps_marks rest (k + 1) { u with tapCur := t }
    · split
      · exact Marks_andThen (pulseOp_marks _ _ _ s) fun _ u => pathSteps_marks rest (k + 1) { u with tapCur := t }
      · exact Marks_raise _ _ _

theorem cmdPathmoveOp_marks (path : List TapState) (s : State) : Marks s (cmdPathmoveOp path s) :=
  Marks_needOpen _ _ _ (Marks_andThen (pathSteps_marks path 0 s) fun _ t => Marks_map _ (idleOp_marks t))

theorem cmdTmsOp_marks (nbits : Nat) (bits : List Byte) (s : State) : Marks s (cmdTmsOp nbits bits s) :=
  Marks_needOpen _ _ _ (Marks_andThen (clockAll_marks _ s) fun _ _ => rfl)

theorem rxReadOp_marks (s : State) : Marks s (rxReadOp s) := by
  refine Marks_needOpen _ _ _ ?_
  split <;> rfl

theorem adpOp_marks (op : AdpOp) (s : State) : Marks s (adpOp op s) := by
  cases op with
  | emit a b c d => exact Marks_map _ (Marks_needOpen _ _ _ (enqOp_marks _ s))
  | flush => exact Marks_map _ (flushOp_marks s)
  | delay us => exact Marks_map _ (sleepOp_marks us s)
  | assertReset a b => exact Marks_map _ (Marks_needOpen _ _ _ (enqOp_marks _ s))
  | avail => exact Marks_map _ (Marks_needOpen _ _ _ rfl)
  | read => exact Marks_map _ (rxReadOp_marks s)

theorem runAdapter_marks : ∀ (ops : List AdpOp) (s : State), Marks s (runAdapter ops s)
  | [], _ => rfl
  | op :: rest, s => Marks_andThen (adpOp_marks op s) fun v t =>
      runAdapter_marks rest { t with scanReturns := t.scanReturns ++ [v] }

theorem cmdScanOp_marks (payload : List Byte) (s : State) : Marks s (cmdScanOp payload s) := by
  refine Marks_needOpen _ _ _ ?_
  unfold nextScan
  split
  · trivial
  · rename_i run t h
    have ht : t.fault = s.fault := by
      split at h
      · cases h
      · cases h; rfl
      · split at h
        · cases h
        · cases h; rfl
    have := Marks_andThen (f := fun (_ : Unit) (s : State) => Res.done () { s with tapCur := s.cfg.tap.norm run.leaves })
      (runAdapter_marks run.ops { t with scanReturns := [] }) fun _ _ => rfl
    generalize Res.andThen (runAdapter run.ops _) _ = r at this
    cases r with
    | done a u => exact Eq.trans this ht
    | raised u => exact this
    | stuck e => trivial

theorem dispatch_marks (c : Command) (s : State) : Marks s (dispatch c s) := by
  cases c with
  | reset a b => exact cmdResetOp_marks a b s
  | runtest n e => exact cmdRuntestOp_marks n e s
  | pathmove p => exact cmdPathmoveOp_marks p s
  | stableclocks n => exact cmdStableclocksOp_marks n s
  | tms n b => exact cmdTmsOp_marks n b s
  | sleep us => exact sleepOp_marks us s
  | scan p => exact cmdScanOp_marks p s

end Sys2Proof.Laws
end

