-- ==== Sys2Proof/Laws/Overlay.lean ====
section
/-! SUPPORT. No operation reads a history, the calls on the Device, the value the last operation returned or (but for scans
and queues, which write them) the ScanLayer's results and the queue index (spec/10_state.md R27, R29; spec/60_exceptions.md
R197): each operation commutes with a change of those fields, an `Overlay`. An overlay may also replace `tap_cur`, which no
append, flush, read or adapter operation reads (R21); for the operations that do, the lemmas ask for one that keeps it. -/

namespace Sys2Proof.Laws

open Sys2Proof Sys2Proof.Machine Sys2Proof.Safety

/-- A change of the fields no operation reads: elements before those of the histories, and values in place of the rest. -/
structure Overlay where
  events : List Event
  out : List Byte
  inn : List Byte
  calls : List DevCall
  qi : Option (Option Nat)
  ret : Option OpResult
  returns : Option (List OpResult)
  tap : Option TapState

/-- The state with that change. -/
def overlaid (o : Overlay) (s : State) : State :=
  { s with events := o.events ++ s.events, wireOut := o.out ++ s.wireOut, wireIn := o.inn ++ s.wireIn,
           devCalls := o.calls ++ s.devCalls, qi := o.qi.getD s.qi, ret := o.ret.getD s.ret,
           scanReturns := o.returns.getD s.scanReturns, tapCur := o.tap.getD s.tapCur }

/-- The end of an operation with its state changed. -/
def mapEnd {α : Type} (g : State → State) : Res α → Res α
  | .done a s => .done a (g s)
  | .raised s => .raised (g s)
  | .stuck f => .stuck f

/-- An operation that commutes with a change of state. -/
def Commutes {α : Type} (g : State → State) (op : State → Res α) : Prop := ∀ s, op (g s) = mapEnd g (op s)

theorem mapEnd_andThen {α β : Type} {g : State → State} {f : α → State → Res β} (hf : ∀ a, Commutes g (f a)) (r : Res α) :
    (mapEnd g r).andThen f = mapEnd g (r.andThen f) := by
  cases r with
  | done a s => exact hf a s
  | raised s => rfl
  | stuck e => rfl

theorem Commutes_andThen {α β : Type} {g : State → State} {op : State → Res α} {f : α → State → Res β}
    (h : Commutes g op) (hf : ∀ a, Commutes g (f a)) : Commutes g fun s => (op s).andThen f := by
  intro s; simp only [h s]; exact mapEnd_andThen hf _

theorem Commutes_map {α β : Type} {g : State → State} {op : State → Res α} (k : α → β) (h : Commutes g op) :
    Commutes g fun s => (op s).map k := by
  intro s
  simp only [h s]
  cases op s <;> rfl

theorem Commutes_ite {α : Type} {g : State → State} {c : State → Prop} [∀ s, Decidable (c s)] {a b : State → Res α}
    (hc : ∀ s, c (g s) ↔ c s) (ha : Commutes g a) (hb : Commutes g b) : Commutes g fun s => if c s then a s else b s := by
  intro s
  by_cases h : c s
  · simp only [if_pos h, if_pos ((hc s).2 h)]; exact ha s
  · simp only [if_neg h, if_neg fun h' => h ((hc s).1 h')]; exact hb s

theorem Commutes_done {α : Type} {g : State → State} (a : α) : Commutes g (Res.done a) := fun _ => rfl

section

variable (o : Overlay)

@[simp] theorem overlaid_cfg (s : State) : (overlaid o s).cfg = s.cfg := rfl
@[simp] theorem overlaid_isOpen (s : State) : (overlaid o s).isOpen = s.isOpen := rfl
@[simp] theorem overlaid_tx (s : State) : (overlaid o s).tx = s.tx := rfl
@[simp] theorem overlaid_rx (s : State) : (overlaid o s).rx = s.rx := rfl
@[simp] theorem overlaid_tapEnd (s : State) : (overlaid o s).tapEnd = s.tapEnd := rfl
@[simp] theorem overlaid_ext (s : State) : (overlaid o s).ext = s.ext := rfl

theorem Commutes_raise {α : Type} (op : Op) (k : FaultKind) : Commutes (overlaid o) (raise op k : State → Res α) := fun _ => rfl

theorem Commutes_needOpen {α : Type} (op : Op) {body : State → Res α} (h : Commutes (overlaid o) body) :
    Commutes (overlaid o) (needOpen op body) := by
  intro s
  unfold needOpen
  show (if s.isOpen then _ else _) = _
  split
  · exact h s
  · rfl

theorem encodeOp_overlaid (tck tms tdi sreq : Bool) : Commutes (overlaid o) (encodeOp tck tms tdi sreq) :=
  Commutes_needOpen o _ fun _ => rfl

theorem encodeRstOp_overlaid (trst srst : Bool) : Commutes (overlaid o) (encodeRstOp trst srst) :=
  Commutes_needOpen o _ fun _ => rfl

theorem devIter_overlaid (f : FlushState) (s : State) :
    devIter f (overlaid o s) = (devIter f s).map fun p => (p.1, overlaid o p.2) := by
  unfold devIter
  simp only [overlaid_ext, overlaid_cfg]
  split
  · rfl
  · simp only [Option.map_some, overlaid, List.append_assoc]
  · simp only [Option.map_some, overlaid, List.append_assoc]

theorem flushLoop_overlaid : ∀ (fuel : Nat) (f : FlushState), Commutes (overlaid o) (flushLoop fuel f)
  | 0, _, _ => rfl
  | fuel + 1, f, s => by
    unfold flushLoop
    split
    · rw [devIter_overlaid]
      cases devIter f s with
      | none => rfl
      | some p =>
        obtain ⟨it, s1⟩ := p
        simp only [Option.map_some]
        split
        · simp only [mapEnd, transportFail, warn, overlaid, List.append_assoc]
        · have hk : keepSamples (overlaid o s1).cfg (f.snap.drop f.rpos) it.data (overlaid o s1).rx =
              keepSamples s1.cfg (f.snap.drop f.rpos) it.data s1.rx := rfl
          rw [hk]
          rcases keepSamples s1.cfg (f.snap.drop f.rpos) it.data s1.rx with ⟨rx, b⟩
          cases b with
          | true => rfl
          | false => exact flushLoop_overlaid fuel _ { s1 with rx := rx }
    · rfl

theorem flushOp_overlaid : Commutes (overlaid o) flushOp :=
  Commutes_needOpen o _ fun s => flushLoop_overlaid o (flushFuel s) { snap := s.tx, wpos := 0, rpos := 0 } s

theorem enqOp_overlaid (b : Byte) : Commutes (overlaid o) (enqOp b) := by
  refine Commutes_needOpen o _ (Commutes_ite (c := fun s : State => s.tx.length = s.cfg.txCap) (fun _ => Iff.rfl)
    (fun s => ?_) fun _ => rfl)
  simp only [overlaid_cfg]
  split
  · exact Commutes_andThen (flushOp_overlaid o) (f := fun _ s => .done Status.ok { s with tx := s.tx ++ [b] }) (fun _ _ => rfl) s
  · simp only [mapEnd, warn, overlaid, List.append_assoc]

theorem pulseOp_overlaid (tms tdi sreq : Bool) : Commutes (overlaid o) (pulseOp tms tdi sreq) := by
  intro s
  have h1 := enqOp_overlaid o (pinByte s.cfg.pins false tms tdi false) s
  show (enqOp (pinByte s.cfg.pins false tms tdi false) (overlaid o s)).andThen _ = _
  rw [h1]
  refine mapEnd_andThen (fun st t => ?_) _
  have h2 := enqOp_overlaid o (pinByte t.cfg.pins true tms tdi sreq) t
  show (enqOp (pinByte t.cfg.pins true tms tdi sreq) (overlaid o t)).andThen _ = _
  rw [h2]
  exact mapEnd_andThen (fun _ _ => rfl) _

theorem idleOp_overlaid : Commutes (overlaid o) idleOp := fun s => enqOp_overlaid o (pinByte s.cfg.pins false false false false) s

theorem clockAll_overlaid : ∀ bits : List Bool, Commutes (overlaid o) (clockAll bits)
  | [] => fun _ => rfl
  | _ :: rest => Commutes_andThen (pulseOp_overlaid o _ _ _) fun _ => clockAll_overlaid rest

theorem availOp_overlaid (buf : Buf) : Commutes (overlaid o) (availOp buf) :=
  Commutes_needOpen o _ fun _ => by cases buf <;> rfl

theorem emptyOp_overlaid (buf : Buf) : Commutes (overlaid o) (emptyOp buf) :=
  Commutes_needOpen o _ fun _ => by cases buf <;> rfl

theorem fullOp_overlaid (buf : Buf) : Commutes (overlaid o) (fullOp buf) :=
  Commutes_needOpen o _ fun _ => by cases buf <;> rfl

theorem rxReadOp_overlaid : Commutes (overlaid o) rxReadOp := by
  refine Commutes_needOpen o _ fun s => ?_
  simp only [overlaid_rx]
  split <;> rfl

theorem transitionOp_overlaid (ht : o.tap = none) (target : TapState) : Commutes (overlaid o) (transitionOp target) := by
  cases o; subst ht
  exact Commutes_needOpen _ _ (Commutes_ite (c := fun s : State => tapStable s.cfg.tap target = true) (fun _ => Iff.rfl)
    (Commutes_ite (c := fun s : State => 8 < (tapPath s.cfg.tap s.tapCur target).count) (fun _ => Iff.rfl) (fun _ => rfl)
      fun s => Commutes_andThen (clockAll_overlaid _ (pathBits (tapPath s.cfg.tap s.tapCur target)))
        (f := fun _ s => (idleOp s).andThen fun _ s => .done () { s with tapCur := target })
        (fun _ => Commutes_andThen (idleOp_overlaid _) fun _ _ => rfl) s) fun _ => rfl)

theorem sleepOp_overlaid (us : Nat) : Commutes (overlaid o) (sleepOp us) :=
  Commutes_needOpen o _ (Commutes_andThen (flushOp_overlaid o) fun _ s => by
    simp only [mapEnd, overlaid, List.append_assoc])

theorem cmdResetOp_overlaid (ht : o.tap = none) (trst srst : Bool) : Commutes (overlaid o) (cmdResetOp trst srst) := by
  cases o; subst ht
  refine Commutes_needOpen _ _ fun s => ?_
  generalize ho : Overlay.mk _ _ _ _ _ _ _ none = o
  have h : ∀ t : State, (enqOp (resetByte s.cfg.pins trst srst) (overlaid o t)).map (fun _ => ()) =
      mapEnd (overlaid o) ((enqOp (resetByte s.cfg.pins trst srst) t).map fun _ => ()) :=
    fun t => Commutes_map _ (enqOp_overlaid o _) t
  by_cases hc : trst ∨ (srst ∧ s.cfg.srstPullsTrst)
  · have hc' : trst ∨ (srst ∧ (overlaid o s).cfg.srstPullsTrst) := hc
    rw [if_pos hc, if_pos hc']; subst ho; exact h { s with tapCur := tapReset s.cfg.tap }
  · have hc' : ¬ (trst ∨ (srst ∧ (overlaid o s).cfg.srstPullsTrst)) := hc
    rw [if_neg hc, if_neg hc']; exact h s

theorem cmdRuntestOp_overlaid (ht : o.tap = none) (cycles : Nat) (endState : TapState) :
    Commutes (overlaid o) (cmdRuntestOp cycles endState) := by
  cases o; subst ht
  exact Commutes_needOpen _ _ (Commutes_andThen
    (Commutes_ite (c := fun s : State => s.tapCur ≠ tapIdle s.cfg.tap) (fun _ => Iff.rfl)
      (fun s => transitionOp_overlaid _ rfl (tapIdle s.cfg.tap) s) fun _ => rfl)
    fun _ => Commutes_andThen (clockAll_overlaid _ _) fun _ =>
      Commutes_ite (c := fun s : State => endState ≠ s.tapCur) (fun _ => Iff.rfl) (transitionOp_overlaid _ rfl endState)
        fun _ => rfl)

theorem cmdStableclocksOp_overlaid (ht : o.tap = none) (cycles : Nat) :
    Commutes (overlaid o) (cmdStableclocksOp cycles) := by
  cases o; subst ht
  exact Commutes_needOpen _ _ (Commutes_ite (c := fun s : State => tapStable s.cfg.tap s.tapCur = true) (fun _ => Iff.rfl)
    (fun s => clockAll_overlaid _ (List.replicate cycles (decide (s.tapCur = tapReset s.cfg.tap))) s) fun _ => rfl)

theorem pathSteps_overlaid (ht : o.tap = none) : ∀ (path : List TapState) (k : Nat), Commutes (overlaid o) (pathSteps k path)
  | [], _ => fun _ => rfl
  | t :: rest, k => by
    have ih := pathSteps_overlaid ht rest (k + 1)
    cases o; subst ht
    have h : ∀ tms : Bool, Commutes (overlaid _) fun s : State =>
        (pulseOp tms false false s).andThen fun _ s => pathSteps (k + 1) rest { s with tapCur := t } :=
      fun tms => Commutes_andThen (pulseOp_overlaid _ tms false false) fun _ s => ih { s with tapCur := t }
    exact Commutes_ite (c := fun s : State => tapSucc s.cfg.tap s.tapCur false = t) (fun _ => Iff.rfl) (h false)
      (Commutes_ite (c := fun s : State => tapSucc s.cfg.tap s.tapCur true = t) (fun _ => Iff.rfl) (h true) fun _ => rfl)

theorem cmdPathmoveOp_overlaid (ht : o.tap = none) (path : List TapState) : Commutes (overlaid o) (cmdPathmoveOp path) :=
  Commutes_needOpen o _ (Commutes_andThen (pathSteps_overlaid o ht path 0) fun _ => Commutes_map _ (idleOp_overlaid o))

theorem cmdTmsOp_overlaid (ht : o.tap = none) (nbits : Nat) (bits : List Byte) :
    Commutes (overlaid o) (cmdTmsOp nbits bits) := by
  cases o; subst ht
  exact Commutes_needOpen _ _ (Commutes_andThen (clockAll_overlaid _ _) fun _ _ => rfl)

theorem adpEmitOp_overlaid (a b c d : Bool) : Commutes (overlaid o) (adpEmitOp a b c d) :=
  Commutes_needOpen o _ fun s => enqOp_overlaid o (pinByte s.cfg.pins a b c d) s

theorem adpAssertResetOp_overlaid (a b : Bool) : Commutes (overlaid o) (adpAssertResetOp a b) :=
  Commutes_needOpen o _ fun s => enqOp_overlaid o (resetByte s.cfg.pins a b) s

theorem adpOp_overlaid (op : AdpOp) : Commutes (overlaid o) (adpOp op) := by
  cases op with
  | emit a b c d => exact Commutes_map _ (adpEmitOp_overlaid o a b c d)
  | flush => exact Commutes_map _ (flushOp_overlaid o)
  | delay us => exact Commutes_map _ (sleepOp_overlaid o us)
  | assertReset a b => exact Commutes_map _ (adpAssertResetOp_overlaid o a b)
  | avail => exact Commutes_map _ (availOp_overlaid o .rx)
  | read => exact Commutes_map _ (rxReadOp_overlaid o)

/-! A scan writes the ScanLayer's results. -/

variable {o}

theorem runAdapter_overlaid (ho : o.returns = none) : ∀ ops : List AdpOp, Commutes (overlaid o) (runAdapter ops)
  | [] => fun _ => rfl
  | op :: rest => Commutes_andThen (adpOp_overlaid o op) fun v s => by
    have := runAdapter_overlaid ho rest { s with scanReturns := s.scanReturns ++ [v] }
    rw [← this]
    simp only [overlaid, ho, Option.getD_none]

theorem nextScan_overlaid (payload : List Byte) (s : State) :
    nextScan payload (overlaid o s) = (nextScan payload s).map fun p => (p.1, overlaid o p.2) := by
  unfold nextScan
  simp only [overlaid_ext]
  cases s.ext.scans with
  | nil => cases Config.scanReply payload s.ext.drawn <;> rfl
  | cons r rest => cases r <;> rfl

theorem cmdScanOp_overlaid (ho : o.returns = none) (ht : o.tap = none) (payload : List Byte) :
    Commutes (overlaid o) (cmdScanOp payload) := by
  refine Commutes_needOpen o _ fun s => ?_
  simp only [nextScan_overlaid]
  cases nextScan payload s with
  | none => rfl
  | some p =>
    have h := Commutes_andThen (runAdapter_overlaid ho p.1.ops)
      (f := fun _ s => .done () { s with tapCur := s.cfg.tap.norm p.1.leaves })
      (fun _ s => by simp only [mapEnd, overlaid, ht, Option.getD_none]) { p.2 with scanReturns := [] }
    simp only [overlaid, ho, ht, Option.getD_none] at h
    simp only [Option.map_some, overlaid, ho, ht, Option.getD_none]
    exact h

theorem dispatch_overlaid (ho : o.returns = none) (ht : o.tap = none) (c : Command) : Commutes (overlaid o) (dispatch c) := by
  cases c with
  | reset a b => exact cmdResetOp_overlaid o ht a b
  | runtest n e => exact cmdRuntestOp_overlaid o ht n e
  | pathmove p => exact cmdPathmoveOp_overlaid o ht p
  | stableclocks n => exact cmdStableclocksOp_overlaid o ht n
  | tms n b => exact cmdTmsOp_overlaid o ht n b
  | sleep us => exact sleepOp_overlaid o us
  | scan p => exact cmdScanOp_overlaid ho ht p

/-! A queue writes the queue index. -/

theorem runQueue_overlaid (ho : o.returns = none) (hq : o.qi = none) (ht : o.tap = none) :
    ∀ (queue : List Command) (k : Nat), Commutes (overlaid o) (runQueue k queue)
  | [], k => fun s => by simp only [runQueue, mapEnd, overlaid, hq, Option.getD_none]
  | c :: rest, k => fun s => by
    have h : { overlaid o s with qi := some k } = overlaid o { s with qi := some k } := by
      simp only [overlaid, hq, Option.getD_none]
    show (dispatch c { overlaid o s with qi := some k }).andThen _ = _
    rw [h, dispatch_overlaid ho ht c]
    exact mapEnd_andThen (fun _ => runQueue_overlaid ho hq ht rest (k + 1)) (dispatch c { s with qi := some k })

theorem executeOp_overlaid (ho : o.returns = none) (hq : o.qi = none) (ht : o.tap = none) (queue : List Command) :
    Commutes (overlaid o) (executeOp queue) :=
  Commutes_needOpen o _ (Commutes_andThen (runQueue_overlaid ho hq ht queue 0) fun _ =>
    Commutes_andThen (flushOp_overlaid o) fun _ s => by simp only [mapEnd, overlaid, hq, Option.getD_none])

end

end Sys2Proof.Laws
end

