-- ==== Sys2Proof/Laws/PerInstr.lean ====
section
/-! SUPPORT. What holds of every operation as syntax, one lemma per constructor: the operation word begins with the opcode
of the opcode map, and the decoder reads that opcode as this operation (spec/30_encoding.md R67, R68). -/

namespace Sys2Proof.Laws

open Sys2Proof

/-- The word of an operation is its opcode followed by its operands, and its opcode selects its operands' reader. -/
def OpcodeLeads.Statement (i : Instr) : Prop :=
  (∃ operands, encode i = BitVec.ofNat 8 (opCode i.op) :: operands) ∧ opOfCode (BitVec.ofNat 8 (opCode i.op)).toNat = some i.op

theorem OpcodeLeads.encode (tck tms tdi sreq : Bool) : OpcodeLeads.Statement (.encode tck tms tdi sreq) := ⟨⟨_, rfl⟩, rfl⟩

theorem OpcodeLeads.encodeRst (trst srst : Bool) : OpcodeLeads.Statement (.encodeRst trst srst) := ⟨⟨_, rfl⟩, rfl⟩

theorem OpcodeLeads.enq (b : Byte) : OpcodeLeads.Statement (.enq b) := ⟨⟨_, rfl⟩, rfl⟩

theorem OpcodeLeads.pulse (tms tdi sreq : Bool) : OpcodeLeads.Statement (.pulse tms tdi sreq) := ⟨⟨_, rfl⟩, rfl⟩

theorem OpcodeLeads.idle : OpcodeLeads.Statement (.idle) := ⟨⟨_, rfl⟩, rfl⟩

theorem OpcodeLeads.qAvail (buf : Buf) : OpcodeLeads.Statement (.qAvail buf) := ⟨⟨_, rfl⟩, rfl⟩

theorem OpcodeLeads.qEmpty (buf : Buf) : OpcodeLeads.Statement (.qEmpty buf) := ⟨⟨_, rfl⟩, rfl⟩

theorem OpcodeLeads.qFull (buf : Buf) : OpcodeLeads.Statement (.qFull buf) := ⟨⟨_, rfl⟩, rfl⟩

theorem OpcodeLeads.flush : OpcodeLeads.Statement (.flush) := ⟨⟨_, rfl⟩, rfl⟩

theorem OpcodeLeads.rxRead : OpcodeLeads.Statement (.rxRead) := ⟨⟨_, rfl⟩, rfl⟩

theorem OpcodeLeads.transition (target : TapState) : OpcodeLeads.Statement (.transition target) := ⟨⟨_, rfl⟩, rfl⟩

theorem OpcodeLeads.cmdReset (trst srst : Bool) : OpcodeLeads.Statement (.cmdReset trst srst) := ⟨⟨_, rfl⟩, rfl⟩

theorem OpcodeLeads.cmdRuntest (cycles : Nat) (endState : TapState) : OpcodeLeads.Statement (.cmdRuntest cycles endState) := ⟨⟨_, rfl⟩, rfl⟩

theorem OpcodeLeads.cmdPathmove (path : List TapState) : OpcodeLeads.Statement (.cmdPathmove path) := ⟨⟨_, rfl⟩, rfl⟩

theorem OpcodeLeads.cmdStableclocks (cycles : Nat) : OpcodeLeads.Statement (.cmdStableclocks cycles) := ⟨⟨_, rfl⟩, rfl⟩

theorem OpcodeLeads.cmdTms (nbits : Nat) (bits : List Byte) : OpcodeLeads.Statement (.cmdTms nbits bits) := ⟨⟨_, rfl⟩, rfl⟩

theorem OpcodeLeads.cmdSleep (us : Nat) : OpcodeLeads.Statement (.cmdSleep us) := ⟨⟨_, rfl⟩, rfl⟩

theorem OpcodeLeads.cmdScan (payload : List Byte) : OpcodeLeads.Statement (.cmdScan payload) := ⟨⟨_, rfl⟩, rfl⟩

theorem OpcodeLeads.adpEmit (clock select data sampleRequest : Bool) : OpcodeLeads.Statement (.adpEmit clock select data sampleRequest) := ⟨⟨_, rfl⟩, rfl⟩

theorem OpcodeLeads.adpFlush : OpcodeLeads.Statement (.adpFlush) := ⟨⟨_, rfl⟩, rfl⟩

theorem OpcodeLeads.adpDelay (us : Nat) : OpcodeLeads.Statement (.adpDelay us) := ⟨⟨_, rfl⟩, rfl⟩

theorem OpcodeLeads.adpAssertReset (lineA lineB : Bool) : OpcodeLeads.Statement (.adpAssertReset lineA lineB) := ⟨⟨_, rfl⟩, rfl⟩

theorem OpcodeLeads.adpAvail : OpcodeLeads.Statement (.adpAvail) := ⟨⟨_, rfl⟩, rfl⟩

theorem OpcodeLeads.adpRead : OpcodeLeads.Statement (.adpRead) := ⟨⟨_, rfl⟩, rfl⟩

theorem OpcodeLeads.openSession : OpcodeLeads.Statement (.openSession) := ⟨⟨_, rfl⟩, rfl⟩

theorem OpcodeLeads.closeSession : OpcodeLeads.Statement (.closeSession) := ⟨⟨_, rfl⟩, rfl⟩

theorem OpcodeLeads.setSpeed (khz : Nat) : OpcodeLeads.Statement (.setSpeed khz) := ⟨⟨_, rfl⟩, rfl⟩

theorem OpcodeLeads.speedToKhz (speed : Nat) : OpcodeLeads.Statement (.speedToKhz speed) := ⟨⟨_, rfl⟩, rfl⟩

theorem OpcodeLeads.khzToSpeed (khz : Int) : OpcodeLeads.Statement (.khzToSpeed khz) := ⟨⟨_, rfl⟩, rfl⟩

theorem OpcodeLeads.setLatency (args : List ArgString) : OpcodeLeads.Statement (.setLatency args) := ⟨⟨_, rfl⟩, rfl⟩

theorem OpcodeLeads.execute (queue : List Command) : OpcodeLeads.Statement (.execute queue) := ⟨⟨_, rfl⟩, rfl⟩

end Sys2Proof.Laws
end

