-- ==== Sys2Proof/Tests/Reference.lean ====
section
/-! SUPPORT. What the tests run on: the reference parameters of spec/95_test_vectors.md, the reference TapService of
spec/93_implementation_defined.md section 3 (log 30), and small states. -/

namespace Sys2Proof.Tests

open Sys2Proof Sys2Proof.Machine Sys2Proof.Safety

/-- A row of the reference table: the paths to the six stable states RESET, IDLE, DRSHIFT, DRPAUSE, IRSHIFT, IRPAUSE; the
empty path to the others, which the table does not list. -/
def referenceRow (stable : Bool) (succ0 succ1 : TapState) (reset idle drshift drpause irshift irpause : TapMove) : TapRow where
  stable := stable
  succ0 := succ0
  succ1 := succ1
  paths :=
    [reset, idle, ⟨0, 0⟩, ⟨0, 0⟩, drshift, ⟨0, 0⟩, drpause, ⟨0, 0⟩, ⟨0, 0⟩, ⟨0, 0⟩, ⟨0, 0⟩, irshift, ⟨0, 0⟩, irpause, ⟨0, 0⟩, ⟨0, 0⟩]

/-- RESET. -/
def row0 : TapRow := referenceRow true 1 0 ⟨0x00, 0⟩ ⟨0x00, 1⟩ ⟨0x02, 4⟩ ⟨0x0A, 5⟩ ⟨0x06, 5⟩ ⟨0x16, 6⟩

/-- IDLE. -/
def row1 : TapRow := referenceRow true 1 2 ⟨0x07, 3⟩ ⟨0x00, 0⟩ ⟨0x01, 3⟩ ⟨0x05, 4⟩ ⟨0x03, 4⟩ ⟨0x0B, 5⟩

/-- DRSELECT. -/
def row2 : TapRow := referenceRow false 3 9 ⟨0x03, 2⟩ ⟨0x03, 3⟩ ⟨0x00, 2⟩ ⟨0x02, 3⟩ ⟨0x01, 3⟩ ⟨0x05, 4⟩

/-- DRCAPTURE. -/
def row3 : TapRow := referenceRow false 4 5 ⟨0x1F, 5⟩ ⟨0x03, 3⟩ ⟨0x00, 1⟩ ⟨0x01, 2⟩ ⟨0x0F, 6⟩ ⟨0x2F, 7⟩

/-- DRSHIFT. -/
def row4 : TapRow := referenceRow true 4 5 ⟨0x1F, 5⟩ ⟨0x03, 3⟩ ⟨0x00, 0⟩ ⟨0x01, 2⟩ ⟨0x0F, 6⟩ ⟨0x2F, 7⟩

/-- DREXIT1. -/
def row5 : TapRow := referenceRow false 6 8 ⟨0x0F, 4⟩ ⟨0x01, 2⟩ ⟨0x02, 3⟩ ⟨0x00, 1⟩ ⟨0x07, 5⟩ ⟨0x17, 6⟩

/-- DRPAUSE. -/
def row6 : TapRow := referenceRow true 6 7 ⟨0x1F, 5⟩ ⟨0x03, 3⟩ ⟨0x01, 2⟩ ⟨0x00, 0⟩ ⟨0x0F, 6⟩ ⟨0x2F, 7⟩

/-- DREXIT2. -/
def row7 : TapRow := referenceRow false 4 8 ⟨0x0F, 4⟩ ⟨0x01, 2⟩ ⟨0x00, 1⟩ ⟨0x02, 3⟩ ⟨0x07, 5⟩ ⟨0x17, 6⟩

/-- DRUPDATE. -/
def row8 : TapRow := referenceRow false 1 2 ⟨0x07, 3⟩ ⟨0x00, 1⟩ ⟨0x01, 3⟩ ⟨0x05, 4⟩ ⟨0x03, 4⟩ ⟨0x0B, 5⟩

/-- IRSELECT. -/
def row9 : TapRow := referenceRow false 10 0 ⟨0x01, 1⟩ ⟨0x01, 2⟩ ⟨0x05, 5⟩ ⟨0x15, 6⟩ ⟨0x00, 2⟩ ⟨0x02, 3⟩

/-- IRCAPTURE. -/
def row10 : TapRow := referenceRow false 11 12 ⟨0x1F, 5⟩ ⟨0x03, 3⟩ ⟨0x07, 5⟩ ⟨0x17, 6⟩ ⟨0x00, 1⟩ ⟨0x01, 2⟩

/-- IRSHIFT. -/
def row11 : TapRow := referenceRow true 11 12 ⟨0x1F, 5⟩ ⟨0x03, 3⟩ ⟨0x07, 5⟩ ⟨0x17, 6⟩ ⟨0x00, 0⟩ ⟨0x01, 2⟩

/-- IREXIT1. -/
def row12 : TapRow := referenceRow false 13 15 ⟨0x0F, 4⟩ ⟨0x01, 2⟩ ⟨0x03, 4⟩ ⟨0x0B, 5⟩ ⟨0x02, 3⟩ ⟨0x00, 1⟩

/-- IRPAUSE. -/
def row13 : TapRow := referenceRow true 13 14 ⟨0x1F, 5⟩ ⟨0x03, 3⟩ ⟨0x07, 5⟩ ⟨0x17, 6⟩ ⟨0x01, 2⟩ ⟨0x00, 0⟩

/-- IREXIT2. -/
def row14 : TapRow := referenceRow false 11 15 ⟨0x0F, 4⟩ ⟨0x01, 2⟩ ⟨0x03, 4⟩ ⟨0x0B, 5⟩ ⟨0x00, 1⟩ ⟨0x02, 3⟩

/-- IRUPDATE. -/
def row15 : TapRow := referenceRow false 1 2 ⟨0x07, 3⟩ ⟨0x00, 1⟩ ⟨0x01, 3⟩ ⟨0x05, 4⟩ ⟨0x03, 4⟩ ⟨0x0B, 5⟩

/-- The reference TapService: the IEEE 1149.1 TAP controller. -/
def referenceTap : TapService where
  first := row0
  others := [row1, row2, row3, row4, row5, row6, row7] ++ [row8, row9, row10, row11, row12, row13, row14, row15]
  resetName := 0
  idleName := 1

/-- The names of its states, by index. -/
def stateNames : List String :=
  ["RESET", "IDLE", "DRSELECT", "DRCAPTURE", "DRSHIFT", "DREXIT1", "DRPAUSE", "DREXIT2"] ++
    ["DRUPDATE", "IRSELECT", "IRCAPTURE", "IRSHIFT", "IREXIT1", "IRPAUSE", "IREXIT2", "IRUPDATE"]

/-- The reference parameters (R5); the identity, mask and initial values are the tests' own. -/
def referenceParams : Params where
  txCap := 64
  rxCap := 64
  frame := 256
  policy := .flushOnFull
  pins := Config.referencePins
  rxForm := .bit
  srstPullsTrst := false
  outputMask := 0x3F
  devVid := 0x0403
  devPid := 0x6001
  initKhz := 1000
  initLatency := 16
  tap := referenceTap

/-- An answer of a "full" Device. -/
def fullAnswer : DevAnswer := { w := 20000, r := 20000, data := [], fill := 0, lost := 0 }

/-- An answer that gives the listed samples. -/
def answer (w r : Int) (data : List Byte) : DevReply := .answers { w := w, r := r, data := data, fill := 0, lost := 0 }

/-- Power-on of the reference machine, with TAP states IDLE and IRPAUSE. -/
def closedState : State := State.powerOn referenceParams 1 13

/-- A session open on it, with a full Device for four iterations and OK primitives. -/
def openState : State :=
  { closedState with
    isOpen := true,
    ext := { Outside.empty with replies := List.replicate 4 (.answers fullAnswer), primitives := [true, true, true, true] } }

/-- The state an outcome holds, if it is a next state. -/
def nextState : Host.Outcome State Fault Refusal → Option State
  | .next s => some s
  | .fault _ => none
  | .refused _ => none

/-- The fault an outcome stops with, if it does. -/
def stopFault : Host.Outcome State Fault Refusal → Option Fault
  | .next _ => none
  | .fault f => some f
  | .refused _ => none

/-- The refusal of an outcome, if it is one. -/
def refusal : Host.Outcome State Fault Refusal → Option Refusal
  | .next _ => none
  | .fault _ => none
  | .refused r => some r

/-- The state after an operation, or the state before it where it has no next state. -/
def after (i : Instr) (s : State) : State := (nextState (exec i s)).getD s

theorem eq_next {o : Host.Outcome State Fault Refusal} {t : State} (h : nextState o = some t) : o = .next t := by
  cases o with
  | next s => exact congrArg _ (Option.some.inj h)
  | fault f => cases h
  | refused r => cases h

/-- `ReadyFor` as a check. -/
def readyCheck (extra : Nat) (s : State) : Bool :=
  s.cfg.ok && decide (s.fault = none) && s.isOpen && decide (DevReply.hangs ∉ s.ext.replies) &&
    decide (s.rx.length + sampleCount s.cfg.pins s.tx + extra ≤ s.cfg.rxCap)

theorem ready_of {extra : Nat} {s : State} (h : readyCheck extra s = true) : ReadyFor extra s := by
  simp only [readyCheck, Bool.and_eq_true, decide_eq_true_eq] at h
  obtain ⟨⟨⟨⟨h1, h2⟩, h3⟩, h4⟩, h5⟩ := h
  exact ⟨h1, h2, h3, h4, h5⟩

theorem invariant_of {s : State}
    (h : (s.cfg.ok && decide (s.tx.length ≤ s.cfg.txCap) && decide (s.rx.length ≤ s.cfg.rxCap) &&
      decide (1 ≤ s.speedKhz) && decide (s.latency ≤ 255) && decide (s.tapCur < s.cfg.tap.count) &&
      decide (s.tapEnd < s.cfg.tap.count) && decide (s.flush = none ∧ s.qi = none)) = true) : SessionInv s := by
  simp only [Bool.and_eq_true, decide_eq_true_eq] at h
  obtain ⟨⟨⟨⟨⟨⟨⟨h1, h2⟩, h3⟩, h4⟩, h5⟩, h6⟩, h7⟩, h8⟩ := h
  exact ⟨h1, h2, h3, h4, h5, h6, h7, fun _ => h8⟩

/-- An operation whose outcome has a next state answers that state. -/
theorem exec_after {i : Instr} {s : State} (h : (nextState (exec i s)).isSome = true) : exec i s = .next (after i s) := by
  unfold after
  cases he : exec i s with
  | next t => rfl
  | fault f => rw [he] at h; cases h
  | refused r => rw [he] at h; cases h

/-- The state after a run of operations. -/
def afterAll (is : List Instr) (s : State) : State := (nextState (runInstrs is s)).getD s

theorem run_after {is : List Instr} {s : State} (h : (nextState (runInstrs is s)).isSome = true) :
    runInstrs is s = .next (afterAll is s) := by
  unfold afterAll
  cases he : runInstrs is s with
  | next t => rfl
  | fault f => rw [he] at h; cases h
  | refused r => rw [he] at h; cases h

/-- The reference TapService with a path of `count` clocks from IDLE to IRPAUSE (L2.4). -/
def tapWithPath (count : Nat) : TapService :=
  { referenceTap with others := { row1 with paths := row1.paths.set 13 ⟨0x1FF, count⟩ } :: referenceTap.others.tail }

/-- Every path of the reference table to TAP_IDLE is short. -/
theorem reference_idle_reachable : IdleReachable referenceTap := by
  refine ⟨by decide +kernel, fun s => ?_⟩
  have h : tapPath referenceTap s (tapIdle referenceTap) = tapPath referenceTap (s % 16) (tapIdle referenceTap) := by
    unfold tapPath tapRow
    simp only [show referenceTap.norm (s % 16) = referenceTap.norm s from Nat.mod_mod_of_dvd s (dvd_refl 16)]
  rw [h]
  have key : ∀ k : Fin 16, (tapPath referenceTap k (tapIdle referenceTap)).count ≤ 8 := by decide +kernel
  exact key ⟨s % 16, Nat.mod_lt _ (by decide)⟩

end Sys2Proof.Tests
end

