-- ==== Sys2Proof/Tests/Slice0.lean ====
section
/-! SUPPORT. Tests: the smoke test of WellFormed, words written out from the opcode map, single steps with the results of
spec/95_test_vectors.md (the vector's number stands in each comment), and a witness for every statement of
Certificates/Slice0/Obligations.lean that has hypotheses. -/

namespace Sys2Proof.Tests

open Sys2Proof Sys2Proof.Machine Sys2Proof.Safety

-- One theorem at a time: hundreds of small kernel evaluations at once would each take a thread.
set_option Elab.async false

/-! ### WellFormed: an ill-formed term for each check (R71) -/

theorem test_state_out_of_range : Instr.wellFormed 16 (.transition 16) = false := by decide
theorem test_state_in_range : Instr.wellFormed 16 (.transition 15) = true := by decide
theorem test_end_state_out_of_range : Instr.wellFormed 16 (.cmdRuntest 1 16) = false := by decide
theorem test_path_state_out_of_range : Instr.wellFormed 16 (.cmdPathmove [1, 16]) = false := by decide
theorem test_short_bit_array : Instr.wellFormed 16 (.cmdTms 9 [0xFF]) = false := by decide
theorem test_exact_bit_array : Instr.wellFormed 16 (.cmdTms 8 [0xFF]) = true := by decide
theorem test_long_bit_array : Instr.wellFormed 16 (.cmdTms 8 [0xFF, 0xFF]) = true := by decide
theorem test_ill_formed_record : Instr.wellFormed 16 (.execute [.sleep 1, .tms 3 []]) = false := by decide
theorem test_ill_formed_record_state : Instr.wellFormed 16 (.execute [.pathmove [16]]) = false := by decide
theorem test_bit_operand_two : decode [0x01, 0x02, 0x00] = .error (.badBit 2) := by decide +kernel
theorem test_buffer_operand_two : decode [0x05, 0x02] = .error (.badBuffer 2) := by decide +kernel

/-! ### Words written out from the opcode map (R67, R68), and words it refuses (R70) -/

theorem test_word_encode : decode [0x00, 1, 0, 0, 1] = .ok (.encode true false false true, []) := by decide +kernel
theorem test_word_encode_rst : decode [0x01, 1, 0] = .ok (.encodeRst true false, []) := by decide +kernel
theorem test_word_enq : decode [0x02, 0x31] = .ok (.enq 0x31, []) := by decide +kernel
theorem test_word_pulse : decode [0x03, 1, 0, 0] = .ok (.pulse true false false, []) := by decide +kernel
theorem test_word_idle : decode [0x04, 0xAA] = .ok (.idle, [0xAA]) := by decide +kernel
theorem test_word_q_avail : decode [0x05, 1] = .ok (.qAvail .rx, []) := by decide +kernel
theorem test_word_q_empty : decode [0x06, 0] = .ok (.qEmpty .tx, []) := by decide +kernel
theorem test_word_q_full : decode [0x07, 0] = .ok (.qFull .tx, []) := by decide +kernel
theorem test_word_flush : decode [0x08] = .ok (.flush, []) := by decide +kernel
theorem test_word_rx_read : decode [0x09] = .ok (.rxRead, []) := by decide +kernel
theorem test_word_transition : decode [0x0A, 13] = .ok (.transition 13, []) := by decide +kernel
theorem test_word_cmd_reset : decode [0x10, 1, 0] = .ok (.cmdReset true false, []) := by decide +kernel
theorem test_word_cmd_runtest : decode [0x11, 5, 1] = .ok (.cmdRuntest 5 1, []) := by decide +kernel
theorem test_word_cmd_pathmove : decode [0x12, 2, 1, 2] = .ok (.cmdPathmove [1, 2], []) := by decide +kernel
theorem test_word_cmd_stableclocks : decode [0x13, 40] = .ok (.cmdStableclocks 40, []) := by decide +kernel
theorem test_word_cmd_tms : decode [0x14, 5, 1, 0x1F] = .ok (.cmdTms 5 [0x1F], []) := by decide +kernel
theorem test_word_cmd_sleep : decode [0x15, 0xAC, 0x02] = .ok (.cmdSleep 300, []) := by decide +kernel
theorem test_word_cmd_scan : decode [0x16, 2, 0xDE, 0xAD] = .ok (.cmdScan [0xDE, 0xAD], []) := by decide +kernel
theorem test_word_adp_emit : decode [0x20, 0, 0, 1, 0] = .ok (.adpEmit false false true false, []) := by decide +kernel
theorem test_word_adp_flush : decode [0x21] = .ok (.adpFlush, []) := by decide +kernel
theorem test_word_adp_delay : decode [0x22, 10] = .ok (.adpDelay 10, []) := by decide +kernel
theorem test_word_adp_assert_reset : decode [0x23, 0, 1] = .ok (.adpAssertReset false true, []) := by decide +kernel
theorem test_word_adp_avail : decode [0x24] = .ok (.adpAvail, []) := by decide +kernel
theorem test_word_adp_read : decode [0x25] = .ok (.adpRead, []) := by decide +kernel
theorem test_word_open : decode [0x30] = .ok (.openSession, []) := by decide +kernel
theorem test_word_close : decode [0x31] = .ok (.closeSession, []) := by decide +kernel
theorem test_word_set_speed : decode [0x32, 0xE8, 0x07] = .ok (.setSpeed 1000, []) := by decide +kernel
theorem test_word_speed_to_khz : decode [0x33, 0] = .ok (.speedToKhz 0, []) := by decide +kernel
theorem test_word_khz_to_speed : decode [0x34, 1] = .ok (.khzToSpeed (-1), []) := by decide +kernel
theorem test_word_set_latency : decode [0x35, 1, 2, 0x31, 0x36] = .ok (.setLatency [[0x31, 0x36]], []) := by decide +kernel
theorem test_word_execute :
    decode [0x36, 2, 0x10, 1, 0, 0x11, 5, 1] = .ok (.execute [.reset true false, .runtest 5 1], []) := by decide +kernel

/-- L2.8 item 1. -/
theorem test_unmapped_word : decode [0x0B] = .error (.unknownOp 0x0B) := by decide +kernel
/-- L2.7, EXECUTE with a record of kind tag 0x17. -/
theorem test_unmapped_kind : decode [0x36, 1, 0x17] = .error (.unknownKind 0x17) := by decide +kernel
theorem test_operation_is_no_kind : decode [0x36, 1, 0x08] = .error (.unknownKind 0x08) := by decide +kernel
theorem test_truncated_word : decode [0x03, 1, 0] = .error .truncated := by decide +kernel
theorem test_table_word : decodeTableWord 8 0x13 = some (.cmdStableclocks 0) := by decide +kernel

/-! ### Pin encoder (L2.1) -/

theorem test_encode_returns : (after (.encode true false true true) openState).ret = .byte 0x37 := by decide +kernel
/-- L2.1, the non-reference map. -/
theorem test_encode_other_map :
    pinByte { tck := 0, tms := 1, tdi := 2, sreq := 3, trst := 6, srst := 7, tdo := 2 } true false true true = 0xCD := by decide
theorem test_encode_rst_returns : (after (.encodeRst true false) openState).ret = .byte 0x20 := by decide +kernel
theorem test_encode_needs_session :
    (after (.encode false false false false) closedState).fault = some ⟨.notOpen, .encode⟩ := by decide +kernel
theorem test_encode_rst_needs_session :
    (after (.encodeRst false false) closedState).fault = some ⟨.notOpen, .encodeRst⟩ := by decide +kernel

/-! ### Buffer operations (L2.2) -/

/-- A transmit buffer of `n` bytes, with the session open. -/
def filled (n : Nat) : State := { openState with tx := List.replicate n 0x30 }

theorem test_enq_last_place :
    (let t := after (.enq 0x31) (filled 63); (t.tx.length, t.wireOut, queryFull t .tx)) = (64, [], true) := by decide +kernel
theorem test_enq_flushes_when_full :
    (let t := after (.enq 0x31) (filled 64); (t.tx, t.wireOut.length, t.ret)) = ([0x31], 64, .status .ok) := by decide +kernel
theorem test_pulse_bytes : (after (.pulse true true true) openState).tx = [0x3A, 0x3F] := by decide +kernel
theorem test_pulse_dropped :
    (let t := after (.pulse true false false) { filled 63 with cfg := { referenceParams with policy := .dropAndLog } }
     (t.tx.getLast?, t.events, t.ret)) = (some 0x38, [.log (.wOverflow 0x39) .enq], .status .fail) := by decide +kernel
theorem test_idle_byte : (after .idle openState).tx = [0x30] := by decide +kernel
theorem test_q_avail_rx : (after (.qAvail .rx) { openState with rx := [1] }).ret = .nat 1 := by decide +kernel
theorem test_q_empty_tx : (after (.qEmpty .tx) openState).ret = .bit true := by decide +kernel
theorem test_q_full_tx : (after (.qFull .tx) openState).ret = .bit false := by decide +kernel

/-! ### Transport (L1.2, L2.3) -/

/-- L1.2. -/
theorem test_flush_keeps_two_samples :
    (after .flush { openState with
      tx := [0x30, 0x35, 0x30, 0x37, 0x31],
      ext := { Outside.empty with replies := [answer 5 5 [0x00, 0x04, 0xFF, 0x00, 0xFF]] } }).rx = [0x01, 0x00] := by
  decide +kernel
/-- L2.3 item 5. -/
theorem test_flush_write_failure :
    (let t := after .flush { openState with
      cfg := { referenceParams with frame := 2 }, rx := [1], tx := [0x30, 0x35, 0x30, 0x35],
      ext := { Outside.empty with replies := [answer 2 2 [0x00, 0x04], answer (-1) 2 [0x00, 0x04]] } }
     (t.tx, t.rx, t.wireOut, t.events, t.ret)) =
      ([], [], [0x30, 0x35], [.log (.wTransport (-1) 2) .flush], .status .fail) := by decide +kernel
/-- L2.3 item 6. -/
theorem test_flush_read_failure :
    (let t := after .flush { openState with
      tx := [0x30, 0x35], rx := [1], ext := { Outside.empty with replies := [answer 2 (-1) []] } }
     (t.tx, t.rx, t.wireOut, t.events, t.ret)) =
      ([], [], [0x30, 0x35], [.log (.wTransport 2 (-1)) .flush], .status .fail) := by decide +kernel
theorem test_rx_read_oldest :
    (let t := after .rxRead { openState with rx := [1, 0] }; (t.ret, t.rx)) = (.int 1, [0]) := by decide +kernel
/-- L1.12. -/
theorem test_rx_read_empty : (after .rxRead openState).ret = .int (-1) := by decide +kernel

/-! ### TAP driver (L2.4) -/

/-- The state a list of TMS values leads to. -/
def walk (t : TapService) : TapState → List Bool → TapState
  | s, [] => s
  | s, tms :: rest => walk t (tapSucc t s tms) rest

/-- The table of spec/93_implementation_defined.md section 3: every path leads to its target, bit 0 first. -/
theorem test_reference_paths_lead :
    (List.range 16).all (fun s => [0, 1, 4, 6, 11, 13].all fun target =>
      decide (walk referenceTap s (pathBits (tapPath referenceTap s target)) = target)) = true := by decide +kernel
theorem test_transition_bytes :
    (let t := after (.transition 13) openState; (t.tx, t.tapCur)) =
      ([0x38, 0x39, 0x38, 0x39, 0x30, 0x31, 0x38, 0x39, 0x30, 0x31, 0x30], 13) := by decide +kernel
/-- R123, under a table that lists a path of 9 clocks from IDLE to itself. -/
theorem test_transition_to_itself :
    (let t := after (.transition 1) { openState with
      cfg := { referenceParams with
        tap := { referenceTap with others := { row1 with paths := row1.paths.set 1 ⟨0x1FF, 9⟩ } :: referenceTap.others.tail } } }
     (t.tx, t.tapCur, t.fault)) = ([0x30], 1, none) := by decide +kernel
theorem test_transition_non_stable :
    (let t := after (.transition 2) openState; (t.tx, t.tapCur, t.fault)) =
      ([], 1, some ⟨.nonStableTarget 2, .transition⟩) := by decide +kernel

/-! ### Command handlers (L2.5) -/

theorem test_cmd_reset_hard :
    (let t := after (.cmdReset true false) openState; (t.tx, t.tapCur)) = ([0x20], 0) := by decide +kernel
theorem test_cmd_reset_soft_pulls :
    (let t := after (.cmdReset false true) { openState with cfg := { referenceParams with srstPullsTrst := true } }
     (t.tx, t.tapCur)) = ([0x10], 0) := by decide +kernel
theorem test_cmd_runtest_to_pause :
    (let t := after (.cmdRuntest 0 6) openState; (t.tx, t.tapCur)) =
      ([0x38, 0x39, 0x30, 0x31, 0x38, 0x39, 0x30, 0x31, 0x30], 6) := by decide +kernel
theorem test_cmd_runtest_late_fault :
    (let t := after (.cmdRuntest 2 2) openState; (t.tx, t.tapCur, t.fault)) =
      ([0x30, 0x31, 0x30, 0x31], 1, some ⟨.nonStableTarget 2, .transition⟩) := by decide +kernel
theorem test_cmd_pathmove_bytes :
    (let t := after (.cmdPathmove [2, 3, 4]) openState; (t.tx, t.tapCur)) =
      ([0x38, 0x39, 0x30, 0x31, 0x30, 0x31, 0x30], 4) := by decide +kernel
theorem test_cmd_pathmove_bad_step :
    (let t := after (.cmdPathmove [2, 1]) openState; (t.tx, t.tapCur, t.fault)) =
      ([0x38, 0x39], 2, some ⟨.invalidPathStep 2 1 1, .cmdPathmove⟩) := by decide +kernel
theorem test_cmd_stableclocks_in_reset :
    (after (.cmdStableclocks 2) { openState with tapCur := 0 }).tx = [0x38, 0x39, 0x38, 0x39] := by decide +kernel
theorem test_cmd_stableclocks_not_stable :
    (after (.cmdStableclocks 1) { openState with tapCur := 2 }).fault = some ⟨.notStable 2, .cmdStableclocks⟩ := by
  decide +kernel
theorem test_cmd_tms_order :
    (let t := after (.cmdTms 3 [0x05]) openState; (t.tx, t.tapCur)) = ([0x38, 0x39, 0x30, 0x31, 0x38, 0x39], 13) := by
  decide +kernel
theorem test_cmd_tms_second_byte :
    (after (.cmdTms 10 [0xFF, 0x02]) openState).tx =
      (List.replicate 8 [0x38, 0x39]).flatten ++ [0x30, 0x31, 0x38, 0x39] := by decide +kernel
theorem test_cmd_sleep_flushes :
    (let t := after (.cmdSleep 100) { openState with tx := [0x20] }; (t.wireOut, t.tx, t.events)) =
      ([0x20], [], [.delay 100]) := by decide +kernel
theorem test_cmd_sleep_after_failure :
    (let t := after (.cmdSleep 100) { openState with
      tx := [0x20], ext := { Outside.empty with replies := [answer (-1) 0 []] } }
     (t.tx, t.rx, t.events)) = ([], [], [.log (.wTransport (-1) 0) .flush, .delay 100]) := by decide +kernel

/-- A state whose ScanLayer has one scan listed: two emits, and it leaves DREXIT1. -/
def scanState : State :=
  { openState with
    tapCur := 4,
    ext := { openState.ext with scans := [.returns { ops := [.emit false false true false, .emit true false true true], leaves := 5 }] } }

theorem test_cmd_scan_emits :
    (let t := after (.cmdScan [0xAB]) scanState; (t.tx, t.tapCur, t.scanReturns)) =
      ([0x32, 0x37], 5, [.status .ok, .status .ok]) := by decide +kernel

/-! ### Adapter (L2.6) -/

theorem test_adp_emit_low_phase_sample : (after (.adpEmit false true false true) openState).tx = [0x3C] := by decide +kernel
theorem test_adp_flush_keeps :
    (after .adpFlush { openState with
      tx := [0x32, 0x37], ext := { Outside.empty with replies := [answer 2 2 [0x00, 0x04]] } }).rx = [0x01] := by
  decide +kernel
theorem test_adp_delay_writes :
    (let t := after (.adpDelay 10) { openState with tx := [0x32] }; (t.wireOut, t.events)) = ([0x32], [.delay 10]) := by
  decide +kernel
theorem test_adp_assert_reset_keeps_tap :
    (let t := after (.adpAssertReset true false) openState; (t.tx, t.tapCur)) = ([0x20], 1) := by decide +kernel
theorem test_adp_avail_rx_only : (after .adpAvail { openState with tx := [0x37] }).ret = .nat 0 := by decide +kernel
theorem test_adp_read_oldest :
    (let t := after .adpRead { openState with rx := [1, 0] }; (t.ret, t.rx)) = (.int 1, [0]) := by decide +kernel

/-! ### Host contract (L2.7) -/

/-- The closed session with the given results of the configuration primitives. -/
def closedWith (results : List Bool) : State :=
  { closedState with ext := { Outside.empty with primitives := results } }

theorem test_open_ok :
    (let t := after .openSession (closedWith [true, true, true, true]); (t.isOpen, t.ret, t.events)) =
      (true, .status .ok, []) := by decide +kernel
theorem test_open_latency_fails :
    (let t := after .openSession (closedWith [true, true, false]); (t.isOpen, t.events, t.devCalls.getLast?)) =
      (false, [.log (.eOpen .latency) .openSession], some .release) := by decide +kernel
theorem test_close_keeps_pending :
    (let t := after .closeSession { openState with tx := [0x30] }; (t.isOpen, t.tx, t.devCalls)) =
      (false, [0x30], [.release]) := by decide +kernel
theorem test_set_speed_closed :
    (let t := after (.setSpeed 500) closedState; (t.speedKhz, t.devCalls)) = (500, []) := by decide +kernel
theorem test_set_speed_refused :
    (let t := after (.setSpeed 500) { openState with ext := { Outside.empty with primitives := [false] } }
     (t.speedKhz, t.ret)) = (1000, .status .fail) := by decide +kernel
theorem test_speed_to_khz : (after (.speedToKhz 6000) closedState).ret = .nat 6000 := by decide +kernel
theorem test_khz_to_speed_zero :
    (let t := after (.khzToSpeed 0) closedState; (t.ret, t.events)) =
      (.speed .failCapability none, [.log (.eCapability 0) .khzToSpeed]) := by decide +kernel
theorem test_khz_to_speed_negative :
    (after (.khzToSpeed (-1)) closedState).fault = some ⟨.badSpeed (-1), .khzToSpeed⟩ := by decide +kernel
theorem test_set_latency_255 : (after (.setLatency [[50, 53, 53]]) closedState).latency = 255 := by decide +kernel
theorem test_set_latency_256 :
    (let t := after (.setLatency [[50, 53, 54]]) closedState; (t.latency, t.events.length, t.ret)) =
      (16, 1, .status .ok) := by decide +kernel
/-- L1.7, the end-to-end scenario. -/
theorem test_execute_end_to_end :
    (let t := after (.execute [.reset true false, .runtest 5 1, .pathmove [1, 2]]) openState
     (t.wireOut, t.tx, t.tapCur, t.ret)) =
      ([0x20, 0x30, 0x31, 0x30] ++ (List.replicate 6 [0x30, 0x31]).flatten ++ [0x38, 0x39, 0x30], [], 2, .status .ok) := by
  decide +kernel
/-- L2.8 item 4. -/
theorem test_execute_stops_at_fault :
    (let t := after (.execute [.reset true false, .pathmove [4], .runtest 1 1]) openState
     (t.tx, t.wireOut, t.fault, t.qi)) =
      ([0x20], [], some ⟨.invalidPathStep 0 4 0, .cmdPathmove⟩, some 1) := by decide +kernel

/-! ### Steps -/

/-- The first step after reset of a word placed by withFetchWord runs it: CLOSE of a closed session returns OK. -/
theorem test_first_step_runs : ((nextState (step (State.reset.withFetchWord 8 0x31))).map (·.ret)) = some (.status .ok) := by
  decide +kernel
theorem test_bad_word_refused : refusal (step (State.reset.withFetchWord 8 0x0B)) = some (.badWord (.unknownOp 0x0B)) := by
  decide +kernel
theorem test_fault_is_final :
    stopFault (step { openState with fault := some ⟨.rxOverflow, .flush⟩ }) =
      some (.sessionFaulted ⟨.rxOverflow, .flush⟩) := by decide +kernel

/-! ### Assembly (R73, R74) -/

theorem test_assemble_lines :
    assemble stateNames 1
        "PULSE 1, 0, 1 ; a pulse\nCMD_TMS 10, [0xFF, 0x02]\nSET_LATENCY [\"16\"]\nIDLECLK 5\nCMD_PATHMOVE [IDLE, DRSELECT]".toList =
      some [.pulse true false true, .cmdTms 10 [0xFF, 2], .setLatency [[49, 54]], .cmdRuntest 5 1, .cmdPathmove [1, 2]] := by
  decide +kernel
theorem test_assemble_queue :
    assemble stateNames 1 ("OPEN\nEXECUTE ".toList ++ [Char.ofNat 123] ++ "\n  HRESET\n  CMD_SLEEP 100\n".toList ++ [Char.ofNat 125]) =
      some [.openSession, .execute [.reset true false, .sleep 100]] := by decide +kernel
/-- The model's choice of bytes (log 12): U+0131 is C4 B1 and so is no digit, although its low byte is that of "1". -/
theorem test_assemble_wide_character :
    assemble stateNames 1 ("SET_LATENCY [\"".toList ++ [Char.ofNat 0x131] ++ "\"]".toList) = some [.setLatency [[0xC4, 0xB1]]] ∧
      parseInt [0xC4, 0xB1] = none := by decide +kernel
theorem test_assemble_refuses : assemble stateNames 1 "PULSE 2, 0, 1".toList = none := by decide +kernel

/-! ### Witnesses: for each statement, a state and operands that meet its hypotheses, clause by clause -/

/-- A state whose transmit buffer requests `k` samples and whose receive buffer has exactly room for them. -/
def brimState (k : Nat) : State :=
  { openState with tx := List.replicate k 0x35, rx := List.replicate (64 - k) 0x01 }

/-- A state in which a flush overflows the receive buffer (L2.3 item 7). -/
def overState : State := { openState with tx := [0x35, 0x35], rx := List.replicate 63 0x01 }

theorem witness_DecodedWordIsItsEncoding : decode [0x08, 0xFF] = .ok (.flush, [0xFF]) := by decide +kernel

theorem witness_UnmappedOpcodesAndKindsAreRefused :
    (openState.fault = none ∧ (∀ op : Op, opCode op ≠ (0x0B : Byte).toNat) ∧ (∀ op : Op, opCode op ≠ (0x0F : Byte).toNat) ∧
      (∀ op : Op, opCode op ≠ (0x37 : Byte).toNat)) ∧
    ([Command.sleep 1].length < 2 ∧ (0x0F : Byte).toNat < 0x10 ∧ 0x16 < (0x17 : Byte).toNat ∧ 0x16 < (0xFF : Byte).toNat) := by
  refine ⟨⟨rfl, ?_, ?_, ?_⟩, by decide, by decide, by decide, by decide⟩ <;>
  · intro op; cases op <;> decide

/-- A state with one operation called. -/
def calling (bytes : List Byte) : State := { openState with ext := { openState.ext with calls := bytes } }

theorem witness_IllFormedOperandsAreRefused :
    (openState.fault = none ∧ Instr.wellFormed openState.cfg.tap.count (.transition 16) = false ∧
      Instr.wellFormed openState.cfg.tap.count (.cmdTms 9 [0xFF]) = false) ∧
    ((∀ b ∈ ([0, 1, 1] : List Byte), b = 0 ∨ b = 1) ∧ ([0, 1, 1] : List Byte).length < bitOperands .encode ∧
      ([] : List Byte).length < bitOperands .adpAssertReset ∧ (2 : Byte) ≠ 0 ∧ (2 : Byte) ≠ 1 ∧ (0xFF : Byte) ≠ 0 ∧
      (0xFF : Byte) ≠ 1) ∧
    ([Command.sleep 1].length < 2 ∧ ([1] : List Byte).length < bitOperands .cmdReset ∧
      (calling [0x36, 2, 0x15, 1, 0x10, 1, 2]).ext.calls =
        0x36 :: (putNat 2 ++ [Command.sleep 1].flatMap putCommand ++ 0x10 :: ([1] ++ 2 :: []))) ∧
    (calling [0x06, 2]).ext.calls = BitVec.ofNat 8 (opCode .qEmpty) :: 2 :: [] := by
  decide +kernel

theorem witness_StepRunsTheDecodedOperation :
    ((calling [0x0A, 15]).fault = none ∧ decode (calling [0x0A, 15]).ext.calls = .ok (.transition 15, []) ∧
      (Instr.transition 15).wellFormed (calling [0x0A, 15]).cfg.tap.count = true) ∧
    (openState.fault = none ∧ openState.ext.calls = []) := by decide +kernel

theorem witness_FaultIsStickyAndFinal :
    ({ openState with fault := some ⟨.badSpeed 0, .setSpeed⟩ } : State).fault = some ⟨.badSpeed 0, .setSpeed⟩ := rfl

theorem witness_StepKeepsInvariant :
    SessionInv (calling [0x04]) ∧ ∃ t, step (calling [0x04]) = .next t :=
  ⟨invariant_of (by decide +kernel), _, eq_next (t := (nextState (step (calling [0x04]))).getD openState) (by decide +kernel)⟩

theorem witness_PowerOnMeetsInvariant : referenceParams.ok = true := by decide +kernel

theorem witness_PowerOnValues : 0 < referenceParams.tap.count ∧ 15 < referenceParams.tap.count := by decide +kernel

theorem witness_OperationsWriteOnlyTheirRegisters :
    openState.cfg.ok = true ∧ exec (.transition 13) openState = .next (after (.transition 13) openState) :=
  ⟨by decide +kernel, exec_after (by decide +kernel)⟩

theorem witness_OnlyTapOperationsWriteTapCur :
    openState.cfg.ok = true ∧ mayWriteTap (.cmdStableclocks 3) = false ∧
      exec (.cmdStableclocks 3) openState = .next (after (.cmdStableclocks 3) openState) :=
  ⟨by decide +kernel, rfl, exec_after (by decide +kernel)⟩

theorem witness_ResetLinesMoveOnlyByResetOperations :
    (filled 64).cfg.ok = true ∧ mayAssert (.pulse true false false) = false ∧
      exec (.pulse true false false) (filled 64) = .next (after (.pulse true false false) (filled 64)) ∧
      ∀ b ∈ (filled 64).tx, released (filled 64).cfg.pins b := by
  refine ⟨by decide +kernel, rfl, exec_after (by decide +kernel), ?_⟩
  intro b hb
  rw [List.eq_of_mem_replicate hb]
  exact ⟨by decide +kernel, by decide +kernel⟩

theorem witness_SessionOperationsNeedAnOpenSession :
    sessionOp (.adpDelay 10) = some .cmdSleep ∧ sessionOp (.encode true false false true) = some .encode ∧ closedState.fault = none ∧ closedState.isOpen = false := by decide +kernel

theorem witness_EncodeReturnsThePinByte :
    (openState.fault = none ∧ openState.isOpen = true ∧ openState.cfg.pins.distinct = true) ∧ closedState.fault = none ∧
      closedState.isOpen = false := by decide +kernel

theorem witness_EncodeRstReturnsTheResetByte :
    (openState.fault = none ∧ openState.isOpen = true ∧ openState.cfg.pins.distinct = true) ∧ closedState.fault = none ∧
      closedState.isOpen = false := by decide +kernel

theorem witness_QueriesReturnTheCounts :
    (openState.fault = none ∧ openState.isOpen = true) ∧ (closedState.fault = none ∧ closedState.isOpen = false) ∧
      (filled 64).fault = none ∧ (filled 64).isOpen = true := by decide +kernel

theorem witness_ReadTakesTheOldestSample :
    (openState.isOpen = true ∧ openState.rx = []) ∧ ((brimState 63).isOpen = true ∧ (brimState 63).rx = 0x01 :: []) ∧
      closedState.isOpen = false ∧ closedState.fault = none ∧ openState.fault = none ∧ (brimState 63).fault = none := by
  decide +kernel

/-- A session of the drop policy with `n` bytes queued. -/
def dropping (n : Nat) : State := { filled n with cfg := { referenceParams with policy := .dropAndLog } }

/-- A full transmit buffer whose flush overflows the receive buffer. -/
def fullOver : State := { brimState 64 with rx := [0x01] }

theorem witness_EnqAppendsFlushesOrDrops :
    (closedState.fault = none ∧ closedState.isOpen = false) ∧
    ((filled 63).isOpen = true ∧ (filled 63).tx.length ≠ (filled 63).cfg.txCap) ∧
    ((dropping 64).isOpen = true ∧ (dropping 64).tx.length = (dropping 64).cfg.txCap ∧ (dropping 64).cfg.policy = .dropAndLog) ∧
    ((filled 64).tx.length = (filled 64).cfg.txCap ∧ (filled 64).cfg.policy = .flushOnFull ∧
      (after .flush (filled 64)).fault = none) ∧
    (fullOver.tx.length = fullOver.cfg.txCap ∧ fullOver.cfg.policy = .flushOnFull ∧ (after .flush fullOver).fault ≠ none) := by
  decide +kernel

theorem witness_EnqAppendsFlushesOrDrops_flush :
    exec .flush (filled 64) = .next (after .flush (filled 64)) ∧ exec .flush fullOver = .next (after .flush fullOver) :=
  ⟨exec_after (by decide +kernel), exec_after (by decide +kernel)⟩

theorem witness_AppendsRunToTheEnd :
    appends referenceParams.pins (.enq 0x35) = some [0x35] ∧
      appends referenceParams.pins (.pulse true false true) = some (pulseBytes referenceParams.pins true false true) ∧
      ReadyFor (sampleCount (brimState 63).cfg.pins [0x35]) (brimState 63 |> fun s => { s with tx := [] }) ∧
      ReadyFor (sampleCount (dropping 63).cfg.pins [0x31]) (dropping 63) ∧
      (dropping 63).tx.length + [(0x31 : Byte)].length ≤ (dropping 63).cfg.txCap ∧
      ReadyFor (sampleCount (filled 64).cfg.pins (pulseBytes (filled 64).cfg.pins true false true)) (filled 64) :=
  ⟨rfl, rfl, ready_of (by decide +kernel), ready_of (by decide +kernel), by decide +kernel, ready_of (by decide +kernel)⟩

/-- Room for none, one and two bytes under the drop policy. -/
theorem witness_AppendsRunToTheEnd_dropping :
    (dropping 64).fault = none ∧ (dropping 64).isOpen = true ∧ (dropping 64).cfg.policy = .dropAndLog ∧
      (dropping 64).tx.length + 0 = (dropping 64).cfg.txCap ∧ (dropping 63).tx.length + 1 = (dropping 63).cfg.txCap ∧
      (dropping 62).tx.length + 2 = (dropping 62).cfg.txCap := by decide +kernel

theorem witness_AdapterClockIsPulse :
    openState.isOpen = true ∧ openState.fault = none ∧
      runInstrs (Pseudo.expand (tapIdle openState.cfg.tap) (.adpClock true true true)) openState =
        .next (afterAll (Pseudo.expand (tapIdle openState.cfg.tap) (.adpClock true true true)) openState) ∧
      (afterAll (Pseudo.expand (tapIdle openState.cfg.tap) (.adpClock true true true)) openState).fault = none :=
  ⟨rfl, rfl, run_after (by decide +kernel), by decide +kernel⟩

theorem witness_AdapterClockIsPulse_fault :
    fullOver.isOpen = true ∧ fullOver.fault = none ∧
      runInstrs (Pseudo.expand (tapIdle fullOver.cfg.tap) (.adpClock true true true)) fullOver =
        .next (afterAll (Pseudo.expand (tapIdle fullOver.cfg.tap) (.adpClock true true true)) fullOver) ∧
      (afterAll (Pseudo.expand (tapIdle fullOver.cfg.tap) (.adpClock true true true)) fullOver).fault ≠ none :=
  ⟨rfl, rfl, run_after (by decide +kernel), by decide +kernel⟩

theorem witness_AnswersAreTheAdmissibleOnes :
    (⟨[0x30, 0x31], 1, 1⟩ : FlushState).rpos ≤ (⟨[0x30, 0x31], 1, 1⟩ : FlushState).wpos ∧
      (∃ s : State, s.ext.replies = .hangs :: []) ∧
      (∃ s : State, s.cfg.ok = true ∧ s.ext.replies = []) ∧ flushBusy ⟨[0x30, 0x31], 1, 1⟩ = true ∧
      flushBusy ⟨[0x30, 0x31], 2, 1⟩ = true :=
  ⟨by decide, ⟨{ closedState with ext := { Outside.empty with replies := [.hangs] } }, rfl⟩,
    ⟨closedState, by decide +kernel, rfl⟩, by decide, by decide⟩

theorem witness_FlushRunsToTheEnd : Ready (brimState 64) ∧ Ready (brimState 0) ∧ Ready openState :=
  ⟨ready_of (by decide +kernel), ready_of (by decide +kernel), ready_of (by decide +kernel)⟩

/-- A session whose Device's next write fails, with a full receive buffer (L2.8 item 3). -/
def failing : State :=
  { openState with
    tx := [0x30, 0x35], rx := List.replicate 64 0x01, ext := { Outside.empty with replies := [answer (-1) 2 [0x00, 0x04]] } }

/-- The same, where the next read fails (L2.3 item 6). -/
def failingRead : State := { failing with ext := { Outside.empty with replies := [answer 2 (-1) []] } }

/-- Two frames, of which the second write fails (L2.3 item 5). -/
def failingLater : State :=
  { openState with
    cfg := { referenceParams with frame := 2 }, tx := [0x30, 0x35, 0x30, 0x35],
    ext := { Outside.empty with replies := [answer 2 2 [0x00, 0x04], answer (-1) 2 [0x00, 0x04]] } }

/-- The transient and the state after `k` iterations of a flush of `s`. -/
def ran (k : Nat) (s : State) : FlushState × State := (flushRun k (flushStart s) s).getD (flushStart s, s)

/-- The iteration after that, and its state. -/
def nextIteration (k : Nat) (s : State) : Iteration × State :=
  (devIter (ran k s).1 (ran k s).2).getD (⟨0, 0, [], []⟩, s)

/-- A flush of `s` makes `k` good iterations, and one that fails. -/
def failsAfter (k : Nat) (s : State) : Bool :=
  decide (s.cfg.ok = true ∧ s.isOpen = true ∧ s.fault = none ∧ s.flush = none ∧
    flushRun k (flushStart s) s = some (ran k s) ∧ flushBusy (ran k s).1 = true ∧
    devIter (ran k s).1 (ran k s).2 = some (nextIteration k s) ∧ ((nextIteration k s).1.w < 0 ∨ (nextIteration k s).1.r < 0))

theorem witness_FlushKeepsFifoOrder :
    (exec .flush (brimState 64) = .next (after .flush (brimState 64)) ∧ (after .flush (brimState 64)).fault = none ∧
      (after .flush (brimState 64)).ret = .status .ok) ∧
    (exec .flush failing = .next (after .flush failing) ∧ (after .flush failing).fault = none ∧
      (after .flush failing).ret = .status .fail) ∧ (brimState 64).cfg.ok = true ∧ failing.cfg.ok = true :=
  ⟨⟨exec_after (by decide +kernel), by decide +kernel, by decide +kernel⟩,
    ⟨exec_after (by decide +kernel), by decide +kernel, by decide +kernel⟩, by decide +kernel, by decide +kernel⟩

theorem witness_FlushKeepsExactlyTheRequestedSamples :
    (brimState 64).cfg.ok = true ∧ (brimState 64).isOpen = true ∧
      exec .flush (brimState 64) = .next (after .flush (brimState 64)) ∧ (after .flush (brimState 64)).fault = none ∧
      (after .flush (brimState 64)).ret = .status .ok :=
  ⟨by decide +kernel, rfl, exec_after (by decide +kernel), by decide +kernel, by decide +kernel⟩

theorem witness_FailedFlushEmptiesBothBuffers :
    failsAfter 0 failing = true ∧ failsAfter 0 failingRead = true ∧ failsAfter 1 failingLater = true ∧
      (exec .flush failing = .next (after .flush failing) ∧ (after .flush failing).fault = none ∧
        (after .flush failing).ret = .status .fail) :=
  ⟨by decide +kernel, by decide +kernel, by decide +kernel, exec_after (by decide +kernel), by decide +kernel,
    by decide +kernel⟩

theorem witness_NegativeCountDecidesBeforeSamples :
    (failing.cfg.ok = true ∧ failing.isOpen = true ∧ failing.fault = none ∧
      flushRun 0 (flushStart failing) failing = some (flushStart failing, failing) ∧
      failing.ext.replies = .answers ⟨-1, 2, [0x00, 0x04], 0, 0⟩ :: [] ∧ (flushStart failing).wpos < failing.tx.length) ∧
    (failingRead.ext.replies = .answers ⟨2, -1, [], 0, 0⟩ :: [] ∧ (flushStart failingRead).rpos < failingRead.tx.length) ∧
    (flushRun 1 (flushStart failingLater) failingLater = some (ran 1 failingLater) ∧
      (ran 1 failingLater).2.ext.replies = .answers ⟨-1, 2, [0x00, 0x04], 0, 0⟩ :: [] ∧
      (ran 1 failingLater).1.wpos < failingLater.tx.length) := by decide +kernel

theorem witness_OverflowKeepsWhatWasAppended :
    overState.cfg.ok = true ∧ overState.isOpen = true ∧ exec .flush overState = .next (after .flush overState) ∧
      (after .flush overState).fault = some ⟨.rxOverflow, .flush⟩ :=
  ⟨by decide +kernel, rfl, exec_after (by decide +kernel), by decide +kernel⟩

theorem witness_EmptyFlushMakesNoTransfer : openState.isOpen = true ∧ openState.fault = none ∧ openState.tx = [] := by
  decide +kernel

/-- A session whose Device makes no progress. -/
def hanging : State := { filled 1 with ext := { Outside.empty with replies := [.hangs] } }

theorem witness_HangingDeviceSticksTheFlush :
    hanging.isOpen = true ∧ hanging.fault = none ∧ hanging.tx ≠ [] ∧ hanging.ext.replies = .hangs :: [] := by decide +kernel

/-- Frames of two bytes, `n` bytes queued (L2.3 item 4). -/
def framed (n : Nat) : State := { filled n with cfg := { referenceParams with frame := 2 } }

theorem witness_FullTransfersTakeOneIterationPerFrame :
    Ready (framed 5) ∧ Ready (framed 0) ∧ ((framed 5).cfg.frame : Int) ≤ fullAnswer.w ∧
      ((framed 5).cfg.frame : Int) ≤ fullAnswer.r ∧
      (framed 5).ext.replies = List.replicate (((framed 5).tx.length + (framed 5).cfg.frame - 1) / (framed 5).cfg.frame)
        (.answers fullAnswer) ++ [.answers fullAnswer] ∧
      (framed 0).ext.replies = List.replicate (((framed 0).tx.length + (framed 0).cfg.frame - 1) / (framed 0).cfg.frame)
        (.answers fullAnswer) ++ List.replicate 4 (.answers fullAnswer) :=
  ⟨ready_of (by decide +kernel), ready_of (by decide +kernel), by decide +kernel, by decide +kernel, by decide +kernel,
    by decide +kernel⟩

/-- A session whose path from IDLE to IRPAUSE has `count` clocks. -/
def pathState (count : Nat) : State := { openState with cfg := { referenceParams with tap := tapWithPath count } }

theorem witness_TransitionEndsInItsTarget :
    Ready (pathState 8) ∧ tapStable (pathState 8).cfg.tap 13 = true ∧
      (tapPath (pathState 8).cfg.tap (pathState 8).tapCur 13).count = 8 ∧
      (tapPath openState.cfg.tap openState.tapCur 1).count = 0 ∧ Ready openState ∧ tapStable openState.cfg.tap 1 = true :=
  ⟨ready_of (by decide +kernel), by decide +kernel, by decide +kernel, by decide +kernel, ready_of (by decide +kernel),
    by decide +kernel⟩

theorem witness_TransitionEndsInItsTarget_anywhere :
    exec (.transition 13) (filled 64) = .next (after (.transition 13) (filled 64)) ∧
      (after (.transition 13) (filled 64)).fault = none :=
  ⟨exec_after (by decide +kernel), by decide +kernel⟩

theorem witness_TransitionFaultsBeforeAnyByte :
    ((pathState 9).fault = none ∧ (pathState 9).isOpen = true ∧ tapStable (pathState 9).cfg.tap 13 = true ∧
      8 < (tapPath (pathState 9).cfg.tap (pathState 9).tapCur 13).count) ∧ tapStable (pathState 9).cfg.tap 2 = false := by
  decide +kernel

theorem witness_CmdResetForcesTheTapState :
    Ready openState ∧ (fullOver.cfg.ok = true ∧ fullOver.isOpen = true ∧
      exec (.cmdReset true false) fullOver = .next (after (.cmdReset true false) fullOver)) ∧
      closedState.fault = none ∧ closedState.isOpen = false :=
  ⟨ready_of (by decide +kernel), ⟨by decide +kernel, rfl, exec_after (by decide +kernel)⟩, rfl, rfl⟩

theorem witness_RuntestPulsesInIdle :
    Ready { openState with tapCur := 0 } ∧
      (tapStable openState.cfg.tap (tapIdle openState.cfg.tap) = true ∧
        (tapPath openState.cfg.tap 0 (tapIdle openState.cfg.tap)).count ≤ 8) ∧
      (tapStable openState.cfg.tap 13 = true ∧ (tapPath openState.cfg.tap (tapIdle openState.cfg.tap) 13).count ≤ 8) ∧
      Ready openState ∧ openState.tapCur = tapIdle openState.cfg.tap :=
  ⟨ready_of (by decide +kernel), by decide +kernel, by decide +kernel, ready_of (by decide +kernel), by decide +kernel⟩

theorem witness_RuntestFaultsAfterItsPulses :
    Ready openState ∧ openState.tapCur = tapIdle openState.cfg.tap ∧ 2 ≠ tapIdle openState.cfg.tap ∧
      tapStable openState.cfg.tap 2 = false :=
  ⟨ready_of (by decide +kernel), by decide +kernel, by decide +kernel, by decide +kernel⟩

theorem witness_StableclocksHoldTheState :
    (Ready openState ∧ tapStable openState.cfg.tap openState.tapCur = true) ∧
    (∃ s : State, s.fault = none ∧ s.isOpen = true ∧ tapStable s.cfg.tap s.tapCur = false) ∧
      closedState.fault = none ∧ closedState.isOpen = false :=
  ⟨⟨ready_of (by decide +kernel), by decide +kernel⟩, ⟨{ openState with tapCur := 2 }, rfl, rfl, by decide +kernel⟩, rfl, rfl⟩

/-- The pulses that the handlers of the next witness run. -/
def pulses (bits : List Bool) : List Instr := bits.map clock

theorem witness_HandlersRunTheirOperations :
    (openState.cfg.ok = true ∧ openState.fault = none ∧ openState.isOpen = true) ∧
      (tapStable openState.cfg.tap 13 = true ∧ (tapPath openState.cfg.tap openState.tapCur 13).count ≤ 8) ∧
      runInstrs (pulses (pathBits (tapPath openState.cfg.tap openState.tapCur 13)) ++ [.idle]) openState =
        .next (afterAll (pulses (pathBits (tapPath openState.cfg.tap openState.tapCur 13)) ++ [.idle]) openState) ∧
      runInstrs [.enq (resetByte fullOver.cfg.pins true false)] { fullOver with tapCur := tapReset fullOver.cfg.tap } =
        .next (afterAll [.enq (resetByte fullOver.cfg.pins true false)] { fullOver with tapCur := tapReset fullOver.cfg.tap }) ∧
      runInstrs (List.replicate 3 (clock false) ++ [.transition 13]) openState =
        .next (afterAll (List.replicate 3 (clock false) ++ [.transition 13]) openState) ∧
      runInstrs (List.replicate 3 (clock false)) openState = .next (afterAll (List.replicate 3 (clock false)) openState) :=
  ⟨by decide +kernel, by decide +kernel, run_after (by decide +kernel), run_after (by decide +kernel),
    run_after (by decide +kernel), run_after (by decide +kernel)⟩

/-- A step whose pulse overflows the receive buffer, and one that is no successor. -/
theorem witness_HandlersRunTheirOperations_path :
    (pathTms openState.cfg.tap openState.tapCur [2, 3] = some [true, false] ∧
      runInstrs (pulses [true, false]) openState = .next (afterAll (pulses [true, false]) openState) ∧
      (afterAll (pulses [true, false]) openState).fault = none ∧
      exec .idle (afterAll (pulses [true, false]) openState) =
        .next (after .idle (afterAll (pulses [true, false]) openState)) ∧
      pathTms openState.cfg.tap ([2, 3].getLastD openState.tapCur) [1] = none) ∧
    (fullOver.cfg.ok = true ∧ fullOver.fault = none ∧ fullOver.isOpen = true ∧
      pathTms fullOver.cfg.tap fullOver.tapCur [] = some [] ∧ runInstrs (pulses []) fullOver = .next fullOver ∧
      pathTms fullOver.cfg.tap (([] : List TapState).getLastD fullOver.tapCur) [2] = some [true] ∧
      exec (clock true) fullOver = .next (after (clock true) fullOver) ∧ (after (clock true) fullOver).fault ≠ none) :=
  ⟨⟨by decide +kernel, run_after (by decide +kernel), by decide +kernel, exec_after (by decide +kernel), by decide +kernel⟩,
    by decide +kernel, rfl, rfl, by decide +kernel, rfl, by decide +kernel, exec_after (by decide +kernel),
    by decide +kernel⟩

theorem witness_PathmoveFollowsThePath :
    Ready openState ∧ pathTms openState.cfg.tap openState.tapCur [1, 2] = some [false, true] ∧
      pathTms openState.cfg.tap openState.tapCur [] = some [] :=
  ⟨ready_of (by decide +kernel), by decide +kernel, by decide +kernel⟩

theorem witness_InvalidPathStepKeepsEarlierSteps :
    Ready openState ∧ pathTms openState.cfg.tap openState.tapCur [2] = some [true] ∧
      tapSucc openState.cfg.tap ([2].getLastD openState.tapCur) false ≠ 1 ∧
      tapSucc openState.cfg.tap ([2].getLastD openState.tapCur) true ≠ 1 ∧
      tapSucc openState.cfg.tap (([] : List TapState).getLastD openState.tapCur) false ≠ 4 ∧
      tapSucc openState.cfg.tap (([] : List TapState).getLastD openState.tapCur) true ≠ 4 :=
  ⟨ready_of (by decide +kernel), by decide +kernel, by decide +kernel, by decide +kernel, by decide +kernel, by decide +kernel⟩

theorem witness_TmsClocksTheArray :
    Ready openState ∧ (8 + 7) / 8 ≤ [(0xFF : Byte)].length ∧ (9 + 7) / 8 ≤ [(0xFF : Byte), 0x01].length ∧
      (0 + 7) / 8 ≤ ([] : List Byte).length :=
  ⟨ready_of (by decide +kernel), by decide, by decide, by decide⟩

theorem witness_SleepFlushesThenDelays :
    (exec .flush openState = .next (after .flush openState) ∧ (after .flush openState).fault = none) ∧
    (exec .flush overState = .next (after .flush overState) ∧ (after .flush overState).fault ≠ none) ∧
      Ready openState ∧ closedState.fault = none ∧ closedState.isOpen = false :=
  ⟨⟨exec_after (by decide +kernel), by decide +kernel⟩, ⟨exec_after (by decide +kernel), by decide +kernel⟩,
    ready_of (by decide +kernel), rfl, rfl⟩

theorem witness_ResetIsHeldAcrossASleep :
    Ready openState ∧
      runInstrs [.cmdReset true false, .cmdSleep 100] openState = .next (afterAll [.cmdReset true false, .cmdSleep 100] openState) ∧
      (afterAll [.cmdReset true false, .cmdSleep 100] openState).events = openState.events ++ [.delay 100] :=
  ⟨ready_of (by decide +kernel), run_after (by decide +kernel), by decide +kernel⟩

/-- The scan of `scanState`. -/
def twoEmits : ScanRun := { ops := [.emit false false true false, .emit true false true true], leaves := 5 }

/-- Where it starts, with a receive buffer that overflows if a flush follows. -/
def scanStart (s : State) : State := { s with scanReturns := [], ext := { s.ext with scans := [] } }

theorem witness_ScanRunsTheAdapterOperations :
    (scanState.cfg.ok = true ∧ scanState.fault = none ∧ scanState.isOpen = true ∧ scanState.ext.scans = .returns twoEmits :: []) ∧
      (runInstrs (twoEmits.ops.map adpInstr) (scanStart scanState) =
        .next (afterAll (twoEmits.ops.map adpInstr) (scanStart scanState)) ∧
        (afterAll (twoEmits.ops.map adpInstr) (scanStart scanState)).fault = none) ∧
      (runInstrs ([AdpOp.flush].map adpInstr) (scanStart overState) =
        .next (afterAll ([AdpOp.flush].map adpInstr) (scanStart overState)) ∧
        (afterAll ([AdpOp.flush].map adpInstr) (scanStart overState)).fault ≠ none) ∧
      (openState.fault = none ∧ openState.isOpen = true ∧ openState.ext.scans = []) :=
  ⟨by decide +kernel, ⟨run_after (by decide +kernel), by decide +kernel⟩, ⟨run_after (by decide +kernel), by decide +kernel⟩,
    by decide +kernel⟩

theorem witness_ScanRunsToTheEnd :
    (scanState.ext.scans = .returns twoEmits :: [] ∧ ReadyFor (scanSamples twoEmits.ops) scanState) ∧
      ReadyFor (scanSamples twoEmits.ops) { scanState with rx := List.replicate 63 0x00 } ∧
      (∃ s : State, s.fault = none ∧ s.isOpen = true ∧ s.ext.scans = .hangs :: []) ∧
      openState.ext.scans = [] ∧ Ready openState :=
  ⟨⟨by decide +kernel, ready_of (by decide +kernel)⟩, ready_of (by decide +kernel),
    ⟨{ openState with ext := { Outside.empty with scans := [.hangs] } }, rfl, rfl, rfl⟩, rfl, ready_of (by decide +kernel)⟩

theorem witness_OpenConfiguresInOrder :
    (closedWith [true, true, true, true]).fault = none ∧ (closedWith [true, true, true, true]).isOpen = false ∧
      (closedWith [true, true, true, true]).ext.primitives = true :: true :: true :: true :: [] ∧
      (closedWith [false]).ext.primitives = false :: [] ∧ (closedWith [true, false]).ext.primitives = true :: false :: [] ∧
      (closedWith [true, true, false]).ext.primitives = true :: true :: false :: [] ∧
      (closedWith [true, true, true, false]).ext.primitives = true :: true :: true :: false :: [] ∧
      openState.fault = none ∧ openState.isOpen = true := by decide +kernel

theorem witness_OpenAlwaysAnswers :
    (closedState.fault = none ∧ closedState.isOpen = false) ∧ openState.fault = none ∧ openState.isOpen = true := by
  decide +kernel

theorem witness_CloseReleasesAndIsIdempotent :
    (openState.fault = none ∧ openState.isOpen = true) ∧ closedState.fault = none ∧ closedState.isOpen = false := by
  decide +kernel

theorem witness_SetSpeedProgramsTheDevice :
    (closedState.fault = none ∧ 1 ≤ 1 ∧ closedState.isOpen = false) ∧
      (openState.fault = none ∧ openState.isOpen = true ∧ openState.ext.primitives = true :: [true, true, true]) ∧
      ∃ s : State, s.fault = none ∧ s.isOpen = true ∧ s.ext.primitives = false :: [] :=
  ⟨by decide +kernel, by decide +kernel, { openState with ext := { Outside.empty with primitives := [false] } }, rfl, rfl, rfl⟩

theorem witness_SpeedConversions : closedState.fault = none ∧ 0 < 1 ∧ (-1 : Int) < 0 := by decide +kernel

/-- The arguments "255", "256", "-1" and "abc", and two arguments. -/
theorem witness_SetLatencyTakesOneSmallInteger :
    (parseInt [50, 53, 53] = some ((255 : Nat) : Int) ∧ 255 ≤ 255) ∧
      (∀ v : Nat, parseInt [50, 53, 54] = some (v : Int) → 255 < v) ∧ (∀ v : Nat, parseInt [45, 49] = some (v : Int) → 255 < v) ∧
      (∀ v : Nat, parseInt [97, 98, 99] = some (v : Int) → 255 < v) ∧ [[49], [(50 : Byte)]].length ≠ 1 := by
  have h1 : parseInt [50, 53, 54] = some 256 := by decide +kernel
  have h2 : parseInt [45, 49] = some (-1) := by decide +kernel
  have h3 : parseInt [97, 98, 99] = none := by decide +kernel
  refine ⟨⟨by decide +kernel, le_refl _⟩, fun v h => ?_, fun v h => ?_, fun v h => ?_, by decide⟩
  · rw [h1] at h; have := Option.some.inj h; omega
  · rw [h2] at h; have := Option.some.inj h; omega
  · rw [h3] at h; cases h

theorem witness_DecimalArgumentsRead :
    ([2, 5, 5] ≠ ([] : List Nat) ∧ ∀ d ∈ [2, 5, 5], d < 10) ∧ (∀ d ∈ [0, 9], d < 10) ∧
      ((47 : Byte).toNat < 48 ∧ (47 : Byte) ≠ 45) ∧ (57 < (58 : Byte).toNat ∧ (58 : Byte) ≠ 45) ∧ [(49 : Byte)] ≠ [] ∧
      (45 : Byte).toNat < 48 := by decide

/-- A queue of one command of each kind that no state makes fault. -/
def quiet : List Command := [.reset true false, .runtest 5 13, .pathmove [], .tms 3 [0x05], .sleep 10]

theorem witness_ExecuteIsItsCommandsThenAFlush :
    (openState.fault = none ∧ openState.isOpen = true) ∧
      (runInstrs (quiet.map Command.toInstr) openState = .next (afterAll (quiet.map Command.toInstr) openState) ∧
        (afterAll (quiet.map Command.toInstr) openState).fault = none ∧
        exec .flush (afterAll (quiet.map Command.toInstr) openState) =
          .next (after .flush (afterAll (quiet.map Command.toInstr) openState)) ∧
        (after .flush (afterAll (quiet.map Command.toInstr) openState)).fault = none) ∧
      (runInstrs (([] : List Command).map Command.toInstr) overState = .next overState ∧ overState.fault = none ∧
        exec .flush overState = .next (after .flush overState) ∧ (after .flush overState).fault ≠ none) :=
  ⟨by decide +kernel,
    ⟨run_after (by decide +kernel), by decide +kernel, exec_after (by decide +kernel), by decide +kernel⟩, rfl, rfl,
    exec_after (by decide +kernel), by decide +kernel⟩

theorem witness_FaultEndsExecute :
    openState.fault = none ∧ openState.isOpen = true ∧
      runInstrs ([Command.reset true false].map Command.toInstr) openState =
        .next (afterAll ([Command.reset true false].map Command.toInstr) openState) ∧
      (afterAll ([Command.reset true false].map Command.toInstr) openState).fault = none ∧
      exec (Command.pathmove [4]).toInstr (afterAll ([Command.reset true false].map Command.toInstr) openState) =
        .next (after (Command.pathmove [4]).toInstr (afterAll ([Command.reset true false].map Command.toInstr) openState)) ∧
      (after (Command.pathmove [4]).toInstr (afterAll ([Command.reset true false].map Command.toInstr) openState)).fault ≠ none :=
  ⟨rfl, rfl, run_after (by decide +kernel), by decide +kernel, exec_after (by decide +kernel), by decide +kernel⟩

theorem witness_ExecuteRunsToTheEnd :
    Ready openState ∧ IdleReachable openState.cfg.tap ∧ ∀ c ∈ quiet, neverFaults openState.cfg.tap c := by
  refine ⟨ready_of (by decide +kernel), reference_idle_reachable, fun c hc => ?_⟩
  simp only [quiet, List.mem_cons, List.not_mem_nil, or_false] at hc
  rcases hc with rfl | rfl | rfl | rfl | rfl
  · trivial
  · exact fun _ => by decide +kernel
  · rfl
  · trivial
  · trivial

end Sys2Proof.Tests
end

section
/-! PROOF. What one step does, by what the Host's calls hold (O7). -/

namespace Sys2Proof.Proofs

open Sys2Proof Sys2Proof.Machine

/-- Every operation word has an opcode byte, so the decoder refuses the empty stream. -/
@[simp] theorem decode_nil : decode [] = .error .truncated := rfl

theorem fetch_of_no_calls {s : State} (hcalls : s.ext.calls = []) : fetch s = .nothing := by
  simp only [fetch, hcalls]

/-- The decoder's success rules out the empty stream, the one place where `fetch` does not ask it. -/
theorem fetch_of_wellFormed {s : State} {i : Instr} {rest : List Byte}
    (hdecode : decode s.ext.calls = .ok (i, rest)) (hwf : i.wellFormed s.cfg.tap.count = true) :
    fetch s = .operation i rest := by
  cases hcalls : s.ext.calls with
  | nil => simp [hcalls] at hdecode
  | cons code operands =>
    rw [hcalls] at hdecode
    simp only [fetch, hcalls, hdecode, hwf, if_true]

theorem step_of_fetch_nothing {s : State} (hfault : s.fault = none) (hfetch : fetch s = .nothing) :
    step s = .next (takeEndWrite s) := by
  simp only [step, hfault, hfetch]

theorem step_of_fetch_operation {s : State} {i : Instr} {rest : List Byte} (hfault : s.fault = none)
    (hfetch : fetch s = .operation i rest) : step s = exec i (afterFetch rest s) := by
  simp only [step, hfault, hfetch]

/-- Settles O7, by what `fetch` reads off the Host's calls: a well-formed operation, or nothing. -/
theorem stepRunsTheDecodedOperation : Obligations.StepRunsTheDecodedOperation := by
  unfold Obligations.StepRunsTheDecodedOperation
  constructor
  · intro s i rest hfault hdecode hwf
    exact step_of_fetch_operation hfault (fetch_of_wellFormed hdecode hwf)
  · intro s hfault hcalls
    exact step_of_fetch_nothing hfault (fetch_of_no_calls hcalls)

end Sys2Proof.Proofs
end

section
/-! PROOF. What holds of `body i` for every instruction at once: what a relation kept by the updates says of it, by the
layers of Laws/Kept.lean; and what the six operations that need no session (R11, R181) can do. -/

namespace Sys2Proof.Proofs

open Sys2Proof Sys2Proof.Machine Sys2Proof.Safety Sys2Proof.Laws

/-! ### From the body to the instruction -/

theorem Lands_mono {α : Type} {R R' : State → State → Prop} {s : State} {r : Res α} (h : Lands R s r)
    (himp : ∀ t, R s t → R' s t) : Lands R' s r := by
  cases r with
  | done a t => exact himp t h
  | raised t => exact ⟨himp t h.1, h.2⟩
  | stuck f => trivial

/-- A relation that does not speak of `ret` relates an instruction's states when it relates its body's. -/
theorem exec_next_of_lands {R : State → State → Prop} {i : Instr} {s t : State}
    (hret : ∀ t v, R s t → R s { t with ret := v }) (hbody : Lands R s (body i s)) (hexec : exec i s = .next t) :
    R s t := by
  rw [exec_eq_perform] at hexec
  obtain ⟨_, ⟨v, t', hdone, rfl⟩ | hraised⟩ := perform_next _ _ _ hexec
  · rw [hdone] at hbody
    exact hret t' v hbody
  · rw [hraised] at hbody
    exact hbody.1

/-! ### Operations that need a session -/

/-- The bytes an operation appends as its operands give them: ENQ's, and those of the operations that assert a reset
line. -/
def operandBytes (B : Params → Byte → Prop) (c : Params) : Instr → Prop
  | .enq b => B c b
  | .cmdReset trst srst => B c (resetByte c.pins trst srst)
  | .adpAssertReset lineA lineB => B c (resetByte c.pins lineA lineB)
  | _ => True

/-- The TAP states among an operation's operands that it may commit as they stand. -/
def operandTaps (T : Params → TapState → Prop) (c : Params) : Instr → Prop
  | .transition target => T c target
  | .cmdRuntest _ endState => T c endState
  | .execute queue => ∀ command ∈ queue, commandTaps T c command
  | _ => True

theorem operandBytes_of_forall {B : Params → Byte → Prop} (hB : ∀ c b, B c b) (c : Params) (i : Instr) :
    operandBytes B c i := by
  cases i with
  | enq => exact hB _ _
  | cmdReset => exact hB _ _
  | adpAssertReset => exact hB _ _
  | _ => trivial

theorem commandTaps_of_forall {T : Params → TapState → Prop} (hT : ∀ c x, T c x) (c : Params) (command : Command) :
    commandTaps T c command := by
  cases command with
  | runtest => exact hT _ _
  | _ => trivial

theorem operandTaps_of_forall {T : Params → TapState → Prop} (hT : ∀ c x, T c x) (c : Params) (i : Instr) :
    operandTaps T c i := by
  cases i with
  | transition => exact hT _ _
  | cmdRuntest => exact hT _ _
  | execute queue => exact fun command _ => commandTaps_of_forall hT c command
  | _ => trivial

section

variable {B : Params → Byte → Prop} {T : Params → TapState → Prop} {R : State → State → Prop} {i : Instr} {s : State}

/-- The operations of a session that write no TAP state are made of the updates of `Kept`. -/
theorem body_kept (hk : Kept B R) (hc : s.cfg.ok = true) (hbytes : operandBytes B s.cfg i)
    (hsession : sessionOp i ≠ none) (htap : mayWriteTap i = false) : Lands R s (body i s) := by
  have hquery : ∀ {α : Type} (op : Op) (v : State → α), Lands R s (needOpen op (fun s => .done (v s) s) s) :=
    fun op v => Lands_needOpen hk op _ s fun _ => hk.refl s
  cases i with
  | encode => exact Lands_map (hquery _ _)
  | encodeRst => exact Lands_map (hquery _ _)
  | enq b => exact Lands_map (enqOp_kept hk b s hc hbytes)
  | pulse tms tdi sreq => exact Lands_map (pulseOp_kept hk tms tdi sreq s hc)
  | idle => exact Lands_map (idleOp_kept hk s hc)
  | qAvail => exact Lands_map (hquery _ _)
  | qEmpty => exact Lands_map (hquery _ _)
  | qFull => exact Lands_map (hquery _ _)
  | flush => exact Lands_map (flushOp_kept hk s hc)
  | rxRead => exact Lands_map (rxReadOp_kept hk s)
  | cmdStableclocks cycles => exact Lands_map (cmdStableclocksOp_kept hk cycles s hc)
  | cmdSleep us => exact Lands_map (sleepOp_kept hk us s hc)
  | adpEmit clock select data sampleRequest =>
    exact Lands_map (adpEmitOp_kept hk clock select data sampleRequest s hc)
  | adpFlush => exact Lands_map (flushOp_kept hk s hc)
  | adpDelay us => exact Lands_map (sleepOp_kept hk us s hc)
  | adpAssertReset lineA lineB => exact Lands_map (adpAssertResetOp_kept hk lineA lineB s hc hbytes)
  | adpAvail => exact Lands_map (hquery _ _)
  | adpRead => exact Lands_map (rxReadOp_kept hk s)
  | transition | cmdReset | cmdRuntest | cmdPathmove | cmdTms | cmdScan | execute => cases htap
  | openSession | closeSession | setSpeed | speedToKhz | khzToSpeed | setLatency => exact absurd rfl hsession

/-- The TAP operations besides: all but scans and queues are made of the updates of `KeptTap`. -/
theorem body_keptTap (hk : KeptTap B T R) (hc : s.cfg.ok = true) (hbytes : operandBytes B s.cfg i)
    (htaps : operandTaps T s.cfg i) (hsession : sessionOp i ≠ none) (hscan : ∀ payload, i ≠ .cmdScan payload)
    (hqueue : ∀ queue, i ≠ .execute queue) : Lands R s (body i s) := by
  cases htap : mayWriteTap i with
  | false => exact body_kept hk.toKept hc hbytes hsession htap
  | true =>
    cases i with
    | transition target => exact Lands_map (transitionOp_kept hk target s hc htaps)
    | cmdReset trst srst => exact Lands_map (cmdResetOp_kept hk trst srst s hc hbytes)
    | cmdRuntest cycles endState => exact Lands_map (cmdRuntestOp_kept hk cycles endState s hc htaps)
    | cmdPathmove path => exact Lands_map (cmdPathmoveOp_kept hk path s hc)
    | cmdTms nbits bits => exact Lands_map (cmdTmsOp_kept hk nbits bits s hc)
    | cmdScan payload => exact absurd rfl (hscan payload)
    | execute queue => exact absurd rfl (hqueue queue)
    | _ => cases htap

theorem body_keptScan (hk : KeptScan B T R) (hc : s.cfg.ok = true) (hbytes : operandBytes B s.cfg i)
    (htaps : operandTaps T s.cfg i) (hsession : sessionOp i ≠ none) (hqueue : ∀ queue, i ≠ .execute queue) :
    Lands R s (body i s) := by
  by_cases hscan : ∃ payload, i = .cmdScan payload
  · obtain ⟨payload, rfl⟩ := hscan
    exact Lands_map (cmdScanOp_kept hk payload s hc)
  · exact body_keptTap hk.toKeptTap hc hbytes htaps hsession (not_exists.mp hscan) hqueue

theorem body_keptAll (hk : KeptAll B T R) (hc : s.cfg.ok = true) (hbytes : operandBytes B s.cfg i)
    (htaps : operandTaps T s.cfg i) (hsession : sessionOp i ≠ none) : Lands R s (body i s) := by
  by_cases hqueue : ∃ queue, i = .execute queue
  · obtain ⟨queue, rfl⟩ := hqueue
    exact Lands_map (executeOp_kept hk queue s hc htaps)
  · exact body_keptScan hk.toKeptScan hc hbytes htaps hsession (not_exists.mp hqueue)

end

/-! ### The six operations that need no session -/

/-- All that an operation which needs no session can do (R162 to R168). A field has a default where the operation leaves
what it speaks of as it was, so that an update names only what it writes. -/
structure Configures (i : Instr) (s t : State) : Prop where
  cfg : t.cfg = s.cfg := by rfl
  tapCur : t.tapCur = s.tapCur := by rfl
  tapEnd : t.tapEnd = s.tapEnd := by rfl
  flush : t.flush = s.flush := by rfl
  qi : t.qi = s.qi := by rfl
  wireOut : t.wireOut = s.wireOut := by rfl
  wireIn : t.wireIn = s.wireIn := by rfl
  tx : t.tx = s.tx ∨ t.tx = [] := by exact .inl rfl
  rx : t.rx = s.rx ∨ t.rx = [] := by exact .inl rfl
  isOpen : t.isOpen = s.isOpen ∨ i = .openSession ∨ i = .closeSession := by exact .inl rfl
  speedKhz : t.speedKhz = s.speedKhz ∨ i = .setSpeed t.speedKhz ∧ 1 ≤ t.speedKhz := by exact .inl rfl
  latency : t.latency = s.latency ∨ (∃ args, i = .setLatency args) ∧ t.latency ≤ 255 := by exact .inl rfl
  events : s.events <+: t.events := by exact List.prefix_refl _
  devCalls : s.devCalls <+: t.devCalls := by exact List.prefix_refl _
  fault : t.fault = none → s.fault = none := by exact id

theorem Configures.refl (i : Instr) (s : State) : Configures i s s := {}

theorem Configures.primitive {i : Instr} {s t : State} (h : Configures i s t) (call : DevCall) :
    Configures i s (primitive call t).2 := by
  have hcalls : s.devCalls <+: t.devCalls ++ [call] := h.devCalls.trans (List.prefix_append _ _)
  unfold Machine.primitive
  split <;> exact { h with devCalls := hcalls }

theorem Configures.release {i : Instr} {s t : State} (h : Configures i s t) : Configures i s (release t) :=
  { h with devCalls := h.devCalls.trans (List.prefix_append _ _) }

theorem Configures.warn {i : Instr} {s t : State} (h : Configures i s t) (kind : EventKind) (op : Op) :
    Configures i s (warn kind op t) :=
  { h with events := h.events.trans (List.prefix_append _ _) }

theorem Configures.opened {s t : State} (h : Configures .openSession s t) :
    Configures .openSession s { t with isOpen := true } :=
  { h with isOpen := .inr (.inl rfl) }

theorem Configures.of_primitive_eq {i : Instr} {s t u : State} {call : DevCall} {result : Bool} (h : Configures i s t)
    (heq : Machine.primitive call t = (result, u)) : Configures i s u := by
  have hu := h.primitive call
  rwa [heq] at hu

theorem openRun_configures (s : State) : Configures .openSession s (openRun s).2 := by
  have hempty : Configures .openSession s { s with tx := [], rx := [] } := { tx := .inr rfl, rx := .inr rfl }
  simp only [openRun]
  split
  next hclaim => exact (hempty.of_primitive_eq hclaim).warn _ _
  next hclaim =>
    have hclaimed := hempty.of_primitive_eq hclaim
    split
    next hmode => exact (hclaimed.of_primitive_eq hmode).release.warn _ _
    next hmode =>
      have hmoded := hclaimed.of_primitive_eq hmode
      split
      next hlatency => exact (hmoded.of_primitive_eq hlatency).release.warn _ _
      next hlatency =>
        have htimed := hmoded.of_primitive_eq hlatency
        split
        next hclock => exact (htimed.of_primitive_eq hclock).release.warn _ _
        next hclock => exact (htimed.of_primitive_eq hclock).opened

theorem Lands_configures_raise {α : Type} (i : Instr) (op : Op) (kind : FaultKind) (s : State) :
    Lands (Configures i) s (raise op kind s : Res α) :=
  ⟨{ fault := nofun }, nofun⟩

theorem openOp_configures (s : State) : Lands (Configures .openSession) s (openOp s) := by
  unfold openOp
  split
  · exact Lands_configures_raise _ _ _ _
  · exact openRun_configures s

theorem closeOp_configures (s : State) : Lands (Configures .closeSession) s (closeOp s) := by
  unfold closeOp
  split
  · exact { (Configures.refl .closeSession s).release with isOpen := .inr (.inr rfl) }
  · exact .refl _ _

theorem setSpeedOp_configures (khz : Nat) (s : State) : Lands (Configures (.setSpeed khz)) s (setSpeedOp khz s) := by
  have hcall := (Configures.refl (.setSpeed khz) s).primitive (.setClock khz)
  unfold setSpeedOp
  split
  · exact Lands_configures_raise _ _ _ _
  next hkhz =>
    have hspeed : 1 ≤ khz := by omega
    split
    · split
      · exact { hcall with speedKhz := .inr ⟨rfl, hspeed⟩ }
      · exact hcall
    · exact { speedKhz := .inr ⟨rfl, hspeed⟩ }

theorem khzToSpeedOp_configures (khz : Int) (s : State) :
    Lands (Configures (.khzToSpeed khz)) s (khzToSpeedOp khz s) := by
  unfold khzToSpeedOp
  split
  · exact Lands_configures_raise _ _ _ _
  · split
    · exact (Configures.refl _ s).warn _ _
    · exact .refl _ _

theorem setLatencyOp_configures (args : List ArgString) (s : State) :
    Lands (Configures (.setLatency args)) s (setLatencyOp args s) := by
  have hwarn : ∀ kind, Configures (.setLatency args) s (warn kind .setLatency s) :=
    fun kind => (Configures.refl _ s).warn kind _
  unfold setLatencyOp
  split
  · split
    · split
      · exact hwarn _
      · exact { latency := .inr ⟨⟨_, rfl⟩, show Int.toNat _ ≤ 255 by omega⟩ }
    · exact hwarn _
  · exact hwarn _

theorem body_configures (i : Instr) (s : State) (hsession : sessionOp i = none) :
    Lands (Configures i) s (body i s) := by
  cases i with
  | openSession => exact Lands_map (openOp_configures s)
  | closeSession => exact Lands_map (closeOp_configures s)
  | setSpeed khz => exact Lands_map (setSpeedOp_configures khz s)
  | speedToKhz => exact .refl _ _
  | khzToSpeed khz => exact khzToSpeedOp_configures khz s
  | setLatency args => exact Lands_map (setLatencyOp_configures args s)
  | _ => cases hsession

theorem exec_configures {i : Instr} {s t : State} (hsession : sessionOp i = none) (hexec : exec i s = .next t) :
    Configures i s t :=
  exec_next_of_lands (fun _ _ h => { h with }) (body_configures i s hsession) hexec

end Sys2Proof.Proofs
end

section
/-! PROOF. The fault mark (O8), power-on and the invariant (O10), and NotOpen (O16). -/

namespace Sys2Proof.Proofs

open Sys2Proof Sys2Proof.Machine Sys2Proof.Safety Sys2Proof.Laws

/-! ### The fault mark -/

theorem step_of_fault {s : State} {m : FaultMark} (hfault : s.fault = some m) : step s = .fault (.sessionFaulted m) := by
  simp only [step, hfault]

theorem exec_of_fault (i : Instr) {s : State} {m : FaultMark} (hfault : s.fault = some m) :
    exec i s = .fault (.sessionFaulted m) := by
  rw [exec_eq_perform, perform_faulted _ _ _ hfault]

/-- Settles O8: power-on and the raise by definition, the stop by `step` and `perform`, which look at the mark first. -/
theorem faultIsStickyAndFinal : Obligations.FaultIsStickyAndFinal := by
  unfold Obligations.FaultIsStickyAndFinal
  exact ⟨fun _ _ _ => rfl, raise_eq, fun _ _ hfault => ⟨step_of_fault hfault, fun i => exec_of_fault i hfault⟩⟩

/-! ### Power-on -/

theorem ok_initKhz {c : Params} (h : c.ok = true) : 1 ≤ c.initKhz := by
  simp [Params.ok] at h; omega

theorem ok_initLatency {c : Params} (h : c.ok = true) : c.initLatency ≤ 255 := by
  simp [Params.ok] at h; omega

theorem norm_lt_count (t : TapService) (x : TapState) : t.norm x < t.count := Nat.mod_lt _ (Nat.succ_pos _)

theorem powerOn_inv {c : Params} (hc : c.ok = true) (cur fin : TapState) : SessionInv (State.powerOn c cur fin) where
  params := hc
  txBound := Nat.zero_le _
  rxBound := Nat.zero_le _
  speed := ok_initKhz hc
  latency := ok_initLatency hc
  tapCur := norm_lt_count _ _
  tapEnd := norm_lt_count _ _
  transient _ := ⟨rfl, rfl⟩

theorem capacityOk_shifted (k : Fin 9) : capacityOk (64 * 2 ^ k.val) = true := by
  revert k; decide

/-- The six transmit positions of reset are distinct because they are the first six of a permutation. -/
theorem config_pins_distinct : Config.params.pins.distinct = true := by
  have hnodup : ([0, 1, 2, 3, 4, 5].map Config.pinOrder).Nodup :=
    List.Nodup.map Config.pinOrder.injective (by decide)
  exact decide_eq_true hnodup

/-- The open parameters of reset are within R5's constraints by how Config.params is built from them (log 1). -/
theorem config_params_ok : Config.params.ok = true := by
  have hframe : 1 ≤ Config.params.frame := Nat.le_add_left _ _
  have hkhz : 1 ≤ Config.params.initKhz := Nat.le_add_left _ _
  have hlatency : Config.params.initLatency ≤ 255 := Nat.le_of_lt_succ Config.initLatency.isLt
  have htx : capacityOk Config.params.txCap = true := capacityOk_shifted _
  have hrx : capacityOk Config.params.rxCap = true := capacityOk_shifted _
  simp only [Params.ok, htx, hrx, config_pins_distinct, hframe, hkhz, hlatency, decide_true, Bool.and_self]

/-- Settles O10: reset is a power-on, and its parameters are admissible. -/
theorem powerOnMeetsInvariant : Obligations.PowerOnMeetsInvariant := by
  unfold Obligations.PowerOnMeetsInvariant
  exact ⟨fun _ cur fin hc => powerOn_inv hc cur fin, powerOn_inv config_params_ok _ _⟩

/-! ### NotOpen -/

theorem enqOp_closed (b : Byte) {s : State} (hclosed : s.isOpen = false) :
    enqOp b s = .raised { s with fault := some ⟨.notOpen, .enq⟩ } := needOpen_closed _ _ _ hclosed

/-- Without a session a pulse ends at its first append. -/
theorem pulseOp_closed (tms tdi sreq : Bool) {s : State} (hclosed : s.isOpen = false) :
    pulseOp tms tdi sreq s = .raised { s with fault := some ⟨.notOpen, .enq⟩ } := by
  rw [pulseOp, enqOp_closed _ hclosed, andThen_raised]

/-- Without a session the body of an operation is its check alone. -/
theorem body_closed {i : Instr} {op : Op} {s : State} (hop : sessionOp i = some op) (hclosed : s.isOpen = false) :
    body i s = .raised { s with fault := some ⟨.notOpen, op⟩ } := by
  have hcheck : ∀ {α : Type} (op : Op) (act : State → Res α) (g : α → OpResult),
      (needOpen op act s).map g = .raised { s with fault := some ⟨.notOpen, op⟩ } := fun op act g => by
    rw [needOpen_closed op act s hclosed, map_raised]
  cases i with
  | pulse tms tdi sreq =>
    cases hop
    exact congrArg (Res.map _) (pulseOp_closed tms tdi sreq hclosed)
  | idle =>
    cases hop
    exact congrArg (Res.map _) (enqOp_closed _ hclosed)
  | openSession | closeSession | setSpeed | speedToKhz | khzToSpeed | setLatency => cases hop
  | _ => cases hop; exact hcheck _ _ _

/-- Settles O16: the body's check is what the instruction leaves. -/
theorem sessionOperationsNeedAnOpenSession : Obligations.SessionOperationsNeedAnOpenSession := by
  unfold Obligations.SessionOperationsNeedAnOpenSession
  intro i op s hop hfault hclosed
  rw [exec_eq_perform, perform_raised _ _ _ hfault (body_closed hop hclosed)]

end Sys2Proof.Proofs
end

section
/-! PROOF. The registers an operation writes: the frame of every operation (O12), and the writers of `tap_cur` (O13). -/

namespace Sys2Proof.Proofs

open Sys2Proof Sys2Proof.Machine Sys2Proof.Safety Sys2Proof.Laws

/-! ### Registers and histories -/

/-- The frame of the operations that need a session: the registers none of them writes, and the histories, which only grow
(R22, R23, R24). Defaults as in `Configures`. -/
structure Framed (s t : State) : Prop where
  cfg : t.cfg = s.cfg := by rfl
  tapEnd : t.tapEnd = s.tapEnd := by rfl
  isOpen : t.isOpen = s.isOpen := by rfl
  speedKhz : t.speedKhz = s.speedKhz := by rfl
  latency : t.latency = s.latency := by rfl
  devCalls : t.devCalls = s.devCalls := by rfl
  wireOut : s.wireOut <+: t.wireOut := by exact List.prefix_refl _
  wireIn : s.wireIn <+: t.wireIn := by exact List.prefix_refl _
  events : s.events <+: t.events := by exact List.prefix_refl _

theorem Framed.trans {s t u : State} (h : Framed s t) (h' : Framed t u) : Framed s u where
  cfg := h'.cfg.trans h.cfg
  tapEnd := h'.tapEnd.trans h.tapEnd
  isOpen := h'.isOpen.trans h.isOpen
  speedKhz := h'.speedKhz.trans h.speedKhz
  latency := h'.latency.trans h.latency
  devCalls := h'.devCalls.trans h.devCalls
  wireOut := h.wireOut.trans h'.wireOut
  wireIn := h.wireIn.trans h'.wireIn
  events := h.events.trans h'.events

theorem framed_of_flushEnd {s : State} {r : Res Status} (hend : FlushEnd s.tx s.tx s r) : Lands Framed s r := by
  cases hend with
  | ok => exact { wireOut := List.prefix_append _ _, wireIn := List.prefix_append _ _ }
  | failed =>
    exact { wireOut := List.prefix_append _ _, wireIn := List.prefix_append _ _, events := List.prefix_append _ _ }
  | overflow => exact ⟨{ wireOut := List.prefix_append _ _, wireIn := List.prefix_append _ _ }, nofun⟩
  | stuck => trivial

/-- The frame is kept whatever bytes are appended and whatever TAP states committed. -/
theorem framed_keptAll : KeptAll (fun _ _ => True) (fun _ _ => True) Framed where
  refl _ := {}
  trans := Framed.trans
  cfg h := h.cfg
  append _ _ _ _ _ := {}
  flushed _ _ _ hend := framed_of_flushEnd hend
  read _ _ _ _ := {}
  logged _ _ := { events := List.prefix_append _ _ }
  marked _ _ := {}
  pin _ _ _ _ _ _ := trivial
  tap _ _ _ := {}
  tapEnd _ := {}
  named _ _ := trivial
  reset _ _ _ := trivial
  returns _ _ := {}
  outside _ _ _ := {}
  index _ _ := {}

theorem exec_framed {i : Instr} {s t : State} (hc : s.cfg.ok = true) (hsession : sessionOp i ≠ none)
    (hexec : exec i s = .next t) : Framed s t :=
  exec_next_of_lands (fun _ _ h => { h with })
    (body_keptAll framed_keptAll hc (operandBytes_of_forall (fun _ _ => trivial) _ _)
      (operandTaps_of_forall (fun _ _ => trivial) _ _) hsession)
    hexec

/-- Settles O12, by the two frames: that of the six operations that need no session, which names each register's writer,
and that of all others, which write none of these registers. -/
theorem operationsWriteOnlyTheirRegisters : Obligations.OperationsWriteOnlyTheirRegisters := by
  unfold Obligations.OperationsWriteOnlyTheirRegisters
  intro i s t hc hexec
  by_cases hsession : sessionOp i = none
  · have h := exec_configures hsession hexec
    refine ⟨h.cfg, h.tapEnd, h.wireOut ▸ List.prefix_refl _, h.wireIn ▸ List.prefix_refl _, h.events, h.devCalls,
      fun hopen hclose => ?_, fun hspeed => ?_, fun hlatency => ?_⟩
    · exact h.isOpen.resolve_right (not_or.mpr ⟨hopen, hclose⟩)
    · exact h.speedKhz.resolve_right fun hset => hspeed _ hset.1
    · exact h.latency.resolve_right fun ⟨⟨args, hset⟩, _⟩ => hlatency args hset
  · have h := exec_framed hc hsession hexec
    exact ⟨h.cfg, h.tapEnd, h.wireOut, h.wireIn, h.events, h.devCalls ▸ List.prefix_refl _, fun _ _ => h.isOpen,
      fun _ => h.speedKhz, fun _ => h.latency⟩

/-! ### tap_cur -/

/-- The TAP state, and the parameters its operations look at, are as they were. -/
structure SameTap (s t : State) : Prop where
  cfg : t.cfg = s.cfg := by rfl
  tapCur : t.tapCur = s.tapCur := by rfl

theorem sameTap_of_flushEnd {s : State} {r : Res Status} (hend : FlushEnd s.tx s.tx s r) : Lands SameTap s r := by
  cases hend with
  | ok => exact {}
  | failed => exact {}
  | overflow => exact ⟨{}, nofun⟩
  | stuck => trivial

theorem sameTap_kept : Kept (fun _ _ => True) SameTap where
  refl _ := {}
  trans h h' := { cfg := h'.cfg.trans h.cfg, tapCur := h'.tapCur.trans h.tapCur }
  cfg h := h.cfg
  append _ _ _ _ _ := {}
  flushed _ _ _ hend := sameTap_of_flushEnd hend
  read _ _ _ _ := {}
  logged _ _ := {}
  marked _ _ := {}
  pin _ _ _ _ _ _ := trivial

/-- Settles O13: an operation that is not of the list either configures the session or is made of the updates of `Kept`,
none of which writes `tap_cur`. -/
theorem onlyTapOperationsWriteTapCur : Obligations.OnlyTapOperationsWriteTapCur := by
  unfold Obligations.OnlyTapOperationsWriteTapCur
  intro i s t hc htap hexec
  by_cases hsession : sessionOp i = none
  · exact (exec_configures hsession hexec).tapCur
  · have hbody := body_kept sameTap_kept hc (operandBytes_of_forall (fun _ _ => trivial) _ _) hsession htap
    exact (exec_next_of_lands (fun _ _ h => { h with }) hbody hexec).tapCur

end Sys2Proof.Proofs
end

section
/-! PROOF. Every step keeps the invariant of the session (O9). While EXECUTE runs, the queue index is set (R29), so the
updates are followed on the state with its queue index masked; every other operation is followed on the state as it is. -/

namespace Sys2Proof.Proofs

open Sys2Proof Sys2Proof.Machine Sys2Proof.Safety Sys2Proof.Laws

/-! ### The updates -/

/-- The state with its queue index seen through `mask`. -/
def masked (mask : Option Nat → Option Nat) (s : State) : State := { s with qi := mask s.qi }

/-- The parameters stay, and the invariant holds after if it held before, of the state as masked. -/
structure KeepsInv (mask : Option Nat → Option Nat) (s t : State) : Prop where
  cfg : t.cfg = s.cfg
  inv : SessionInv (masked mask s) → SessionInv (masked mask t)

theorem keepsInv_of_flushEnd (mask : Option Nat → Option Nat) {s : State} {r : Res Status}
    (hend : FlushEnd s.tx s.tx s r) : Lands (KeepsInv mask) s r := by
  cases hend with
  | ok data e hlen he hcap =>
    exact { cfg := rfl, inv := fun h => { h with txBound := Nat.zero_le _, rxBound := hcap h.rxBound } }
  | failed =>
    exact { cfg := rfl, inv := fun h => { h with txBound := Nat.zero_le _, rxBound := Nat.zero_le _ } }
  | overflow wrote data kept f e hp hlen hk hfull =>
    exact ⟨{ cfg := rfl, inv := fun h => { h with rxBound := hfull.le, transient := nofun } }, nofun⟩
  | stuck => trivial

theorem keepsInv_append (mask : Option Nat → Option Nat) (s : State) (b : Byte) (hroom : s.tx.length ≠ s.cfg.txCap) :
    KeepsInv mask s { s with tx := s.tx ++ [b] } where
  cfg := rfl
  inv h := { h with
    txBound := by
      have hlt : s.tx.length < s.cfg.txCap := lt_of_le_of_ne h.txBound hroom
      simpa [masked] using hlt }

theorem keepsInv_read (mask : Option Nat → Option Nat) (s : State) (v : Byte) (rest : List Byte)
    (hrx : s.rx = v :: rest) : KeepsInv mask s { s with rx := rest } where
  cfg := rfl
  inv h := { h with
    rxBound := by
      have hle : s.rx.length ≤ s.cfg.rxCap := h.rxBound
      simp only [hrx, List.length_cons] at hle
      exact Nat.le_of_succ_le hle }

/-- The invariant is kept by every update but the queue index's, where committed TAP states are the TapService's. -/
theorem keepsInv_keptScan (mask : Option Nat → Option Nat) :
    KeptScan (fun _ _ => True) (fun c x => x < c.tap.count) (KeepsInv mask) where
  refl _ := ⟨rfl, id⟩
  trans h h' := ⟨h'.cfg.trans h.cfg, h'.inv ∘ h.inv⟩
  cfg h := h.cfg
  append s b _ hroom _ := keepsInv_append mask s b hroom
  flushed _ _ _ hend := keepsInv_of_flushEnd mask hend
  read := keepsInv_read mask
  logged _ _ := ⟨rfl, fun h => { h with }⟩
  marked _ _ := ⟨rfl, fun h => { h with transient := nofun }⟩
  pin _ _ _ _ _ _ := trivial
  tap _ _ hx := ⟨rfl, fun h => { h with tapCur := hx }⟩
  tapEnd _ := ⟨rfl, fun h => { h with tapCur := h.tapEnd }⟩
  named _ _ := norm_lt_count _ _
  reset _ _ _ := trivial
  returns _ _ := ⟨rfl, fun h => { h with }⟩
  outside _ _ _ := ⟨rfl, fun h => { h with }⟩

/-- Masked out, the queue index may be written too. -/
theorem keepsInv_keptAll :
    KeptAll (fun _ _ => True) (fun c x => x < c.tap.count) (KeepsInv fun _ => none) where
  toKeptScan := keepsInv_keptScan _
  index _ _ := ⟨rfl, id⟩

/-! ### Queues -/

theorem andThen_done_iff {α β : Type} {r : Res α} {f : α → State → Res β} {b : β} {u : State} :
    r.andThen f = .done b u ↔ ∃ a t, r = .done a t ∧ f a t = .done b u := by
  cases r <;> simp

theorem needOpen_done {α : Type} {op : Op} {act : State → Res α} {s t : State} {a : α}
    (h : needOpen op act s = .done a t) : act s = .done a t := by
  unfold needOpen at h
  split at h
  · exact h
  · cases h

/-- A queue that runs to its end leaves no queue index (R29). -/
theorem executeOp_done_qi {queue : List Command} {s t : State} {st : Status} (h : executeOp queue s = .done st t) :
    t.qi = none := by
  obtain ⟨_, u, _, hflush⟩ := andThen_done_iff.mp (needOpen_done h)
  obtain ⟨_, v, _, hend⟩ := andThen_done_iff.mp hflush
  cases hend
  rfl

theorem sessionInv_mask {s : State} (h : SessionInv s) : SessionInv (masked (fun _ => none) s) :=
  { h with transient := fun hfault => ⟨(h.transient hfault).1, rfl⟩ }

theorem sessionInv_unmask {s : State} (h : SessionInv (masked (fun _ => none) s)) (hqi : s.fault = none → s.qi = none) :
    SessionInv s :=
  { h with transient := fun hfault => ⟨(h.transient hfault).1, hqi hfault⟩ }

theorem executeOp_keeps_inv {queue : List Command} {s : State} (hinv : SessionInv s)
    (htaps : ∀ c ∈ queue, commandTaps (fun c x => x < c.tap.count) s.cfg c) :
    Lands (fun _ t => SessionInv t) s (executeOp queue s) := by
  have hkept := executeOp_kept keepsInv_keptAll queue s hinv.params htaps
  cases hrun : executeOp queue s with
  | done st t =>
    rw [hrun] at hkept
    exact sessionInv_unmask (hkept.inv (sessionInv_mask hinv)) fun _ => executeOp_done_qi hrun
  | raised t =>
    rw [hrun] at hkept
    exact ⟨sessionInv_unmask (hkept.1.inv (sessionInv_mask hinv)) fun hfault => absurd hfault hkept.2, hkept.2⟩
  | stuck f => trivial

/-! ### Instructions -/

theorem tapStateOk_iff {n : Nat} {x : TapState} : tapStateOk n x = true ↔ x < n := decide_eq_true_iff

theorem commandTaps_of_wellFormed {p : Params} {c : Command} (hwf : c.wellFormed p.tap.count = true) :
    commandTaps (fun p x => x < p.tap.count) p c := by
  cases c with
  | runtest => exact tapStateOk_iff.mp hwf
  | _ => trivial

theorem operandTaps_of_wellFormed {p : Params} {i : Instr} (hwf : i.wellFormed p.tap.count = true) :
    operandTaps (fun p x => x < p.tap.count) p i := by
  cases i with
  | transition => exact tapStateOk_iff.mp hwf
  | cmdRuntest => exact tapStateOk_iff.mp hwf
  | execute => exact fun c hc => commandTaps_of_wellFormed (List.all_eq_true.mp hwf c hc)
  | _ => trivial

theorem Configures.keeps_inv {i : Instr} {s t : State} (h : Configures i s t) (hinv : SessionInv s) : SessionInv t where
  params := h.cfg ▸ hinv.params
  txBound := by
    rw [h.cfg]
    rcases h.tx with htx | htx <;> simp [htx, hinv.txBound]
  rxBound := by
    rw [h.cfg]
    rcases h.rx with hrx | hrx <;> simp [hrx, hinv.rxBound]
  speed := by
    rcases h.speedKhz with hsame | hset
    · exact hsame ▸ hinv.speed
    · exact hset.2
  latency := by
    rcases h.latency with hsame | hset
    · exact hsame ▸ hinv.latency
    · exact hset.2
  tapCur := by rw [h.tapCur, h.cfg]; exact hinv.tapCur
  tapEnd := by rw [h.tapEnd, h.cfg]; exact hinv.tapEnd
  transient hfault := by
    rw [h.flush, h.qi]
    exact hinv.transient (h.fault hfault)

theorem body_keeps_inv {i : Instr} {s : State} (hinv : SessionInv s) (hwf : i.wellFormed s.cfg.tap.count = true) :
    Lands (fun _ t => SessionInv t) s (body i s) := by
  have htaps := operandTaps_of_wellFormed hwf
  by_cases hsession : sessionOp i = none
  · exact Lands_mono (body_configures i s hsession) fun t h => h.keeps_inv hinv
  · by_cases hqueue : ∃ queue, i = .execute queue
    · obtain ⟨queue, rfl⟩ := hqueue
      exact Lands_map (executeOp_keeps_inv hinv htaps)
    · have hbytes := operandBytes_of_forall (B := fun _ _ => True) (fun _ _ => trivial) s.cfg i
      exact Lands_mono
        (body_keptScan (keepsInv_keptScan id) hinv.params hbytes htaps hsession (not_exists.mp hqueue))
        fun t h => h.inv hinv

theorem exec_keeps_inv {i : Instr} {s t : State} (hinv : SessionInv s) (hwf : i.wellFormed s.cfg.tap.count = true)
    (hexec : exec i s = .next t) : SessionInv t :=
  exec_next_of_lands (fun _ _ h => { h with }) (body_keeps_inv hinv hwf) hexec

/-! ### Steps -/

theorem fetch_wellFormed {s : State} {i : Instr} {rest : List Byte} (hfetch : fetch s = .operation i rest) :
    i.wellFormed s.cfg.tap.count = true := by
  unfold fetch at hfetch
  split at hfetch
  · cases hfetch
  · split at hfetch
    · split at hfetch
      next hwf => cases hfetch; exact hwf
      next => cases hfetch
    · cases hfetch

/-- All a step with a next state can be: a wait, or the meaning of a well-formed operation. -/
theorem step_next {s t : State} (hstep : step s = .next t) :
    t = takeEndWrite s ∨ ∃ i rest, i.wellFormed s.cfg.tap.count = true ∧ exec i (afterFetch rest s) = .next t := by
  unfold step at hstep
  split at hstep
  · cases hstep
  · split at hstep
    next => cases hstep; exact .inl rfl
    next i rest hfetch => exact .inr ⟨i, rest, fetch_wellFormed hfetch, hstep⟩
    next => cases hstep

theorem takeEndWrite_keeps_inv {s : State} (hinv : SessionInv s) : SessionInv (takeEndWrite s) := by
  unfold takeEndWrite
  split
  · exact hinv
  · exact { hinv with }
  · exact { hinv with tapEnd := norm_lt_count _ _ }

theorem afterFetch_keeps_inv {s : State} (rest : List Byte) (hinv : SessionInv s) : SessionInv (afterFetch rest s) :=
  takeEndWrite_keeps_inv { hinv with }

/-- Settles O9, by the two kinds of step: a wait writes at most `tap_end`, and a fetched operation is well formed and runs
in a state that meets the invariant. -/
theorem stepKeepsInvariant : Obligations.StepKeepsInvariant := by
  unfold Obligations.StepKeepsInvariant
  intro s t hinv hstep
  obtain rfl | ⟨i, rest, hwf, hexec⟩ := step_next hstep
  · exact takeEndWrite_keeps_inv hinv
  · exact exec_keeps_inv (afterFetch_keeps_inv rest hinv) (by rwa [afterFetch_cfg]) hexec

end Sys2Proof.Proofs
end

section
/-! PROOF. What a FLUSH that returns has written to the wires, in which order (O27). -/

namespace Sys2Proof.Proofs

open Sys2Proof Sys2Proof.Machine Sys2Proof.Safety Sys2Proof.Laws

/-- A FLUSH of an open session that raised no fault returned a status, in one of the two ways `FlushEnd` gives for that:
a raise would have left its mark (R25, R183). -/
theorem exec_flush_returned {s t : State} (hc : s.cfg.ok = true) (hopen : s.isOpen = true)
    (hexec : exec .flush s = .next t) (hfault : t.fault = none) :
    ∃ st u, FlushEnd s.tx s.tx s (.done st u) ∧ t = { u with ret := .status st } := by
  rw [exec_eq_perform] at hexec
  obtain ⟨_, ⟨v, u, hdone, rfl⟩ | hraised⟩ := perform_next _ _ _ hexec
  · obtain ⟨st, u', hflush, hvalue⟩ := andThen_done_iff.mp hdone
    cases hvalue
    exact ⟨st, u, hflush ▸ flushOp_end s hopen (ok_frame hc), rfl⟩
  · have hmark : Marks s (body .flush s) := Marks_map _ (flushOp_marks s)
    rw [hraised] at hmark
    exact absurd hfault hmark

/-- The bytes a FLUSH that returned has put on the wires: all that was to be sent after OK, a prefix of it after FAIL
(R44). -/
theorem flushEnd_done_wireOut {unsent unread : List Byte} {s u : State} {st : Status}
    (hend : FlushEnd unsent unread s (.done st u)) :
    st = .ok ∧ u.wireOut = s.wireOut ++ unsent ∨
      st = .fail ∧ ∃ wrote, wrote <+: unsent ∧ u.wireOut = s.wireOut ++ wrote := by
  cases hend with
  | ok => exact .inl ⟨rfl, rfl⟩
  | failed wrote _ _ _ _ _ hprefix => exact .inr ⟨rfl, wrote, hprefix, rfl⟩

/-- Settles O27, by the two ways in which a FLUSH returns. -/
theorem flushKeepsFifoOrder : Obligations.FlushKeepsFifoOrder := by
  unfold Obligations.FlushKeepsFifoOrder
  intro s t hc hopen hexec hfault
  obtain ⟨st, u, hend, rfl⟩ := exec_flush_returned hc hopen hexec hfault
  obtain ⟨rfl, hall⟩ | ⟨rfl, hprefix⟩ := flushEnd_done_wireOut hend
  · exact ⟨fun _ => hall, nofun, .inl rfl⟩
  · exact ⟨nofun, fun _ => hprefix, .inr rfl⟩

end Sys2Proof.Proofs
end

section
/-! PROOF. The decoder and the encoder are inverse (O1, O2), and the words the opcode map writes out decode (O5). -/

namespace Sys2Proof.Proofs

open Sys2Proof Sys2Proof.Laws

/-! ### The opcode byte -/

theorem decode_of_opOfCode {code : Byte} {op : Op} (hop : opOfCode code.toNat = some op) (bytes : List Byte) :
    decode (code :: bytes) = takeOperands op bytes := by
  simp only [decode, andThen, takeByte, hop]

theorem decode_of_unmapped {code : Byte} (hop : opOfCode code.toNat = none) (bytes : List Byte) :
    decode (code :: bytes) = .error (.unknownOp code.toNat) := by
  simp only [decode, andThen, takeByte, hop]

theorem decode_opCode (op : Op) (bytes : List Byte) :
    decode (BitVec.ofNat 8 (opCode op) :: bytes) = takeOperands op bytes :=
  decode_of_opOfCode (by rw [opCode_byte, opOfCode_opCode]) bytes

/-! ### Decoding what was encoded -/

/-- The first operand, read back; the bytes of the others stay for the reader after it. -/
theorem andThen_put {α β : Type} {p : Parse α} {put : α → List Byte} (hp : Reads p put) (f : α → Parse β) (a : α)
    (rest : List Byte) : andThen p f (put a ++ rest) = f a rest :=
  andThen_ok (hp a rest)

/-- An operation that is also a kind of command record reads its operands as the record's fields (R67). -/
theorem takeOperands_put_command (c : Command) (rest : List Byte) :
    takeOperands c.toInstr.op (putOperands c.toInstr ++ rest) = .ok (c.toInstr, rest) := by
  have hfields : andThen (takeFields c.toInstr.op) (fun c => give c.toInstr) (putFields c ++ rest) =
      .ok (c.toInstr, rest) := andThen_ok (reads_fields c rest)
  cases c <;> exact hfields

theorem takeOperands_put (i : Instr) (rest : List Byte) :
    takeOperands i.op (putOperands i ++ rest) = .ok (i, rest) := by
  cases i with
  | cmdReset trst srst => exact takeOperands_put_command (.reset trst srst) rest
  | cmdRuntest cycles endState => exact takeOperands_put_command (.runtest cycles endState) rest
  | cmdPathmove path => exact takeOperands_put_command (.pathmove path) rest
  | cmdStableclocks cycles => exact takeOperands_put_command (.stableclocks cycles) rest
  | cmdTms nbits bits => exact takeOperands_put_command (.tms nbits bits) rest
  | cmdSleep us => exact takeOperands_put_command (.sleep us) rest
  | cmdScan payload => exact takeOperands_put_command (.scan payload) rest
  | encode | encodeRst | pulse | adpEmit | adpAssertReset =>
    simp only [Instr.op, takeOperands, putOperands, List.append_assoc, andThen_put reads_bit, give_ok]
  | qAvail | qEmpty | qFull => exact andThen_put reads_buf _ _ rest
  | transition | adpDelay | setSpeed | speedToKhz => exact andThen_put reads_nat _ _ rest
  | khzToSpeed khz => exact andThen_put reads_int _ khz rest
  | setLatency args => exact andThen_put (reads_list (reads_list reads_byte)) _ args rest
  | execute queue => exact andThen_put (reads_list reads_command) _ queue rest
  | enq | idle | flush | rxRead | adpFlush | adpAvail | adpRead | openSession | closeSession => rfl

/-- Settles O1: the opcode selects its operation, and each operand is read back in its place. -/
theorem decodeOfEncodeIsIdentity : Obligations.DecodeOfEncodeIsIdentity := by
  unfold Obligations.DecodeOfEncodeIsIdentity
  intro i rest
  calc decode (encode i ++ rest) = takeOperands i.op (putOperands i ++ rest) := decode_opCode i.op _
    _ = .ok (i, rest) := takeOperands_put i rest

/-! ### Encoding what was decoded -/

/-- A reader of the operands of `op` that stands after the operand bytes `before`: whatever operation it answers is one
of `op`, and its operands are written as `before` and the bytes read. -/
def Completes (op : Op) (before : List Byte) (p : Parse Instr) : Prop :=
  ∀ (bytes rest : List Byte) (i : Instr), p bytes = .ok (i, rest) →
    i.op = op ∧ before ++ bytes = putOperands i ++ rest

theorem Completes.give {op : Op} {before : List Byte} {i : Instr} (hop : i.op = op) (hput : before = putOperands i) :
    Completes op before (give i) := by
  intro bytes rest j h
  obtain ⟨rfl, rfl⟩ := give_eq_ok h
  exact ⟨hop, by rw [hput]⟩

theorem Completes.andThen {α : Type} {op : Op} {before : List Byte} {p : Parse α} {put : α → List Byte}
    {f : α → Parse Instr} (hp : Exact p put) (hf : ∀ a, Completes op (before ++ put a) (f a)) :
    Completes op before (andThen p f) := by
  intro bytes rest i h
  obtain ⟨a, mid, hread, hrest⟩ := andThen_eq_ok h
  obtain ⟨hop, hput⟩ := hf a mid rest i hrest
  exact ⟨hop, by rw [hp _ _ _ hread, ← List.append_assoc, hput]⟩

theorem putOperands_command (c : Command) : putOperands c.toInstr = putFields c := by cases c <;> rfl

theorem completes_fields (op : Op) : Completes op [] (andThen (takeFields op) fun c => give c.toInstr) := by
  intro bytes rest i h
  obtain ⟨c, mid, hread, hgive⟩ := andThen_eq_ok h
  obtain ⟨rfl, rfl⟩ := give_eq_ok hgive
  obtain ⟨hop, hput⟩ := exact_fields hread
  exact ⟨hop, by rw [putOperands_command, hput, List.nil_append]⟩

theorem completes_operands (op : Op) : Completes op [] (takeOperands op) := by
  cases op with
  | cmdReset | cmdRuntest | cmdPathmove | cmdStableclocks | cmdTms | cmdSleep | cmdScan => exact completes_fields _
  | encode | adpEmit =>
    exact .andThen exact_bit fun _ => .andThen exact_bit fun _ => .andThen exact_bit fun _ => .andThen exact_bit fun _ =>
      .give rfl rfl
  | pulse =>
    exact .andThen exact_bit fun _ => .andThen exact_bit fun _ => .andThen exact_bit fun _ => .give rfl rfl
  | encodeRst | adpAssertReset => exact .andThen exact_bit fun _ => .andThen exact_bit fun _ => .give rfl rfl
  | qAvail | qEmpty | qFull => exact .andThen exact_buf fun _ => .give rfl rfl
  | transition | adpDelay | setSpeed | speedToKhz => exact .andThen exact_nat fun _ => .give rfl rfl
  | enq => exact .andThen exact_byte fun _ => .give rfl rfl
  | khzToSpeed => exact .andThen exact_int fun _ => .give rfl rfl
  | setLatency => exact .andThen (exact_list (exact_list exact_byte)) fun _ => .give rfl rfl
  | execute => exact .andThen (exact_list exact_command) fun _ => .give rfl rfl
  | idle | flush | rxRead | adpFlush | adpAvail | adpRead | openSession | closeSession => exact .give rfl rfl

/-- Settles O2: the opcode byte is that of the operation read, and its operands are the bytes read after it. -/
theorem decodedWordIsItsEncoding : Obligations.DecodedWordIsItsEncoding := by
  unfold Obligations.DecodedWordIsItsEncoding
  intro bytes rest i h
  cases bytes with
  | nil => simp only [decode_nil, reduceCtorEq] at h
  | cons code operands =>
    cases hop : opOfCode code.toNat with
    | none => simp only [decode_of_unmapped hop, reduceCtorEq] at h
    | some op =>
      rw [decode_of_opOfCode hop] at h
      obtain ⟨rfl, hput⟩ := completes_operands op operands rest i h
      have hcode : BitVec.ofNat 8 (opCode i.op) = code := by
        rw [opCode_of_opOfCode hop, BitVec.ofNat_toNat, BitVec.setWidth_eq]
      calc code :: operands = code :: (putOperands i ++ rest) := by rw [← hput, List.nil_append]
        _ = encode i ++ rest := by rw [← hcode]; rfl

/-- Settles O5: each word is the encoding of what it stands for, with nothing after it. -/
theorem writtenOutWordsDecode : Obligations.WrittenOutWordsDecode := by
  unfold Obligations.WrittenOutWordsDecode
  have hread (i : Instr) {bytes : List Byte} (hword : bytes = encode i) : decode bytes = .ok (i, []) := by
    rw [hword, ← decodeOfEncodeIsIdentity i [], List.append_nil]
  exact ⟨hread _ rfl, hread _ rfl, hread _ rfl, hread _ rfl, hread _ rfl, hread _ rfl, hread _ rfl, hread _ rfl⟩

end Sys2Proof.Proofs
end

section
/-! PROOF. Words the decoder refuses, by name and before any step: an opcode or a kind tag outside the map (O3), and an
ill-formed operand (O4). -/

namespace Sys2Proof.Proofs

open Sys2Proof Sys2Proof.Machine Sys2Proof.Safety Sys2Proof.Laws

/-! ### What a step does with a word that is refused -/

theorem step_of_decode_error {s : State} {code : Byte} {operands : List Byte} {e : DecodeError} (hfault : s.fault = none)
    (hcalls : s.ext.calls = code :: operands) (hdecode : decode (code :: operands) = .error e) :
    step s = .refused (.badWord e) := by
  simp only [step, hfault, fetch, hcalls, hdecode]

theorem step_of_illFormed {s : State} {i : Instr} {rest : List Byte} (hfault : s.fault = none)
    (hcalls : s.ext.calls = encode i ++ rest) (hwf : i.wellFormed s.cfg.tap.count = false) :
    step s = .refused (.illFormed i.op) := by
  have hdecode : decode (encode i ++ rest) = .ok (i, rest) := decodeOfEncodeIsIdentity i rest
  rw [encode, List.cons_append] at hcalls hdecode
  simp only [step, hfault, fetch, hcalls, hdecode, hwf, Bool.false_eq_true, if_false]

/-! ### Queues -/

/-- A list whose elements are read one by one is refused as its first refused element is. -/
theorem takeMany_error {α : Type} {p : Parse α} {put : α → List Byte} (hp : Reads p put) {bytes : List Byte}
    {e : DecodeError} (hbad : p bytes = .error e) (earlier : List α) (n : Nat) (hn : earlier.length < n) :
    takeMany p n (earlier.flatMap put ++ bytes) = .error e := by
  induction earlier generalizing n with
  | nil =>
    obtain ⟨m, rfl⟩ : ∃ m, n = m + 1 := Nat.exists_eq_succ_of_ne_zero (by simpa using Nat.ne_of_gt hn)
    exact andThen_error hbad
  | cons a earlier ih =>
    obtain ⟨m, rfl⟩ : ∃ m, n = m + 1 := Nat.exists_eq_succ_of_ne_zero (by omega)
    rw [List.flatMap_cons, List.append_assoc, takeMany, andThen_put hp]
    exact andThen_error (ih m (by simpa using hn))

/-- A queue is refused as its first refused record is. -/
theorem decode_queue_error {record : List Byte} {e : DecodeError} (hbad : takeCommand record = .error e)
    {earlier : List Command} {n : Nat} (hn : earlier.length < n) :
    decode (0x36 :: (putNat n ++ earlier.flatMap putCommand ++ record)) = .error e := by
  have hlist : takeList takeCommand (putNat n ++ earlier.flatMap putCommand ++ record) = .error e := by
    rw [takeList, List.append_assoc, andThen_put reads_nat]
    exact takeMany_error reads_command hbad earlier n hn
  exact (decode_opCode .execute _).trans (andThen_error hlist)

theorem takeCommand_of_opOfCode {tag : Byte} {op : Op} (hop : opOfCode tag.toNat = some op) (bytes : List Byte) :
    takeCommand (tag :: bytes) = takeFields op bytes := by
  simp only [takeCommand, andThen, takeByte, hop]

/-! ### Opcodes and kind tags outside the map (R70) -/

theorem opOfCode_of_unmapped {code : Nat} (h : ∀ op : Op, opCode op ≠ code) : opOfCode code = none :=
  List.find?_eq_none.mpr fun op _ => by simpa using h op

/-- The operations whose opcode is no kind tag have no record (R67, R70). -/
theorem takeFields_not_kind {op : Op} (h : opCode op < 0x10 ∨ 0x16 < opCode op) (bytes : List Byte) :
    takeFields op bytes = .error (.unknownKind (opCode op)) := by
  cases op with
  | cmdReset | cmdRuntest | cmdPathmove | cmdStableclocks | cmdTms | cmdSleep | cmdScan => simp [opCode] at h
  | _ => rfl

theorem takeCommand_not_kind {tag : Byte} (htag : tag.toNat < 0x10 ∨ 0x16 < tag.toNat) (bytes : List Byte) :
    takeCommand (tag :: bytes) = .error (.unknownKind tag.toNat) := by
  cases hop : opOfCode tag.toNat with
  | none => simp only [takeCommand, andThen, takeByte, hop]
  | some op =>
    rw [takeCommand_of_opOfCode hop, ← opCode_of_opOfCode hop]
    exact takeFields_not_kind (by rwa [opCode_of_opOfCode hop]) bytes

/-- Settles O3: the decoder refuses the opcode at once, and the kind tag after the records before it. -/
theorem unmappedOpcodesAndKindsAreRefused : Obligations.UnmappedOpcodesAndKindsAreRefused := by
  unfold Obligations.UnmappedOpcodesAndKindsAreRefused
  constructor
  · intro s code rest hfault hcalls hcode
    exact step_of_decode_error hfault hcalls (decode_of_unmapped (opOfCode_of_unmapped hcode) rest)
  · intro s earlier n tag rest hfault hcalls hn htag
    exact step_of_decode_error hfault hcalls (decode_queue_error (takeCommand_not_kind htag rest) hn)

/-! ### Bits and buffers (R71) -/

theorem takeBit_bad {bad : Byte} (h0 : bad ≠ 0) (h1 : bad ≠ 1) (rest : List Byte) :
    takeBit (bad :: rest) = .error (.badBit bad.toNat) := by
  simp only [takeBit, if_neg h0, if_neg h1]

theorem takeBuf_bad {bad : Byte} (h0 : bad ≠ 0) (h1 : bad ≠ 1) (rest : List Byte) :
    takeBuf (bad :: rest) = .error (.badBuffer bad.toNat) := by
  simp only [takeBuf, if_neg h0, if_neg h1]

theorem takeBit_good {b : Byte} (hb : b = 0 ∨ b = 1) (rest : List Byte) : ∃ v, takeBit (b :: rest) = .ok (v, rest) := by
  obtain rfl | rfl := hb
  · exact ⟨false, rfl⟩
  · exact ⟨true, rfl⟩

theorem parse_andThen_assoc {α β γ : Type} (p : Parse α) (f : α → Parse β) (g : β → Parse γ) :
    andThen (andThen p f) g = andThen p fun a => andThen (f a) g := by
  funext bytes
  simp only [andThen]
  cases p bytes <;> rfl

/-- A reader that begins with `n` bit operands. -/
inductive BitsFirst {α : Type} : Nat → Parse α → Prop
  | none (p : Parse α) : BitsFirst 0 p
  | bit {n : Nat} {f : Bool → Parse α} (hf : ∀ v, BitsFirst n (f v)) : BitsFirst (n + 1) (andThen takeBit f)

theorem BitsFirst.andThen {α β : Type} {n : Nat} {p : Parse α} (h : BitsFirst n p) (g : α → Parse β) :
    BitsFirst n (andThen p g) := by
  induction h with
  | none p => exact .none _
  | bit _ ih => rw [parse_andThen_assoc]; exact .bit ih

/-- The first byte that is no bit, among those read as bits, is refused. -/
theorem BitsFirst.refuses {α : Type} {n : Nat} {p : Parse α} (h : BitsFirst n p) {good : List Byte}
    (hgood : ∀ b ∈ good, b = 0 ∨ b = 1) (hn : good.length < n) {bad : Byte} (h0 : bad ≠ 0) (h1 : bad ≠ 1)
    (rest : List Byte) : p (good ++ bad :: rest) = .error (.badBit bad.toNat) := by
  induction h generalizing good with
  | none p => exact absurd hn (Nat.not_lt_zero _)
  | bit _ ih =>
    cases good with
    | nil => exact andThen_error (takeBit_bad h0 h1 rest)
    | cons b good =>
      obtain ⟨hb, hgood⟩ := List.forall_mem_cons.mp hgood
      obtain ⟨v, hv⟩ := takeBit_good hb (good ++ bad :: rest)
      exact (andThen_ok hv).trans (ih v hgood (Nat.lt_of_succ_lt_succ hn))

theorem bitsFirst_fields_reset : BitsFirst (bitOperands .cmdReset) (takeFields .cmdReset) :=
  .bit fun _ => .bit fun _ => .none _

theorem bitsFirst_operands (op : Op) : BitsFirst (bitOperands op) (takeOperands op) := by
  cases op with
  | encode | adpEmit => exact .bit fun _ => .bit fun _ => .bit fun _ => .bit fun _ => .none _
  | pulse => exact .bit fun _ => .bit fun _ => .bit fun _ => .none _
  | encodeRst | adpAssertReset => exact .bit fun _ => .bit fun _ => .none _
  | cmdReset => exact bitsFirst_fields_reset.andThen _
  | _ => exact .none _

theorem takeOperands_badBuffer {op : Op} (hop : op = .qAvail ∨ op = .qEmpty ∨ op = .qFull) {bad : Byte} (h0 : bad ≠ 0)
    (h1 : bad ≠ 1) (rest : List Byte) : takeOperands op (bad :: rest) = .error (.badBuffer bad.toNat) := by
  obtain rfl | rfl | rfl := hop <;> exact andThen_error (takeBuf_bad h0 h1 rest)

/-- Settles O4: the check of well-formedness follows a decoding that succeeds, and the other three are the decoder's. -/
theorem illFormedOperandsAreRefused : Obligations.IllFormedOperandsAreRefused := by
  unfold Obligations.IllFormedOperandsAreRefused
  refine ⟨?wellFormed, ?bit, ?queuedBit, ?buffer⟩
  case wellFormed =>
    intro s i rest hfault hcalls hwf
    exact step_of_illFormed hfault hcalls hwf
  case bit =>
    intro s op good rest bad hfault hgood hn h0 h1 hcalls
    have hbad := (bitsFirst_operands op).refuses hgood hn h0 h1 rest
    exact step_of_decode_error hfault hcalls ((decode_opCode op _).trans hbad)
  case queuedBit =>
    intro s earlier n good rest bad hfault hqueue hgood hn h0 h1 hcalls
    have hbad := bitsFirst_fields_reset.refuses hgood hn h0 h1 rest
    have hrecord := (takeCommand_of_opOfCode (tag := 0x10) (opOfCode_opCode .cmdReset) _).trans hbad
    exact step_of_decode_error hfault hcalls (decode_queue_error hrecord hqueue)
  case buffer =>
    intro s op rest bad hfault hop h0 h1 hcalls
    have hbad := takeOperands_badBuffer hop h0 h1 rest
    exact step_of_decode_error hfault hcalls ((decode_opCode op _).trans hbad)

end Sys2Proof.Proofs
end

section
/-! PROOF. R74's ADP_CLOCK is PULSE (O24): both append the same two bytes, and an append neither reads nor writes `ret`. -/

namespace Sys2Proof.Proofs

open Sys2Proof Sys2Proof.Machine Sys2Proof.Safety Sys2Proof.Laws

/-! ### The ends of an append -/

theorem enqOp_done_fault {b : Byte} {s u : State} {st : Status} (h : enqOp b s = .done st u) : u.fault = s.fault := by
  have hmark := enqOp_marks b s
  rwa [h] at hmark

theorem enqOp_raised_fault {b : Byte} {s u : State} (h : enqOp b s = .raised u) : u.fault ≠ none := by
  have hmark := enqOp_marks b s
  rwa [h] at hmark

theorem devIter_isOpen {f : FlushState} {s t : State} {it : Iteration} (h : devIter f s = some (it, t)) :
    t.isOpen = s.isOpen := by
  unfold devIter at h
  split at h <;> cases h <;> rfl

theorem flushLoop_done_isOpen {fuel : Nat} {f : FlushState} {s t : State} {st : Status}
    (h : flushLoop fuel f s = .done st t) : t.isOpen = s.isOpen := by
  induction fuel generalizing f s with
  | zero => cases h
  | succ fuel ih =>
    unfold flushLoop at h
    split at h
    next =>
      split at h
      next => cases h
      next it s1 hiter =>
        have hs1 := devIter_isOpen hiter
        split at h
        next => cases h; exact hs1
        next =>
          split at h
          next => cases h
          next => exact (ih h).trans hs1
    next => cases h; rfl

theorem flushOp_done_isOpen {s t : State} {st : Status} (h : flushOp s = .done st t) : t.isOpen = s.isOpen :=
  flushLoop_done_isOpen (needOpen_done h)

theorem enqOp_done_isOpen {b : Byte} {s t : State} {st : Status} (h : enqOp b s = .done st t) : t.isOpen = s.isOpen := by
  have hbody := needOpen_done h
  split at hbody
  next =>
    split at hbody
    next =>
      obtain ⟨_, u, hflush, hend⟩ := andThen_done_iff.mp hbody
      have hu := flushOp_done_isOpen hflush
      cases hend
      exact hu
    next => cases hbody; rfl
  next => cases hbody; rfl

/-! ### The ends of an instruction, by those of its body -/

theorem exec_of_done {i : Instr} {s u : State} {v : OpResult} (hfault : s.fault = none) (h : body i s = .done v u) :
    exec i s = .next { u with ret := v } := by
  rw [exec_eq_perform, perform_done _ _ _ _ hfault h]

theorem exec_of_raised {i : Instr} {s u : State} (hfault : s.fault = none) (h : body i s = .raised u) :
    exec i s = .next u := by
  rw [exec_eq_perform, perform_raised _ _ _ hfault h]

theorem exec_of_stuck {i : Instr} {s : State} {f : Fault} (hfault : s.fault = none) (h : body i s = .stuck f) :
    exec i s = .fault f := by
  rw [exec_eq_perform, perform_stuck _ _ _ hfault h]

/-! ### Operations one by one -/

theorem runInstrs_of_next {i : Instr} {rest : List Instr} {s t : State} (hexec : exec i s = .next t)
    (hfault : t.fault = none) : runInstrs (i :: rest) s = runInstrs rest t := by
  simp only [runInstrs, hexec, hfault, if_true]

theorem runInstrs_of_raise {i : Instr} {rest : List Instr} {s t : State} (hexec : exec i s = .next t)
    (hfault : t.fault ≠ none) : runInstrs (i :: rest) s = .next t := by
  simp only [runInstrs, hexec, if_neg hfault]

theorem runInstrs_of_fault {i : Instr} {rest : List Instr} {s : State} {f : Fault} (hexec : exec i s = .fault f) :
    runInstrs (i :: rest) s = .fault f := by
  simp only [runInstrs, hexec]

theorem returnsOf_of_next {i : Instr} {rest : List Instr} {s t : State} (hexec : exec i s = .next t)
    (hfault : t.fault = none) : returnsOf (i :: rest) s = t.ret :: returnsOf rest t := by
  simp only [returnsOf, hexec, hfault, if_true]

/-! ### What neither reads nor writes `ret` -/

/-- The change of `ret` alone. -/
def returning (v : OpResult) : Overlay where
  events := []
  out := []
  inn := []
  calls := []
  qi := none
  ret := some v
  returns := none
  tap := none

theorem overlaid_returning (v : OpResult) (s : State) : overlaid (returning v) s = { s with ret := v } := rfl

/-- An operation that commutes with every change of `ret` raises without one. -/
theorem ret_of_raised {α : Type} {op : State → Res α} (hop : ∀ v, Commutes (overlaid (returning v)) op) {s u : State}
    (h : op s = .raised u) : u.ret = s.ret := by
  have hsame : op s = mapEnd (overlaid (returning s.ret)) (op s) := hop s.ret s
  rw [h] at hsame
  injection hsame with hu
  rw [hu, overlaid_returning]

/-! ### ADP_EMIT after any earlier operation -/

section

variable {tck tms tdi sreq : Bool} {s u : State}

/-- In an open session ADP_EMIT is the append of its pin byte (R151), whatever the last operation returned. -/
theorem body_adpEmit (v : OpResult) (hopen : s.isOpen = true) :
    body (.adpEmit tck tms tdi sreq) { s with ret := v } =
      (mapEnd (overlaid (returning v)) (enqOp (pinByte s.cfg.pins tck tms tdi sreq) s)).map .status := by
  rw [← enqOp_overlaid]
  exact congrArg (Res.map OpResult.status) (needOpen_open .adpEmit _ { s with ret := v } hopen)

theorem exec_adpEmit_done {st : Status} (v : OpResult) (hopen : s.isOpen = true) (hfault : s.fault = none)
    (h : enqOp (pinByte s.cfg.pins tck tms tdi sreq) s = .done st u) :
    exec (.adpEmit tck tms tdi sreq) { s with ret := v } = .next { u with ret := .status st } :=
  exec_of_done (s := { s with ret := v }) (u := { u with ret := v }) hfault
    (by rw [body_adpEmit v hopen, h, mapEnd, map_done, overlaid_returning])

theorem exec_adpEmit_raised (v : OpResult) (hopen : s.isOpen = true) (hfault : s.fault = none)
    (h : enqOp (pinByte s.cfg.pins tck tms tdi sreq) s = .raised u) :
    exec (.adpEmit tck tms tdi sreq) { s with ret := v } = .next { u with ret := v } :=
  exec_of_raised (s := { s with ret := v }) hfault (by rw [body_adpEmit v hopen, h, mapEnd, map_raised, overlaid_returning])

theorem exec_adpEmit_stuck {f : Fault} (v : OpResult) (hopen : s.isOpen = true) (hfault : s.fault = none)
    (h : enqOp (pinByte s.cfg.pins tck tms tdi sreq) s = .stuck f) :
    exec (.adpEmit tck tms tdi sreq) { s with ret := v } = .fault f :=
  exec_of_stuck (s := { s with ret := v }) hfault (by rw [body_adpEmit v hopen, h, mapEnd, map_stuck])

end

/-! ### The pulse -/

/-- A pulse that raises returns nothing (R183). -/
theorem exec_pulse_raised {tms tdi sreq : Bool} {s u : State} (hfault : s.fault = none) (h : pulseOp tms tdi sreq s = .raised u) :
    exec (.pulse tms tdi sreq) s = .next { u with ret := s.ret } := by
  rw [exec_of_raised hfault (show body (.pulse tms tdi sreq) s = .raised u by rw [body, h, map_raised]),
    ← ret_of_raised (fun v => pulseOp_overlaid (returning v) tms tdi sreq) h]

/-- Settles O24, by the ends of the two appends, which the emits and the pulse share. The second emit runs in a state whose
`ret` holds the first one's status, which its append does not read. -/
theorem adapterClockIsPulse : Obligations.AdapterClockIsPulse := by
  unfold Obligations.AdapterClockIsPulse
  intro tms tdi sreq s t hopen hfault hrun
  rw [Pseudo.expand] at hrun ⊢
  cases hfirst : enqOp (pinByte s.cfg.pins false tms tdi false) s with
  | stuck f =>
    rw [runInstrs_of_fault (exec_adpEmit_stuck s.ret hopen hfault hfirst)] at hrun
    cases hrun
  | raised u =>
    have hmark := enqOp_raised_fault hfirst
    rw [runInstrs_of_raise (exec_adpEmit_raised s.ret hopen hfault hfirst) hmark] at hrun
    cases hrun
    have hpulse : pulseOp tms tdi sreq s = .raised u := by rw [pulseOp, hfirst, andThen_raised]
    exact ⟨fun hnone => absurd hnone hmark, fun _ => exec_pulse_raised (u := u) hfault hpulse⟩
  | done s1 u =>
    have huopen : u.isOpen = true := (enqOp_done_isOpen hfirst).trans hopen
    have hufault : u.fault = none := (enqOp_done_fault hfirst).trans hfault
    have hexec1 := exec_adpEmit_done s.ret hopen hfault hfirst
    rw [runInstrs_of_next hexec1 hufault] at hrun
    cases hsecond : enqOp (pinByte u.cfg.pins true tms tdi sreq) u with
    | stuck f =>
      rw [runInstrs_of_fault (exec_adpEmit_stuck (.status s1) huopen hufault hsecond)] at hrun
      cases hrun
    | raised v =>
      have hmark := enqOp_raised_fault hsecond
      rw [runInstrs_of_raise (exec_adpEmit_raised (.status s1) huopen hufault hsecond) hmark] at hrun
      cases hrun
      have hpulse : pulseOp tms tdi sreq s = .raised v := by rw [pulseOp, hfirst, andThen_done, hsecond, andThen_raised]
      exact ⟨fun hnone => absurd hnone hmark, fun _ => exec_pulse_raised (u := v) hfault hpulse⟩
    | done s2 v =>
      have hvfault : v.fault = none := (enqOp_done_fault hsecond).trans hufault
      have hexec2 := exec_adpEmit_done (.status s1) huopen hufault hsecond
      rw [runInstrs_of_next hexec2 hvfault] at hrun
      cases hrun
      have hpulse : pulseOp tms tdi sreq s = .done (bothOk s1 s2) v := by
        rw [pulseOp, hfirst, andThen_done, hsecond, andThen_done]
      refine ⟨fun _ => ⟨s1, s2, ?_, ?_⟩, fun hraised => absurd hvfault hraised⟩
      · rw [returnsOf_of_next hexec1 hufault, returnsOf_of_next hexec2 hvfault, returnsOf]
      · exact exec_of_done (u := v) hfault (by rw [body, hpulse, map_done, bothOk])

end Sys2Proof.Proofs
end

section
/-! PROOF. Tables that are computed: the pin bytes under the reference map (O19), and the pseudo-operations as lines of
assembly (O6). -/

namespace Sys2Proof.Proofs

open Sys2Proof Sys2Proof.Machine Sys2Proof.Safety Sys2Proof.Laws

/-- Settles O19: sixteen pin bytes and four reset bytes, computed. -/
theorem referencePinBytes : Obligations.ReferencePinBytes := by
  unfold Obligations.ReferencePinBytes
  exact ⟨by decide, rfl, rfl, rfl, rfl⟩

/-! ### Pseudo-operations as lines of assembly -/

/-- A pseudo-operation with no operand is its name alone. -/
theorem assemble_name {text : List Char} {p : Pseudo} (ht : tokens (.word []) text = some [.word text])
    (hn : (allOps.find? fun op => decide ((mnemonic op).toList = text)) = none) (hp : pseudo text [] = some p)
    (names : List String) (idleState : TapState) : assemble names idleState text = some (p.expand idleState) :=
  assemble_pseudo ht rfl (by simp) rfl hn hp names idleState

/-- A pseudo-operation with one operand is its name and a word that reads as the operand. -/
theorem assemble_name_word {text cs arg : List Char} {p : Pseudo}
    (ht : tokens (.word []) text = some [.word cs, .word arg])
    (hn : (allOps.find? fun op => decide ((mnemonic op).toList = cs)) = none)
    (hp : pseudo cs [.one (atomOf arg)] = some p) (names : List String) (idleState : TapState) :
    assemble names idleState text = some (p.expand idleState) :=
  assemble_pseudo ht rfl (by simp) rfl hn hp names idleState

theorem asBit_bitText (v : Bool) : asBit (.one (atomOf (bitText v))) = some v := by cases v <;> rfl

theorem assemble_clock (tms : Bool) (idleState : TapState) :
    assemble [] idleState ("CLOCK ".toList ++ bitText tms) = some [.pulse tms false false] := by
  have ht : tokens (.word []) ("CLOCK ".toList ++ bitText tms) = some [.word "CLOCK".toList, .word (bitText tms)] := by
    cases tms <;> rfl
  have hp : pseudo "CLOCK".toList [.one (atomOf (bitText tms))] = some (.clock tms) := by
    simp only [pseudo, if_true, asBit_bitText, Option.map_some]
  exact assemble_name_word ht (by decide) hp [] idleState

theorem assemble_adpClock (tms tdi sreq : Bool) (idleState : TapState) :
    assemble [] idleState ("ADP_CLOCK ".toList ++ bitText tms ++ ", ".toList ++ bitText tdi ++ ", ".toList ++ bitText sreq) =
      some [.adpEmit false tms tdi false, .adpEmit true tms tdi sreq] := by
  have ht : tokens (.word [])
      ("ADP_CLOCK ".toList ++ bitText tms ++ ", ".toList ++ bitText tdi ++ ", ".toList ++ bitText sreq) =
      some [.word "ADP_CLOCK".toList, .word (bitText tms), .comma, .word (bitText tdi), .comma, .word (bitText sreq)] := by
    cases tms <;> cases tdi <;> cases sreq <;> rfl
  have hp : pseudo "ADP_CLOCK".toList
      [.one (atomOf (bitText tms)), .one (atomOf (bitText tdi)), .one (atomOf (bitText sreq))] =
      some (.adpClock tms tdi sreq) := by
    simp only [pseudo, if_true, asBit_bitText]
    rfl
  exact assemble_pseudo ht rfl (by simp) rfl (by decide) hp [] idleState

/-- A line of IDLECLK, from the digits of its count. -/
theorem assemble_idleclk {text digits : List Char} {n : Nat}
    (ht : tokens (.word []) text = some [.word "IDLECLK".toList, .word digits]) (hd : atomOf digits = .num (n : Int))
    (idleState : TapState) : assemble [] idleState text = some [.cmdRuntest n idleState] := by
  have hp : pseudo "IDLECLK".toList [.one (atomOf digits)] = some (.idleclk n) := by rw [hd]; rfl
  exact assemble_name_word ht (by decide) hp [] idleState

/-- Settles O6, one line of assembly at a time. -/
theorem pseudoOperationsAssemble : Obligations.PseudoOperationsAssemble := by
  unfold Obligations.PseudoOperationsAssemble
  intro idleState
  refine ⟨fun tms => assemble_clock tms idleState, fun tms tdi sreq => assemble_adpClock tms tdi sreq idleState,
    ?hreset, ?sreset, ?release, ⟨?zero, ?five, ?thousands, ?hexadecimal⟩, ?sync⟩
  case hreset => exact assemble_name (p := .hreset) rfl (by decide) rfl [] idleState
  case sreset => exact assemble_name (p := .sreset) rfl (by decide) rfl [] idleState
  case release => exact assemble_name (p := .release) rfl (by decide) rfl [] idleState
  case zero => exact assemble_idleclk (digits := "0".toList) rfl rfl idleState
  case five => exact assemble_idleclk (digits := "5".toList) rfl rfl idleState
  case thousands => exact assemble_idleclk (digits := "4096".toList) rfl rfl idleState
  case hexadecimal => exact assemble_idleclk (digits := "0x1F".toList) rfl rfl idleState
  case sync => exact assemble_name (p := .sync) rfl (by decide) rfl [] idleState

end Sys2Proof.Proofs
end

section
/-! PROOF. The pin encoder (O17, O18) and the buffer queries (O20): each returns a value and writes nothing else. -/

namespace Sys2Proof.Proofs

open Sys2Proof Sys2Proof.Machine Sys2Proof.Safety Sys2Proof.Laws

/-- With no session an operation that needs one leaves its mark and nothing else (R11, R181). -/
theorem exec_of_closed {i : Instr} {op : Op} {s : State} (hop : sessionOp i = some op) (hfault : s.fault = none)
    (hclosed : s.isOpen = false) : exec i s = .next { s with fault := some ⟨.notOpen, op⟩ } :=
  exec_of_raised hfault (body_closed hop hclosed)

/-! ### The pin encoder -/

theorem encodeOp_open (tck tms tdi sreq : Bool) {s : State} (hopen : s.isOpen = true) :
    encodeOp tck tms tdi sreq s = .done (pinByte s.cfg.pins tck tms tdi sreq) s := needOpen_open _ _ _ hopen

theorem encodeRstOp_open (trst srst : Bool) {s : State} (hopen : s.isOpen = true) :
    encodeRstOp trst srst s = .done (resetByte s.cfg.pins trst srst) s := needOpen_open _ _ _ hopen

theorem exec_encode (tck tms tdi sreq : Bool) {s : State} (hfault : s.fault = none) (hopen : s.isOpen = true) :
    exec (.encode tck tms tdi sreq) s = .next { s with ret := .byte (pinByte s.cfg.pins tck tms tdi sreq) } :=
  exec_of_done hfault (by rw [body, encodeOp_open _ _ _ _ hopen, map_done])

theorem exec_encodeRst (trst srst : Bool) {s : State} (hfault : s.fault = none) (hopen : s.isOpen = true) :
    exec (.encodeRst trst srst) s = .next { s with ret := .byte (resetByte s.cfg.pins trst srst) } :=
  exec_of_done hfault (by rw [body, encodeRstOp_open _ _ hopen, map_done])

/-- Each of a pin byte's six fields holds its own value, since no two fields share a position (R60, R90). -/
theorem pinByte_fields {p : PinMap} (hdistinct : p.distinct = true) (tck tms tdi sreq : Bool) :
    bitAt (pinByte p tck tms tdi sreq) p.tck = tck ∧ bitAt (pinByte p tck tms tdi sreq) p.tms = tms ∧
      bitAt (pinByte p tck tms tdi sreq) p.tdi = tdi ∧ bitAt (pinByte p tck tms tdi sreq) p.sreq = sreq ∧
      bitAt (pinByte p tck tms tdi sreq) p.trst = true ∧ bitAt (pinByte p tck tms tdi sreq) p.srst = true := by
  have hne := pins_ne hdistinct
  simp [bitAt_pinByte, hne, Ne.symm]

theorem pinByte_unassigned (p : PinMap) (tck tms tdi sreq : Bool) {j : Fin 8}
    (hj : j ∉ [p.tck, p.tms, p.tdi, p.sreq, p.trst, p.srst]) : bitAt (pinByte p tck tms tdi sreq) j = false := by
  simp only [List.mem_cons, List.not_mem_nil, or_false, not_or] at hj
  obtain ⟨htck, htms, htdi, hsreq, htrst, hsrst⟩ := hj
  rw [bitAt_pinByte, if_neg (Ne.symm hsrst), if_neg (Ne.symm htrst), if_neg (Ne.symm hsreq), if_neg (Ne.symm htdi),
    if_neg (Ne.symm htms), if_neg (Ne.symm htck)]

/-- An asserted line's bit is 0 (R61, R91). -/
theorem resetByte_fields {p : PinMap} (hdistinct : p.distinct = true) (trst srst : Bool) :
    bitAt (resetByte p trst srst) p.trst = !trst ∧ bitAt (resetByte p trst srst) p.srst = !srst := by
  obtain ⟨_, _, _, _, _, _, _, _, _, _, _, _, _, _, hne⟩ := pins_ne hdistinct
  rw [bitAt_resetByte, bitAt_resetByte, if_neg hne.symm, if_pos rfl, if_pos rfl]
  exact ⟨rfl, rfl⟩

theorem resetByte_unassigned (p : PinMap) (trst srst : Bool) {j : Fin 8} (htrst : j ≠ p.trst) (hsrst : j ≠ p.srst) :
    bitAt (resetByte p trst srst) j = false := by
  rw [bitAt_resetByte, if_neg hsrst.symm, if_neg htrst.symm]

/-- Settles O17: the byte returned is the pin byte, whose bits are told by position. -/
theorem encodeReturnsThePinByte : Obligations.EncodeReturnsThePinByte := by
  unfold Obligations.EncodeReturnsThePinByte
  refine ⟨rfl, fun tck tms tdi sreq s hfault => ⟨fun hopen hdistinct => ?_, exec_of_closed rfl hfault⟩⟩
  obtain ⟨htck, htms, htdi, hsreq, htrst, hsrst⟩ := pinByte_fields hdistinct tck tms tdi sreq
  exact ⟨_, exec_encode tck tms tdi sreq hfault hopen, htck, htms, htdi, hsreq, htrst, hsrst,
    fun _ => pinByte_unassigned _ _ _ _ _⟩

/-- Settles O18: the byte returned is the reset byte, whose bits are told by position. -/
theorem encodeRstReturnsTheResetByte : Obligations.EncodeRstReturnsTheResetByte := by
  unfold Obligations.EncodeRstReturnsTheResetByte
  refine ⟨rfl, fun trst srst s hfault => ⟨fun hopen hdistinct => ?_, exec_of_closed rfl hfault⟩⟩
  obtain ⟨htrst, hsrst⟩ := resetByte_fields hdistinct trst srst
  refine ⟨_, exec_encodeRst trst srst hfault hopen, htrst, hsrst, fun _ => resetByte_unassigned _ _ _, ?_⟩
  rintro rfl rfl
  exact resetByte_released

/-! ### The buffer queries -/

section

variable {s : State} (hfault : s.fault = none) (hopen : s.isOpen = true) (buf : Buf)
include hfault hopen

theorem exec_qAvail : exec (.qAvail buf) s = .next { s with ret := .nat (queryAvail s buf) } :=
  exec_of_done hfault (by rw [body, availOp, needOpen_open _ _ _ hopen, map_done])

/-- ADP_AVAIL is Q_AVAIL of `rx` (R155). -/
theorem exec_adpAvail : exec .adpAvail s = .next { s with ret := .nat (queryAvail s .rx) } :=
  exec_qAvail hfault hopen .rx

theorem exec_qEmpty : exec (.qEmpty buf) s = .next { s with ret := .bit (queryEmpty s buf) } :=
  exec_of_done hfault (by rw [body, emptyOp, needOpen_open _ _ _ hopen, map_done])

theorem exec_qFull : exec (.qFull buf) s = .next { s with ret := .bit (queryFull s buf) } :=
  exec_of_done hfault (by rw [body, fullOp, needOpen_open _ _ _ hopen, map_done])

end

/-- Settles O20: each query is its count, emptiness or fullness of the buffer it names. -/
theorem queriesReturnTheCounts : Obligations.QueriesReturnTheCounts := by
  unfold Obligations.QueriesReturnTheCounts
  refine ⟨⟨rfl, rfl, rfl, rfl⟩, fun s hfault => ⟨fun hopen => ⟨?avail, ?empty, ?full⟩, fun hclosed buf => ?closed⟩⟩
  case avail =>
    exact ⟨exec_qAvail hfault hopen .tx, exec_qAvail hfault hopen .rx, exec_adpAvail hfault hopen⟩
  case empty => exact ⟨exec_qEmpty hfault hopen .tx, exec_qEmpty hfault hopen .rx⟩
  case full => exact ⟨exec_qFull hfault hopen .tx, exec_qFull hfault hopen .rx⟩
  case closed =>
    exact ⟨exec_of_closed rfl hfault hclosed, exec_of_closed rfl hfault hclosed, exec_of_closed rfl hfault hclosed,
      exec_of_closed rfl hfault hclosed⟩

end Sys2Proof.Proofs
end

section
/-! PROOF. ENQ, by its cases (O22), and from it the five operations that append bytes and do nothing else (O23). -/

namespace Sys2Proof.Proofs

open Sys2Proof Sys2Proof.Machine Sys2Proof.Safety Sys2Proof.Laws

/-! ### ENQ -/

/-- A flush that returns has emptied the transmit buffer, whatever its status (R105, R106). -/
theorem flushLoop_done_tx {fuel : Nat} {f : FlushState} {s t : State} {st : Status}
    (h : flushLoop fuel f s = .done st t) : t.tx = [] := by
  induction fuel generalizing f s with
  | zero => cases h
  | succ fuel ih =>
    unfold flushLoop at h
    split at h
    next =>
      split at h
      next => cases h
      next =>
        split at h
        next => cases h; rfl
        next =>
          split at h
          next => cases h
          next => exact ih h
    next => cases h; rfl

theorem flushOp_done_tx {s t : State} {st : Status} (h : flushOp s = .done st t) : t.tx = [] :=
  flushLoop_done_tx (needOpen_done h)

theorem flushOp_done_fault {s t : State} {st : Status} (h : flushOp s = .done st t) : t.fault = s.fault := by
  have hmark := flushOp_marks s
  rwa [h] at hmark

theorem flushOp_raised_fault {s t : State} (h : flushOp s = .raised t) : t.fault ≠ none := by
  have hmark := flushOp_marks s
  rwa [h] at hmark

section

variable {b : Byte} {s : State} (hopen : s.isOpen = true)
include hopen

theorem enqOp_room (hroom : s.tx.length ≠ s.cfg.txCap) : enqOp b s = .done .ok { s with tx := s.tx ++ [b] } := by
  rw [enqOp, needOpen_open _ _ _ hopen, if_neg hroom]

theorem enqOp_full_drop (hfull : s.tx.length = s.cfg.txCap) (hpolicy : s.cfg.policy = .dropAndLog) :
    enqOp b s = .done .fail (warn (.wOverflow b) .enq s) := by
  rw [enqOp, needOpen_open _ _ _ hopen, if_pos hfull, hpolicy]

/-- "the byte that finds `tx` full is the first byte of the next flush" (R92): the flush has emptied the buffer. -/
theorem enqOp_full_flush (hfull : s.tx.length = s.cfg.txCap) (hpolicy : s.cfg.policy = .flushOnFull) :
    enqOp b s = (flushOp s).andThen fun _ t => .done .ok { t with tx := [b] } := by
  rw [enqOp, needOpen_open _ _ _ hopen, if_pos hfull, hpolicy]
  cases hflush : flushOp s with
  | done st t => simp only [andThen_done, flushOp_done_tx hflush, List.nil_append]
  | raised t => rfl
  | stuck f => rfl

end

/-- ENQ at a full buffer of the flushing policy, by the next state of the FLUSH it runs first: its mark tells whether that
FLUSH returned or raised (R25). -/
theorem exec_enq_full_flush (b : Byte) {s t : State} (hfault : s.fault = none) (hopen : s.isOpen = true)
    (hfull : s.tx.length = s.cfg.txCap) (hpolicy : s.cfg.policy = .flushOnFull) (hflush : exec .flush s = .next t) :
    (t.fault = none → exec (.enq b) s = .next { t with tx := [b], ret := .status .ok }) ∧
      (t.fault ≠ none → exec (.enq b) s = .next t) := by
  have henq := enqOp_full_flush (b := b) hopen hfull hpolicy
  cases hres : flushOp s with
  | done st u =>
    rw [exec_of_done hfault (show body .flush s = .done (.status st) u by rw [body, hres, map_done])] at hflush
    cases hflush
    refine ⟨fun _ => ?_, fun hmark => absurd ((flushOp_done_fault hres).trans hfault) hmark⟩
    exact exec_of_done (u := { u with tx := [b] }) hfault (by rw [body, henq, hres, andThen_done, map_done])
  | raised u =>
    rw [exec_of_raised hfault (show body .flush s = .raised u by rw [body, hres, map_raised])] at hflush
    cases hflush
    refine ⟨fun hnone => absurd hnone (flushOp_raised_fault hres), fun _ => ?_⟩
    exact exec_of_raised hfault (by rw [body, henq, hres, andThen_raised, map_raised])
  | stuck f =>
    rw [exec_of_stuck hfault (show body .flush s = .stuck f by rw [body, hres, map_stuck])] at hflush
    cases hflush

/-- Settles O22, by the four ends of an append. -/
theorem enqAppendsFlushesOrDrops : Obligations.EnqAppendsFlushesOrDrops := by
  unfold Obligations.EnqAppendsFlushesOrDrops
  refine ⟨rfl, fun b s hfault => ⟨exec_of_closed rfl hfault, ?room, ?drop, ?flush⟩⟩
  case room =>
    intro hopen hroom
    exact exec_of_done (u := { s with tx := s.tx ++ [b] }) hfault (by rw [body, enqOp_room hopen hroom, map_done])
  case drop =>
    intro hopen hfull hpolicy
    exact exec_of_done (u := warn (.wOverflow b) .enq s) hfault
      (by rw [body, enqOp_full_drop hopen hfull hpolicy, map_done])
  case flush =>
    intro hopen hfull hpolicy t hflush
    exact exec_enq_full_flush b hfault hopen hfull hpolicy hflush

/-! ### The five operations that append bytes -/

/-- In an open session each of the five is one append, or a pulse (R92, R93, R94, R151, R154). -/
theorem body_of_appends {i : Instr} {bytes : List Byte} {s : State} (hopen : s.isOpen = true)
    (h : appends s.cfg.pins i = some bytes) :
    (∃ b, bytes = [b] ∧ body i s = (enqOp b s).map .status) ∨
      ∃ tms tdi sreq, bytes = pulseBytes s.cfg.pins tms tdi sreq ∧ body i s = (pulseOp tms tdi sreq s).map .status := by
  cases i with
  | enq b => cases h; exact .inl ⟨_, rfl, rfl⟩
  | pulse tms tdi sreq => cases h; exact .inr ⟨tms, tdi, sreq, rfl, rfl⟩
  | idle => cases h; exact .inl ⟨_, rfl, rfl⟩
  | adpEmit => cases h; exact .inl ⟨_, rfl, congrArg (Res.map _) (needOpen_open _ _ _ hopen)⟩
  | adpAssertReset => cases h; exact .inl ⟨_, rfl, congrArg (Res.map _) (needOpen_open _ _ _ hopen)⟩
  | _ => cases h

/-- Of a pulse's two bytes only the clock-high one can request a sample (R93). -/
theorem sampleCount_pulseBytes {c : Params} (hc : c.ok = true) (tms tdi sreq : Bool) :
    sampleCount c.pins (pulseBytes c.pins tms tdi sreq) = if sreq then 1 else 0 := by
  rw [pulseBytes, sampleCount_cons, sampleCount_cons, pinByte_sreq (ok_pins hc), pinByte_sreq (ok_pins hc)]
  simp

theorem body_appends_ready {i : Instr} {bytes : List Byte} {s : State} (happ : appends s.cfg.pins i = some bytes)
    (hready : ReadyFor (sampleCount s.cfg.pins bytes) s) :
    ∃ st t, body i s = .done (.status st) t ∧ Runs 0 bytes s t ∧
      (s.cfg.policy = .flushOnFull ∨ s.tx.length + bytes.length ≤ s.cfg.txCap → st = .ok) := by
  obtain ⟨b, rfl, hbody⟩ | ⟨tms, tdi, sreq, rfl, hbody⟩ := body_of_appends hready.opened happ
  · obtain ⟨st, t, henq, hruns, hst⟩ := enqOp_emits b 0 s hready
    exact ⟨st, t, by rw [hbody, henq, map_done], hruns, hst⟩
  · rw [sampleCount_pulseBytes hready.params] at hready
    obtain ⟨st, t, hpulse, hruns, hst⟩ := pulseOp_emits tms tdi sreq 0 s hready
    exact ⟨st, t, by rw [hbody, hpulse, map_done], hruns, hst⟩

/-! ### Appends under the drop policy -/

/-- What appends of `bytes` leave under the drop policy with room for `room` of them: those queued, the rest logged
(R92, R185). -/
def dropAppended (room : Nat) (bytes : List Byte) (s : State) : State :=
  { s with tx := s.tx ++ bytes.take room,
           events := s.events ++ (bytes.drop room).map fun b => .log (.wOverflow b) .enq }

/-- OK where no byte is dropped (R92, R93). -/
def dropStatus (room : Nat) (bytes : List Byte) : Status := if bytes.length ≤ room then .ok else .fail

/-- An open session of the drop policy with room for `room` bytes. -/
structure Dropping (room : Nat) (s : State) : Prop where
  opened : s.isOpen = true
  policy : s.cfg.policy = .dropAndLog
  room : s.tx.length + room = s.cfg.txCap

theorem dropAppended_append (room : Nat) (a b : List Byte) (s : State) :
    dropAppended (room - a.length) b (dropAppended room a s) = dropAppended room (a ++ b) s := by
  simp only [dropAppended, List.take_append, List.drop_append, List.map_append, List.append_assoc]

theorem dropStatus_eq_ok_iff {room : Nat} {bytes : List Byte} : dropStatus room bytes = .ok ↔ bytes.length ≤ room := by
  simp [dropStatus]

theorem bothOk_dropStatus (room : Nat) (a b : List Byte) :
    bothOk (dropStatus room a) (dropStatus (room - a.length) b) = dropStatus room (a ++ b) := by
  have hboth : a.length + b.length ≤ room ↔ a.length ≤ room ∧ b.length ≤ room - a.length := by omega
  simp only [bothOk, dropStatus_eq_ok_iff]
  rw [dropStatus, List.length_append]
  exact if_congr hboth.symm rfl rfl

theorem Dropping.appended {room : Nat} {s : State} (h : Dropping room s) (bytes : List Byte) :
    Dropping (room - bytes.length) (dropAppended room bytes s) where
  opened := h.opened
  policy := h.policy
  room := by
    have hroom := h.room
    simp only [dropAppended, List.length_append, List.length_take]
    omega

theorem enqOp_dropping (b : Byte) {room : Nat} {s : State} (h : Dropping room s) :
    enqOp b s = .done (dropStatus room [b]) (dropAppended room [b] s) := by
  have hroom := h.room
  cases room with
  | zero =>
    rw [enqOp_full_drop h.opened hroom h.policy]
    simp [dropStatus, dropAppended, warn]
  | succ n =>
    rw [enqOp_room h.opened (by omega)]
    simp [dropStatus, dropAppended]

/-- PULSE's two appends, the second with the room the first left (R93). -/
theorem pulseOp_dropping (tms tdi sreq : Bool) {room : Nat} {s : State} (h : Dropping room s) :
    pulseOp tms tdi sreq s =
      .done (dropStatus room (pulseBytes s.cfg.pins tms tdi sreq))
        (dropAppended room (pulseBytes s.cfg.pins tms tdi sreq) s) := by
  rw [pulseOp, enqOp_dropping _ h, andThen_done, enqOp_dropping _ (h.appended _), andThen_done, bothOk_dropStatus,
    dropAppended_append]
  rfl

theorem body_appends_dropping {i : Instr} {bytes : List Byte} {room : Nat} {s : State}
    (happ : appends s.cfg.pins i = some bytes) (h : Dropping room s) :
    body i s = .done (.status (dropStatus room bytes)) (dropAppended room bytes s) := by
  obtain ⟨b, rfl, hbody⟩ | ⟨tms, tdi, sreq, rfl, hbody⟩ := body_of_appends h.opened happ
  · rw [hbody, enqOp_dropping b h, map_done]
  · rw [hbody, pulseOp_dropping tms tdi sreq h, map_done]

/-- Settles O23: each of the five is one append or a pulse, and both are followed from a ready session and under the drop
policy. -/
theorem appendsRunToTheEnd : Obligations.AppendsRunToTheEnd := by
  unfold Obligations.AppendsRunToTheEnd
  refine fun i bytes s happ => ⟨fun hready => ?ready, fun room hfault hopen hpolicy hroom => ?dropping⟩
  case ready =>
    obtain ⟨st, t, hbody, hruns, hst⟩ := body_appends_ready happ hready
    exact ⟨{ t with ret := .status st }, exec_of_done hready.unfaulted hbody, Emits_ret _ hruns.emits, hruns.tapCur,
      fun hfits => congrArg OpResult.status (hst hfits)⟩
  case dropping =>
    exact exec_of_done (u := dropAppended room bytes s) hfault (body_appends_dropping happ ⟨hopen, hpolicy, hroom⟩)

end Sys2Proof.Proofs
end

section
/-! PROOF. The Device's iterations: a listed answer gives any that R101 admits and no other, a drawn one is admitted and
makes progress (O25). -/

namespace Sys2Proof.Proofs

open Sys2Proof Sys2Proof.Machine Sys2Proof.Safety Sys2Proof.Laws

/-! ### What an iteration does -/

theorem flushBusy_iff {f : FlushState} : flushBusy f = true ↔ f.wpos < f.snap.length ∨ f.rpos < f.snap.length := by
  simp [flushBusy]

section

variable {f : FlushState} {s : State} {rest : List DevReply}

theorem devIter_listed {a : DevAnswer} {it : Iteration} (h : s.ext.replies = .answers a :: rest)
    (hit : it = admitted f (writeRequest s.cfg.frame f) (readRequest s.cfg.frame f) a) :
    devIter f s =
      some (it, { s with wireOut := s.wireOut ++ it.wrote, wireIn := s.wireIn ++ it.data,
                         ext := { s.ext with replies := rest } }) := by
  simp only [devIter, h, hit]

theorem devIter_hangs (h : s.ext.replies = .hangs :: rest) : devIter f s = none := by
  simp only [devIter, h]

theorem devIter_drawn {it : Iteration} (h : s.ext.replies = [])
    (hit : it = admitProgress f (writeRequest s.cfg.frame f) (readRequest s.cfg.frame f)
      (Config.devAnswer s.ext.drawn)) :
    devIter f s =
      some (it, { s with wireOut := s.wireOut ++ it.wrote, wireIn := s.wireIn ++ it.data,
                         ext := { s.ext with drawn := s.ext.drawn + 1 } }) := by
  simp only [devIter, h, hit]

end

/-! ### Counts within R101's bounds -/

/-- R101's bounds on the two counts of an iteration: items 1 and 2, and the synchrony bound of item 3. -/
structure CountsBounded (f : FlushState) (wreq : List Byte) (rreq : Nat) (w r : Int) : Prop where
  noWrite : wreq = [] → w = 0
  write : w ≤ wreq.length
  noRead : rreq = 0 → r = 0
  read : r ≤ rreq
  synchrony : 0 ≤ w → 0 ≤ r → f.rpos + r ≤ f.wpos + w

section

variable {f : FlushState} {wreq : List Byte} {rreq : Nat}

/-- The counts alone decide whether R101 admits an iteration of the model: its bytes follow from them. -/
theorem CountsBounded.admissible {w r : Int} (h : CountsBounded f wreq rreq w r) (a : DevAnswer) :
    Admissible f wreq rreq (iterationOf wreq a w r) where
  noWrite := h.noWrite
  write := h.write
  noRead := h.noRead
  read := h.read
  data := readData_length r a
  synchrony := h.synchrony
  wrote hw := if_neg (not_lt.mpr hw)
  lost hw := by
    simp only [iterationOf] at hw ⊢
    rw [if_pos hw]
    exact List.take_prefix _ _

theorem countsBounded_admitted (hsync : f.rpos ≤ f.wpos) (a : DevAnswer) :
    CountsBounded f wreq rreq (writeCount wreq a) (readCount f (writeCount wreq a) rreq a) where
  noWrite h := if_pos h
  write := by unfold writeCount; split_ifs <;> omega
  noRead h := if_pos h
  read := by unfold readCount; split_ifs <;> omega
  synchrony := by unfold readCount; split_ifs <;> omega

/-! ### Listed answers -/

/-- The answer that lists an iteration's own counts and bytes. -/
def answerOf (it : Iteration) : DevAnswer :=
  { w := it.w, r := it.r, data := it.data, fill := 0, lost := it.wrote.length }

/-- R101's bounds leave an admissible iteration as it is. -/
theorem admitted_answerOf {it : Iteration} (h : Admissible f wreq rreq it) : admitted f wreq rreq (answerOf it) = it := by
  have hw : writeCount wreq (answerOf it) = it.w := by
    have hnone := h.noWrite
    have hbound := h.write
    simp only [writeCount, answerOf]
    by_cases hnil : wreq = []
    · rw [if_pos hnil, hnone hnil]
    · rw [if_neg hnil]
      omega
  have hr : readCount f it.w rreq (answerOf it) = it.r := by
    have hnone := h.noRead
    have hbound := h.read
    have hsync := h.synchrony
    simp only [readCount, answerOf]
    split_ifs <;> omega
  have hdata : readData it.r (answerOf it) = it.data := by
    simp [readData, answerOf, ← h.data]
  have hwrote : (if it.w < 0 then wreq.take (answerOf it).lost else wreq.take it.w.toNat) = it.wrote := by
    split_ifs with hneg
    · exact (List.prefix_iff_eq_take.mp (h.lost hneg)).symm
    · exact (h.wrote (not_lt.mp hneg)).symm
  rw [admitted, hw, hr, iterationOf, hdata, hwrote]

theorem admissible_iff_exists_admitted (hsync : f.rpos ≤ f.wpos) (it : Iteration) :
    Admissible f wreq rreq it ↔ ∃ a, admitted f wreq rreq a = it := by
  constructor
  · exact fun h => ⟨answerOf it, admitted_answerOf h⟩
  · rintro ⟨a, rfl⟩
    exact (countsBounded_admitted hsync a).admissible a

end

/-! ### Draws -/

/-- A draw is admitted and makes progress: one byte of it where the answer drawn makes none, written while bytes are left
to write and read after that (R220; log 4). -/
theorem admitProgress_admissible {frame : Nat} {f : FlushState} (hframe : 1 ≤ frame) (hsync : f.rpos ≤ f.wpos)
    (hbusy : flushBusy f = true) (a : DevAnswer) :
    Admissible f (writeRequest frame f) (readRequest frame f)
        (admitProgress f (writeRequest frame f) (readRequest frame f) a) ∧
      ((admitProgress f (writeRequest frame f) (readRequest frame f) a).w ≠ 0 ∨
        (admitProgress f (writeRequest frame f) (readRequest frame f) a).r ≠ 0) := by
  have hleft := flushBusy_iff.mp hbusy
  have hwreq := writeRequest_length frame f
  have hrreq := readRequest_eq frame f
  unfold admitProgress
  split_ifs with hidle hnil
  · rw [hnil, List.length_nil] at hwreq
    have hcounts : CountsBounded f (writeRequest frame f) (readRequest frame f) 0 1 :=
      ⟨fun _ => rfl, by omega, by omega, by omega, by omega⟩
    exact ⟨hcounts.admissible a, .inr one_ne_zero⟩
  · have hpos := List.length_pos_of_ne_nil hnil
    have hcounts : CountsBounded f (writeRequest frame f) (readRequest frame f) 1 0 :=
      ⟨fun h => absurd h hnil, by omega, fun _ => rfl, by omega, by omega⟩
    exact ⟨hcounts.admissible a, .inl one_ne_zero⟩
  · exact ⟨(countsBounded_admitted hsync a).admissible a, not_and_or.mp hidle⟩

/-- Settles O25, by what lists the next reply: an answer, a hang, or nothing. -/
theorem answersAreTheAdmissibleOnes : Obligations.AnswersAreTheAdmissibleOnes := by
  unfold Obligations.AnswersAreTheAdmissibleOnes
  refine ⟨fun f s rest it hsync => ?listed, fun f s rest => devIter_hangs, fun f s hc hsync hbusy hnone => ?drawn⟩
  case listed =>
    rw [admissible_iff_exists_admitted hsync]
    refine exists_congr fun a => ?_
    rw [devIter_listed rfl rfl]
    constructor
    · rintro rfl
      rfl
    · intro h
      cases h
      rfl
  case drawn =>
    obtain ⟨hadmissible, hprogress⟩ := admitProgress_admissible (ok_frame hc) hsync hbusy (Config.devAnswer s.ext.drawn)
    exact ⟨_, hadmissible, hprogress, devIter_drawn hnone rfl⟩

end Sys2Proof.Proofs
end

section
/-! PROOF. The ends of a FLUSH: from a ready session (O26), with OK (O28), with a fault (O31). -/

namespace Sys2Proof.Proofs

open Sys2Proof Sys2Proof.Machine Sys2Proof.Safety Sys2Proof.Laws

/-- ADP_FLUSH is FLUSH (R152). -/
theorem body_flush {i : Instr} (h : i = .flush ∨ i = .adpFlush) (s : State) : body i s = (flushOp s).map .status := by
  rcases h with rfl | rfl <;> rfl

/-- Settles O26: a flush of a ready session returns, in one of the two ways `FlushEnd` gives for that. -/
theorem flushRunsToTheEnd : Obligations.FlushRunsToTheEnd := by
  unfold Obligations.FlushRunsToTheEnd
  intro i s hi hready
  obtain ⟨st, u, hflush, hend, _, _⟩ := flushOp_ready 0 s hready
  have hexec : exec i s = .next { u with ret := .status st } :=
    exec_of_done hready.unfaulted (by rw [body_flush hi, hflush, map_done])
  cases hend with
  | ok data e hlen htaken =>
    exact ⟨_, data, e, hexec, htaken.calls, htaken.endWrites, htaken.primitives, htaken.scans, htaken.replies,
      .inl ⟨hlen, rfl⟩⟩
  | failed wrote data w r e hneg hprefix htaken =>
    exact ⟨_, data, e, hexec, htaken.calls, htaken.endWrites, htaken.primitives, htaken.scans, htaken.replies,
      .inr ⟨wrote, w, r, hneg, hprefix, rfl⟩⟩

/-- Settles O28: as many bytes were read as were sent, so the backlog is as it was and no request lacks its sample. -/
theorem flushKeepsExactlyTheRequestedSamples : Obligations.FlushKeepsExactlyTheRequestedSamples := by
  unfold Obligations.FlushKeepsExactlyTheRequestedSamples
  intro s t hc hopen hexec hfault hret
  obtain ⟨st, u, hend, rfl⟩ := exec_flush_returned hc hopen hexec hfault
  cases hend with
  | failed => cases hret
  | ok data e hlen =>
    refine ⟨data, _, rfl, hlen, rfl, rfl, retained_length s.cfg s.tx data hlen, ?backlog⟩
    simp only [backlog, List.length_append]
    omega

/-- A FLUSH of an open session that raised a fault ended in the one way `FlushEnd` gives for that: one that returned would
have left the mark as it was (R25, R183). -/
theorem exec_flush_faulted {s t : State} {m : FaultMark} (hc : s.cfg.ok = true) (hopen : s.isOpen = true)
    (hexec : exec .flush s = .next t) (hfault : t.fault = some m) : FlushEnd s.tx s.tx s (.raised t) := by
  rw [exec_eq_perform] at hexec
  obtain ⟨hnone, ⟨v, u, hdone, rfl⟩ | hraised⟩ := perform_next _ _ _ hexec
  · have hmark : Marks s (body .flush s) := Marks_map _ (flushOp_marks s)
    rw [hdone] at hmark
    cases hfault.symm.trans (hmark.trans hnone)
  · have hend := flushOp_end s hopen (ok_frame hc)
    cases hflush : flushOp s with
    | raised u =>
      rw [body, hflush, map_raised] at hraised
      cases hraised
      rwa [hflush] at hend
    | done | stuck => rw [body, hflush] at hraised; cases hraised

/-- Settles O31, by the one end of a FLUSH that leaves a mark. -/
theorem overflowKeepsWhatWasAppended : Obligations.OverflowKeepsWhatWasAppended := by
  unfold Obligations.OverflowKeepsWhatWasAppended
  intro s t m hc hopen hexec hfault
  cases exec_flush_faulted hc hopen hexec hfault with
  | overflow wrote data kept f e hprefix hlen hkept hfull hmore htaken =>
    cases hfault
    exact ⟨rfl, rfl, List.prefix_append _ _, hfull, rfl, nofun, rfl, hmore⟩

end Sys2Proof.Proofs
end

section
/-! PROOF. The loop of FLUSH (R102), iteration by iteration: with full transfers (O34), with nothing to send (O32), and with
a Device that hangs (O33). -/

namespace Sys2Proof.Proofs

open Sys2Proof Sys2Proof.Machine Sys2Proof.Safety Sys2Proof.Laws

/-! ### The loop's equations -/

theorem flushOp_open {s : State} (hopen : s.isOpen = true) :
    flushOp s = flushLoop (s.ext.replies.length + 2 * s.tx.length + 1) (flushStart s) s := needOpen_open _ _ _ hopen

section

variable {fuel : Nat} {f : FlushState} {s : State}

theorem flushLoop_complete (hbusy : ¬ flushBusy f = true) : flushLoop (fuel + 1) f s = .done .ok { s with tx := [] } := by
  rw [flushLoop, if_neg hbusy]

theorem flushLoop_of_hang (hbusy : flushBusy f = true) (hiter : devIter f s = none) :
    flushLoop (fuel + 1) f s = .stuck .deviceStuck := by
  rw [flushLoop, if_pos hbusy, hiter]

/-- A loop that returns has gone on after an iteration whose counts were not negative, with the samples it kept. -/
theorem flushLoop_done_of_advance {s1 t : State} {it : Iteration} {st : Status} (hbusy : flushBusy f = true)
    (hiter : devIter f s = some (it, s1)) (hcounts : ¬ (it.w < 0 ∨ it.r < 0))
    (hdone : flushLoop (fuel + 1) f s = .done st t) :
    ∃ rx, flushLoop fuel { f with wpos := f.wpos + it.w.toNat, rpos := f.rpos + it.r.toNat } { s1 with rx := rx } =
      .done st t := by
  rw [flushLoop, if_pos hbusy, hiter] at hdone
  simp only [if_neg hcounts] at hdone
  split at hdone
  next => cases hdone
  next rx _ => exact ⟨rx, hdone⟩

end

/-! ### Full transfers (R110) -/

/-- A transfer that answers at least a frame on both sides moves as many bytes each way as are left, at most a frame. -/
theorem admitted_full {frame : Nat} {f : FlushState} {a : DevAnswer} (hsync : f.rpos = f.wpos) (hw : (frame : Int) ≤ a.w)
    (hr : (frame : Int) ≤ a.r) :
    (admitted f (writeRequest frame f) (readRequest frame f) a).w = min frame (f.snap.length - f.wpos) ∧
      (admitted f (writeRequest frame f) (readRequest frame f) a).r = min frame (f.snap.length - f.wpos) := by
  have hwreq := writeRequest_length frame f
  have hrreq := readRequest_eq frame f
  have hwrote : writeCount (writeRequest frame f) a = min frame (f.snap.length - f.wpos) := by
    unfold writeCount
    by_cases hnil : writeRequest frame f = []
    · rw [if_pos hnil]
      rw [hnil, List.length_nil] at hwreq
      omega
    · rw [if_neg hnil]
      omega
  refine ⟨hwrote, ?_⟩
  simp only [admitted, iterationOf, hwrote]
  unfold readCount
  split_ifs <;> omega

/-- `k` transfers of at most `frame` bytes are the fewest that move `n` bytes: k = ceil(n / FRAME). -/
structure IsCeil (frame n k : Nat) : Prop where
  enough : n ≤ k * frame
  fewest : k * frame < n + frame

theorem isCeil_div {frame : Nat} (hframe : 1 ≤ frame) (n : Nat) : IsCeil frame n ((n + frame - 1) / frame) where
  enough := by
    have := Nat.lt_div_mul_add (a := n + frame - 1) hframe
    omega
  fewest := by
    have := Nat.div_mul_le_self (n + frame - 1) frame
    omega

theorem IsCeil.eq_zero {frame n : Nat} (h : IsCeil frame n 0) : n = 0 := by
  have := h.enough
  omega

theorem IsCeil.pos {frame n k : Nat} (h : IsCeil frame n (k + 1)) : 0 < n := by
  have hfewest := h.fewest
  rw [Nat.succ_mul] at hfewest
  omega

/-- One transfer fewer for what a full transfer leaves. -/
theorem IsCeil.pred {frame n k : Nat} (h : IsCeil frame n (k + 1)) : IsCeil frame (n - min frame n) k := by
  have henough := h.enough
  have hfewest := h.fewest
  rw [Nat.succ_mul] at henough hfewest
  exact ⟨by omega, by omega⟩

/-- A loop that returns after as many full transfers as are listed has taken exactly those, and returns OK. -/
theorem flushLoop_full_done {k fuel : Nat} {f : FlushState} {s t : State} {st : Status} {a : DevAnswer}
    {rest : List DevReply} (hdone : flushLoop fuel f s = .done st t) (hsync : f.rpos = f.wpos)
    (hw : (s.cfg.frame : Int) ≤ a.w) (hr : (s.cfg.frame : Int) ≤ a.r)
    (hceil : IsCeil s.cfg.frame (f.snap.length - f.wpos) k)
    (hlisted : s.ext.replies = List.replicate k (.answers a) ++ rest) : st = .ok ∧ t.ext.replies = rest := by
  induction k generalizing fuel f s with
  | zero =>
    have hleft := hceil.eq_zero
    have hbusy : ¬ flushBusy f = true := by rw [flushBusy_iff]; omega
    cases fuel with
    | zero => cases hdone
    | succ fuel =>
      rw [flushLoop_complete hbusy] at hdone
      cases hdone
      exact ⟨rfl, hlisted⟩
  | succ k ih =>
    have hleft := hceil.pos
    have hbusy : flushBusy f = true := by rw [flushBusy_iff]; omega
    obtain ⟨hmovedW, hmovedR⟩ := admitted_full (f := f) hsync hw hr
    cases fuel with
    | zero => cases hdone
    | succ fuel =>
      obtain ⟨rx, hnext⟩ := flushLoop_done_of_advance hbusy (devIter_listed hlisted rfl) (by omega) hdone
      refine ih hnext ?sync hw hr ?ceil rfl
      case sync => simp only [hmovedW, hmovedR, hsync]
      case ceil =>
        rw [hmovedW, Int.toNat_natCast, ← Nat.sub_sub]
        exact hceil.pred

/-- Settles O34: a ready session's FLUSH returns, after the listed transfers and no more. -/
theorem fullTransfersTakeOneIterationPerFrame : Obligations.FullTransfersTakeOneIterationPerFrame := by
  unfold Obligations.FullTransfersTakeOneIterationPerFrame
  intro s a rest hready hw hr hlisted
  obtain ⟨st, u, hflush, hend, _, _⟩ := flushOp_ready 0 s hready
  obtain ⟨rfl, hrest⟩ : st = .ok ∧ u.ext.replies = rest :=
    flushLoop_full_done ((flushOp_open hready.opened).symm.trans hflush) rfl hw hr
      (isCeil_div (ok_frame hready.params) _) hlisted
  obtain ⟨_, hall⟩ | ⟨hfail, _⟩ := flushEnd_done_wireOut hend
  · exact ⟨{ u with ret := .status .ok }, exec_of_done hready.unfaulted (by rw [body, hflush, map_done]), rfl, hall, hrest⟩
  · cases hfail

/-! ### Nothing to send, and a Device that hangs -/

/-- Settles O32: with nothing queued the loop ends before its first iteration. -/
theorem emptyFlushMakesNoTransfer : Obligations.EmptyFlushMakesNoTransfer := by
  unfold Obligations.EmptyFlushMakesNoTransfer
  intro s hopen hfault hempty
  have hbusy : ¬ flushBusy (flushStart s) = true := by simp [flushBusy_iff, flushStart, hempty]
  have hflush : flushOp s = .done .ok s := by
    rw [flushOp_open hopen, flushLoop_complete hbusy, ← hempty]
  exact exec_of_done hfault (by rw [body, hflush, map_done])

/-- Settles O33: the loop's first iteration has no answer. -/
theorem hangingDeviceSticksTheFlush : Obligations.HangingDeviceSticksTheFlush := by
  unfold Obligations.HangingDeviceSticksTheFlush
  intro s rest hopen hfault hqueued hhangs
  have hbusy : flushBusy (flushStart s) = true := flushBusy_iff.mpr (.inl (List.length_pos_of_ne_nil hqueued))
  have hflush : flushOp s = .stuck .deviceStuck := by
    rw [flushOp_open hopen, flushLoop_of_hang hbusy (devIter_hangs hhangs)]
  exact exec_of_stuck hfault (by rw [body, hflush, map_stuck])

end Sys2Proof.Proofs
end

section
/-! PROOF. The receive read (O21). -/

namespace Sys2Proof.Proofs

open Sys2Proof Sys2Proof.Machine Sys2Proof.Safety Sys2Proof.Laws

/-- ADP_READ is RX_READ (R156). -/
theorem body_read {i : Instr} (h : i = .rxRead ∨ i = .adpRead) (s : State) : body i s = (rxReadOp s).map .int := by
  rcases h with rfl | rfl <;> rfl

theorem rxReadOp_empty {s : State} (hopen : s.isOpen = true) (hrx : s.rx = []) : rxReadOp s = .done (-1) s := by
  rw [rxReadOp, needOpen_open _ _ _ hopen, hrx]

theorem rxReadOp_cons {s : State} {v : Byte} {rest : List Byte} (hopen : s.isOpen = true) (hrx : s.rx = v :: rest) :
    rxReadOp s = .done v.toNat { s with rx := rest } := by
  rw [rxReadOp, needOpen_open _ _ _ hopen, hrx]

/-- Settles O21, by the two forms of `rx` in a session, and with no session. -/
theorem readTakesTheOldestSample : Obligations.ReadTakesTheOldestSample := by
  unfold Obligations.ReadTakesTheOldestSample
  refine ⟨⟨rfl, rfl⟩, fun i s hi hfault => ⟨fun hopen hrx => ?empty, fun v rest hopen hrx => ?oldest, fun hclosed => ?closed⟩⟩
  case empty => exact exec_of_done hfault (by rw [body_read hi, rxReadOp_empty hopen hrx, map_done])
  case oldest =>
    exact exec_of_done (u := { s with rx := rest }) hfault (by rw [body_read hi, rxReadOp_cons hopen hrx, map_done])
  case closed =>
    have hop : sessionOp i = some .rxRead := by rcases hi with rfl | rfl <;> rfl
    exact exec_of_closed hop hfault hclosed

end Sys2Proof.Proofs
end

section
/-! PROOF. TRANSITION (spec/42_tap_driver.md R121): where it ends (O35), and its two faults (O36). -/

namespace Sys2Proof.Proofs

open Sys2Proof Sys2Proof.Machine Sys2Proof.Safety Sys2Proof.Laws

/-! ### The bytes -/

/-- Two bytes a clock (R93). -/
theorem length_clockBytes (p : PinMap) (bits : List Bool) : (clockBytes p bits).length = 2 * bits.length := by
  induction bits with
  | nil => rfl
  | cons tms rest ih =>
    have hcons : clockBytes p (tms :: rest) = pulseBytes p tms false false ++ clockBytes p rest := rfl
    rw [hcons, List.length_append, ih, List.length_cons, pulseBytes]
    simp only [List.length_cons, List.length_nil]
    omega

theorem length_pathBits (m : TapMove) : (pathBits m).length = m.count := by
  rw [pathBits, List.length_map, List.length_range]

theorem length_transitionBytes (c : Params) (x target : TapState) :
    (transitionBytes c x target).length = 2 * (tapPath c.tap x target).count + 1 := by
  rw [transitionBytes, List.length_append, length_clockBytes, length_pathBits, List.length_singleton]

/-- "the idle byte alone" (R123). -/
theorem transitionBytes_of_empty_path {c : Params} {x target : TapState} (hempty : (tapPath c.tap x target).count = 0) :
    transitionBytes c x target = [idleByte c.pins] := by
  rw [transitionBytes, pathBits, hempty]
  rfl

theorem tapPath_self (t : TapService) (x : TapState) : tapPath t x x = { pattern := 0, count := 0 } := if_pos rfl

/-! ### The ends of a TRANSITION -/

/-- The commit is the last write of a TRANSITION that returns (R121). -/
theorem transitionOp_done_tapCur {target : TapState} {s t : State} (h : transitionOp target s = .done () t) :
    t.tapCur = target := by
  have hbody := needOpen_done h
  split at hbody
  next =>
    split at hbody
    next => cases hbody
    next =>
      obtain ⟨_, u, _, hidle⟩ := andThen_done_iff.mp hbody
      obtain ⟨_, v, _, hcommit⟩ := andThen_done_iff.mp hidle
      cases hcommit
      rfl
  next => cases hbody

theorem transitionOp_not_stable {target : TapState} {s : State} (hopen : s.isOpen = true)
    (hstable : tapStable s.cfg.tap target = false) :
    transitionOp target s = .raised { s with fault := some ⟨.nonStableTarget target, .transition⟩ } := by
  rw [transitionOp, needOpen_open _ _ _ hopen, if_neg (by rw [hstable]; exact Bool.false_ne_true), raise_eq]

section

variable {target : TapState} {s : State} (hopen : s.isOpen = true) (hstable : tapStable s.cfg.tap target = true)
include hopen hstable

theorem transitionOp_too_long (hlong : 8 < (tapPath s.cfg.tap s.tapCur target).count) :
    transitionOp target s =
      .raised { s with
        fault := some ⟨.pathTooLong s.tapCur target (tapPath s.cfg.tap s.tapCur target).count, .transition⟩ } := by
  rw [transitionOp, needOpen_open _ _ _ hopen, if_pos hstable, if_pos hlong, raise_eq]

/-- Past its checks a TRANSITION is the path's pulses, the idle byte and the commit (R121). -/
theorem transitionOp_legal (hshort : (tapPath s.cfg.tap s.tapCur target).count ≤ 8) :
    transitionOp target s =
      (clockAll (pathBits (tapPath s.cfg.tap s.tapCur target)) s).andThen fun _ t =>
        (idleOp t).andThen fun _ u => .done () { u with tapCur := target } := by
  rw [transitionOp, needOpen_open _ _ _ hopen, if_pos hstable, if_neg (Nat.not_lt.mpr hshort)]

end

/-- A TRANSITION whose next state has no mark has returned: a raise would have left one (R25). -/
theorem exec_transition_tapCur {target : TapState} {s t : State} (hexec : exec (.transition target) s = .next t)
    (hfault : t.fault = none) : t.tapCur = target := by
  rw [exec_eq_perform] at hexec
  obtain ⟨_, ⟨v, u, hdone, rfl⟩ | hraised⟩ := perform_next _ _ _ hexec
  · obtain ⟨_, w, htransition, hvalue⟩ := andThen_done_iff.mp hdone
    cases hvalue
    exact transitionOp_done_tapCur (t := u) htransition
  · have hmark : Marks s (body (.transition target) s) := Marks_map _ (transitionOp_marks target s)
    rw [hraised] at hmark
    exact absurd hfault hmark

/-- Settles O35, by the run of a legal TRANSITION from a ready session and by the commit every TRANSITION that returns ends
with. -/
theorem transitionEndsInItsTarget : Obligations.TransitionEndsInItsTarget := by
  unfold Obligations.TransitionEndsInItsTarget
  refine ⟨fun target s hready hstable hshort => ?_, fun target s t => exec_transition_tapCur⟩
  obtain ⟨t, hrun, hemits, htap, _, _⟩ := transitionOp_emits 0 target s hready hstable hshort
  refine ⟨{ t with ret := .unit }, exec_of_done hready.unfaulted (by rw [body, hrun, map_done]), Emits_ret _ hemits, htap,
    rfl, length_transitionBytes _ _ _, transitionBytes_of_empty_path, fun hself => ?_⟩
  rw [hself, tapPath_self]

/-- Settles O36: each check raises in the state the TRANSITION began in. -/
theorem transitionFaultsBeforeAnyByte : Obligations.TransitionFaultsBeforeAnyByte := by
  unfold Obligations.TransitionFaultsBeforeAnyByte
  refine fun target s hfault hopen => ⟨fun hstable => ?notStable, fun hstable hlong => ?tooLong⟩
  case notStable => exact exec_of_raised hfault (by rw [body, transitionOp_not_stable hopen hstable, map_raised])
  case tooLong => exact exec_of_raised hfault (by rw [body, transitionOp_too_long hopen hstable hlong, map_raised])

end Sys2Proof.Proofs
end

section
/-! PROOF. Calls: an operation that another one calls does what it does as an instruction, but that its value is dropped and
`ret` keeps an earlier call's (R8, R27). `callAll_of_runInstrs` says so of a sequence, from which any caller made of such
calls follows. -/

namespace Sys2Proof.Proofs

open Sys2Proof Sys2Proof.Machine Sys2Proof.Safety Sys2Proof.Laws

/-! ### Operations called in sequence -/

/-- The operations in order, as calls of one caller that ignores their values (R8). -/
def callAll : List Instr → State → Res Unit
  | [], s => .done () s
  | i :: rest, s => (body i s).andThen fun _ t => callAll rest t

theorem callAll_append (is js : List Instr) (s : State) :
    callAll (is ++ js) s = (callAll is s).andThen fun _ t => callAll js t := by
  induction is generalizing s with
  | nil => rfl
  | cons i is ih =>
    rw [List.cons_append, callAll, callAll, andThen_assoc]
    exact congrArg (body i s).andThen (funext fun _ => funext ih)

theorem callAll_singleton (i : Instr) (s : State) : callAll [i] s = (body i s).map fun _ => () := rfl

theorem callAll_clocks (bits : List Bool) (s : State) : callAll (bits.map clock) s = clockAll bits s := by
  induction bits generalizing s with
  | nil => rfl
  | cons tms rest ih =>
    rw [List.map_cons, callAll, clockAll]
    show ((pulseOp tms false false s).map OpResult.status).andThen _ = _
    rw [Res.map, andThen_assoc]
    exact congrArg (pulseOp tms false false s).andThen (funext fun _ => funext ih)

theorem callAll_idle (s : State) : callAll [.idle] s = (idleOp s).map fun _ => () := by
  rw [callAll_singleton, body]
  cases idleOp s <;> rfl

theorem callAll_clock (tms : Bool) (s : State) : callAll [clock tms] s = (pulseOp tms false false s).map fun _ => () := by
  rw [callAll_singleton, clock, body]
  cases pulseOp tms false false s <;> rfl

theorem callAll_enq (b : Byte) (s : State) : callAll [.enq b] s = (enqOp b s).map fun _ => () := by
  rw [callAll_singleton, body]
  cases enqOp b s <;> rfl

theorem callAll_transition (target : TapState) (s : State) : callAll [.transition target] s = transitionOp target s := by
  rw [callAll_singleton, body]
  cases transitionOp target s <;> rfl

/-! ### What a call may be -/

/-- An operation with nothing that tells a call from an instruction: it neither reads nor writes `ret`, and touches the mark
only to raise. -/
structure Callable (i : Instr) : Prop where
  ret : ∀ v, Commutes (overlaid (returning v)) (body i)
  marks : ∀ s, Marks s (body i s)

theorem callable_enq (b : Byte) : Callable (.enq b) where
  ret _ := Commutes_map _ (enqOp_overlaid _ b)
  marks s := Marks_map _ (enqOp_marks b s)

theorem callable_idle : Callable .idle where
  ret _ := Commutes_map _ (idleOp_overlaid _)
  marks s := Marks_map _ (idleOp_marks s)

theorem callable_clock (tms : Bool) : Callable (clock tms) where
  ret _ := Commutes_map _ (pulseOp_overlaid _ tms false false)
  marks s := Marks_map _ (pulseOp_marks tms false false s)

theorem callable_transition (target : TapState) : Callable (.transition target) where
  ret _ := Commutes_map _ (transitionOp_overlaid _ rfl target)
  marks s := Marks_map _ (transitionOp_marks target s)

/-- An operation that commutes with every change of `ret` returns without one. -/
theorem ret_of_done {α : Type} {op : State → Res α} (hop : ∀ v, Commutes (overlaid (returning v)) op) {s u : State} {a : α}
    (h : op s = .done a u) : u.ret = s.ret := by
  have hsame : op s = mapEnd (overlaid (returning s.ret)) (op s) := hop s.ret s
  rw [h] at hsame
  injection hsame with _ hu
  rw [hu, overlaid_returning]

theorem callAll_overlaid {o : Overlay} {is : List Instr} (h : ∀ i ∈ is, Commutes (overlaid o) (body i)) :
    Commutes (overlaid o) (callAll is) := by
  induction is with
  | nil => exact Commutes_done ()
  | cons i is ih =>
    rw [List.forall_mem_cons] at h
    exact Commutes_andThen h.1 fun _ => ih h.2

/-! ### From instructions to calls -/

/-- How calls end that leave `u`, its mark telling whether one of them raised, in a caller whose `ret` is `r`. -/
def leaves (r : OpResult) (u : State) : Res Unit :=
  if u.fault = none then .done () { u with ret := r } else .raised { u with ret := r }

theorem leaves_of_unfaulted (r : OpResult) {u : State} (h : u.fault = none) : leaves r u = .done () { u with ret := r } :=
  if_pos h

theorem leaves_of_faulted (r : OpResult) {u : State} (h : u.fault ≠ none) : leaves r u = .raised { u with ret := r } :=
  if_neg h

theorem mapEnd_leaves (v r : OpResult) (u : State) : mapEnd (overlaid (returning v)) (leaves r u) = leaves v u := by
  unfold leaves
  split <;> rfl

/-- A sequence of operations that as instructions leaves `u` ends as calls with what `u` says. -/
theorem callAll_of_runInstrs {is : List Instr} {s u : State} (hcall : ∀ i ∈ is, Callable i) (hfault : s.fault = none)
    (hrun : runInstrs is s = .next u) : callAll is s = leaves s.ret u := by
  induction is generalizing s with
  | nil => cases hrun; exact (leaves_of_unfaulted _ hfault).symm
  | cons i is ih =>
    rw [List.forall_mem_cons] at hcall
    obtain ⟨hi, hrest⟩ := hcall
    have hmark := hi.marks s
    cases hbody : body i s with
    | stuck f => rw [runInstrs_of_fault (exec_of_stuck hfault hbody)] at hrun; cases hrun
    | raised t =>
      rw [hbody] at hmark
      rw [runInstrs_of_raise (exec_of_raised hfault hbody) hmark] at hrun
      cases hrun
      rw [callAll, hbody, andThen_raised, leaves_of_faulted _ hmark, ← ret_of_raised hi.ret hbody]
    | done v t =>
      have ht : t.fault = none := by rw [hbody] at hmark; exact Eq.trans hmark hfault
      have htail := ih (s := { t with ret := v }) hrest ht ((runInstrs_of_next (exec_of_done hfault hbody) ht).symm.trans hrun)
      have hback : t = overlaid (returning s.ret) { t with ret := v } := by
        rw [overlaid_returning, ← ret_of_done hi.ret hbody]
      calc callAll (i :: is) s
          = callAll is t := by rw [callAll, hbody, andThen_done]
        _ = callAll is (overlaid (returning s.ret) { t with ret := v }) := congrArg _ hback
        _ = mapEnd (overlaid (returning s.ret)) (leaves v u) := by
          rw [callAll_overlaid fun j hj => (hrest j hj).ret _, htail]
        _ = leaves s.ret u := mapEnd_leaves _ _ _

end Sys2Proof.Proofs
end

section
/-! PROOF. TRANSITION and the command handlers are callers of the operations their pseudocode names (O41; R121, R130 to R135):
each is `callAll` of those, then its commit. -/

namespace Sys2Proof.Proofs

open Sys2Proof Sys2Proof.Machine Sys2Proof.Safety Sys2Proof.Laws

/-! ### Callers -/

/-- A caller whose calls leave what `u` says ends as `finish` says, with its last write where none of them raised. -/
theorem exec_of_leaves {i : Instr} {s u : State} {last : State → State} (hfault : s.fault = none)
    (hlast : ∀ v r, { last { v with ret := r } with ret := .unit } = { last v with ret := .unit })
    (hbody : body i s = (leaves s.ret u).andThen fun _ t => .done .unit (last t)) :
    exec i s = .next (finish s u last) := by
  by_cases hu : u.fault = none
  · rw [leaves_of_unfaulted _ hu, andThen_done] at hbody
    rw [exec_of_done hfault hbody, finish, if_pos hu, hlast]
  · rw [leaves_of_faulted _ hu, andThen_raised] at hbody
    rw [exec_of_raised hfault hbody, finish, if_neg hu]

theorem callable_clocks (bits : List Bool) : ∀ i ∈ bits.map clock, Callable i :=
  List.forall_mem_map.mpr fun tms _ => callable_clock tms

theorem clockAll_of_runInstrs {bits : List Bool} {s u : State} (hfault : s.fault = none)
    (hrun : runInstrs (bits.map clock) s = .next u) (hu : u.fault = none) :
    clockAll bits s = .done () { u with ret := s.ret } := by
  rw [← callAll_clocks, callAll_of_runInstrs (callable_clocks bits) hfault hrun, leaves_of_unfaulted _ hu]

section

variable {s u : State} (hc : s.cfg.ok = true) (hfault : s.fault = none) (hopen : s.isOpen = true)

/-! ### TRANSITION (R121) -/

include hopen in
theorem transitionOp_eq_callAll {target : TapState} (hstable : tapStable s.cfg.tap target = true)
    (hshort : (tapPath s.cfg.tap s.tapCur target).count ≤ 8) :
    transitionOp target s =
      (callAll ((pathBits (tapPath s.cfg.tap s.tapCur target)).map clock ++ [.idle]) s).andThen fun _ t =>
        .done () { t with tapCur := target } := by
  rw [transitionOp_legal hopen hstable hshort, callAll_append, callAll_clocks, andThen_assoc]
  simp only [callAll_idle, Res.map, andThen_assoc, andThen_done]

include hfault hopen in
theorem exec_transition_of_runInstrs {target : TapState} (hstable : tapStable s.cfg.tap target = true)
    (hshort : (tapPath s.cfg.tap s.tapCur target).count ≤ 8)
    (hrun : runInstrs ((pathBits (tapPath s.cfg.tap s.tapCur target)).map clock ++ [.idle]) s = .next u) :
    exec (.transition target) s = .next (finish s u fun v => { v with tapCur := target }) := by
  have hcall : ∀ i ∈ (pathBits (tapPath s.cfg.tap s.tapCur target)).map clock ++ [.idle], Callable i :=
    List.forall_mem_append.mpr ⟨callable_clocks _, List.forall_mem_singleton.mpr callable_idle⟩
  refine exec_of_leaves hfault (fun _ _ => rfl) ?_
  rw [body, transitionOp_eq_callAll hopen hstable hshort, callAll_of_runInstrs hcall hfault hrun, Res.map, andThen_assoc]
  rfl

/-! ### CMD_RESET (R130) -/

/-- The state in which CMD_RESET queues its byte: the TAP state is forced first. -/
def resetStart (trst srst : Bool) (s : State) : State :=
  if trst ∨ (srst ∧ s.cfg.srstPullsTrst) then { s with tapCur := tapReset s.cfg.tap } else s

theorem resetStart_fault (trst srst : Bool) (s : State) : (resetStart trst srst s).fault = s.fault := by
  unfold resetStart; split <;> rfl

theorem resetStart_ret (trst srst : Bool) (s : State) : (resetStart trst srst s).ret = s.ret := by
  unfold resetStart; split <;> rfl

include hopen in
theorem cmdResetOp_eq_callAll (trst srst : Bool) :
    cmdResetOp trst srst s = callAll [.enq (resetByte s.cfg.pins trst srst)] (resetStart trst srst s) := by
  rw [cmdResetOp, needOpen_open _ _ _ hopen, callAll_enq]
  rfl

include hfault hopen in
theorem exec_cmdReset_of_runInstrs {trst srst : Bool}
    (hrun : runInstrs [.enq (resetByte s.cfg.pins trst srst)] (resetStart trst srst s) = .next u) :
    exec (.cmdReset trst srst) s = .next (finish s u id) := by
  have hcall := callAll_of_runInstrs (List.forall_mem_singleton.mpr (callable_enq _))
    ((resetStart_fault trst srst s).trans hfault) hrun
  refine exec_of_leaves hfault (fun _ _ => rfl) ?_
  rw [body, cmdResetOp_eq_callAll hopen, hcall, resetStart_ret]
  rfl

/-! ### CMD_RUNTEST (R131) -/

/-- Two continuations that agree wherever the operation returns. -/
theorem andThen_congr {α β : Type} {r : Res α} {f g : α → State → Res β} (h : ∀ a t, r = .done a t → f a t = g a t) :
    r.andThen f = r.andThen g := by
  cases r with
  | done a t => exact h a t rfl
  | raised t => rfl
  | stuck e => rfl

include hc in
theorem clockAll_done_sameTap {bits : List Bool} {t : State} (h : clockAll bits s = .done () t) : SameTap s t := by
  have hlands := clockAll_kept sameTap_kept bits s hc
  rwa [h] at hlands

include hc in
theorem pulseOp_done_sameTap {tms tdi sreq : Bool} {st : Status} {t : State} (h : pulseOp tms tdi sreq s = .done st t) :
    SameTap s t := by
  have hlands := pulseOp_kept sameTap_kept tms tdi sreq s hc
  rwa [h] at hlands

include hc in
theorem transitionOp_done_cfg {target : TapState} {t : State} (h : transitionOp target s = .done () t) : t.cfg = s.cfg := by
  have hlands := transitionOp_kept framed_keptAll.toKeptTap target s hc trivial
  rw [h] at hlands
  exact hlands.cfg

/-- The calls of CMD_RUNTEST: to TAP_IDLE, the pulses there, and on to the end state. -/
def runtestCalls (cycles : Nat) (endState : TapState) (s : State) : List Instr :=
  (if s.tapCur ≠ tapIdle s.cfg.tap then [.transition (tapIdle s.cfg.tap)] else []) ++
    List.replicate cycles (clock false) ++ (if endState ≠ tapIdle s.cfg.tap then [.transition endState] else [])

theorem callable_runtestCalls (cycles : Nat) (endState : TapState) (s : State) :
    ∀ i ∈ runtestCalls cycles endState s, Callable i := by
  have hclocks : ∀ i ∈ List.replicate cycles (clock false), Callable i := fun i hi =>
    List.eq_of_mem_replicate hi ▸ callable_clock false
  have hoptional : ∀ (c : Prop) [Decidable c] (x : TapState),
      ∀ i ∈ (if c then [Instr.transition x] else []), Callable i := fun c _ x i hi => by
    split at hi
    · exact List.mem_singleton.mp hi ▸ callable_transition x
    · cases hi
  exact List.forall_mem_append.mpr ⟨List.forall_mem_append.mpr ⟨hoptional _ _, hclocks⟩, hoptional _ _⟩

/-- A transition made only where its condition holds. -/
theorem callAll_transition_if (c : Prop) [Decidable c] (x : TapState) (s : State) :
    callAll (if c then [.transition x] else []) s = if c then transitionOp x s else .done () s := by
  split
  · exact callAll_transition x s
  · rfl

include hc in
/-- The first part of CMD_RUNTEST ends in TAP_IDLE. -/
theorem toIdle_done {t : State}
    (h : (if s.tapCur ≠ tapIdle s.cfg.tap then transitionOp (tapIdle s.cfg.tap) s else .done () s) = .done () t) :
    t.cfg = s.cfg ∧ t.tapCur = tapIdle s.cfg.tap := by
  split at h
  next => exact ⟨transitionOp_done_cfg hc h, transitionOp_done_tapCur h⟩
  next hidle => cases h; exact ⟨rfl, not_not.mp hidle⟩

include hc hopen in
/-- CMD_RUNTEST looks at `tap_cur` after its pulses, which run in TAP_IDLE and keep it. -/
theorem cmdRuntestOp_eq_callAll (cycles : Nat) (endState : TapState) :
    cmdRuntestOp cycles endState s = callAll (runtestCalls cycles endState s) s := by
  rw [cmdRuntestOp, needOpen_open _ _ _ hopen, runtestCalls, List.append_assoc, callAll_append, callAll_transition_if]
  refine andThen_congr fun _ t hidle => ?_
  obtain ⟨hcfg, htap⟩ := toIdle_done hc hidle
  rw [callAll_append, ← List.map_replicate, callAll_clocks]
  refine andThen_congr fun _ v hclocks => ?_
  have hsame := clockAll_done_sameTap (hcfg.symm ▸ hc) hclocks
  rw [callAll_transition_if, hsame.tapCur, htap]

include hc hfault hopen in
theorem exec_cmdRuntest_of_runInstrs {cycles : Nat} {endState : TapState}
    (hrun : runInstrs (runtestCalls cycles endState s) s = .next u) :
    exec (.cmdRuntest cycles endState) s = .next (finish s u id) := by
  refine exec_of_leaves hfault (fun _ _ => rfl) ?_
  rw [body, cmdRuntestOp_eq_callAll hc hopen, callAll_of_runInstrs (callable_runtestCalls _ _ _) hfault hrun]
  rfl

/-! ### CMD_STABLECLOCKS (R132) and CMD_TMS (R135) -/

include hfault hopen in
theorem exec_cmdStableclocks_of_runInstrs {cycles : Nat} (hstable : tapStable s.cfg.tap s.tapCur = true)
    (hrun : runInstrs (List.replicate cycles (clock (decide (s.tapCur = tapReset s.cfg.tap)))) s = .next u) :
    exec (.cmdStableclocks cycles) s = .next (finish s u id) := by
  rw [← List.map_replicate] at hrun
  refine exec_of_leaves hfault (fun _ _ => rfl) ?_
  rw [body, cmdStableclocksOp, needOpen_open _ _ _ hopen, if_pos hstable, ← callAll_clocks,
    callAll_of_runInstrs (callable_clocks _) hfault hrun]
  rfl

include hfault hopen in
theorem exec_cmdTms_of_runInstrs {nbits : Nat} {bits : List Byte}
    (hrun : runInstrs ((tmsBits nbits bits).map clock) s = .next u) :
    exec (.cmdTms nbits bits) s = .next (finish s u fun v => { v with tapCur := v.tapEnd }) := by
  refine exec_of_leaves hfault (fun _ _ => rfl) ?_
  rw [body, cmdTmsOp, needOpen_open _ _ _ hopen, ← callAll_clocks, callAll_of_runInstrs (callable_clocks _) hfault hrun,
    Res.map, andThen_assoc]
  rfl

end

/-! ### CMD_PATHMOVE (R133) -/

/-- One step of a path, then the rest from where it leads. -/
theorem pathTms_cons {t : TapService} {cur x : TapState} {rest : List TapState} {bits : List Bool}
    (h : pathTms t cur (x :: rest) = some bits) :
    ∃ tms tail, pathTms t cur [x] = some [tms] ∧ pathTms t x rest = some tail ∧ bits = tms :: tail := by
  rw [pathTms] at h
  split at h
  next hzero =>
    obtain ⟨tail, htail, rfl⟩ := Option.map_eq_some_iff.mp h
    exact ⟨false, tail, by rw [pathTms, if_pos hzero]; rfl, htail, rfl⟩
  next hzero =>
    split at h
    next hone =>
      obtain ⟨tail, htail, rfl⟩ := Option.map_eq_some_iff.mp h
      exact ⟨true, tail, by rw [pathTms, if_neg hzero, if_pos hone]; rfl, htail, rfl⟩
    next => cases h

/-- A step to a successor is its pulse, then its commit. -/
theorem pathSteps_successor {k : Nat} {x : TapState} {rest : List TapState} {s : State} {tms : Bool}
    (h : pathTms s.cfg.tap s.tapCur [x] = some [tms]) :
    pathSteps k (x :: rest) s =
      (callAll [clock tms] s).andThen fun _ t => pathSteps (k + 1) rest { t with tapCur := x } := by
  rw [pathTms] at h
  rw [pathSteps, callAll_clock, Res.map, andThen_assoc]
  simp only [andThen_done]
  split at h
  next hzero => cases h; rw [if_pos hzero]
  next hzero =>
    rw [if_neg hzero]
    split at h
    next hone => cases h; rw [if_pos hone]
    next => cases h

theorem pathSteps_no_successor {k : Nat} {x : TapState} {rest : List TapState} {s : State}
    (h : pathTms s.cfg.tap s.tapCur [x] = none) :
    pathSteps k (x :: rest) s =
      .raised { s with fault := some ⟨.invalidPathStep s.tapCur x k, .cmdPathmove⟩ } := by
  rw [pathTms] at h
  rw [pathSteps]
  split at h
  next => cases h
  next hzero =>
    split at h
    next => cases h
    next hone => rw [if_neg hzero, if_neg hone, raise_eq]

theorem pathSteps_append (k : Nat) (before after : List TapState) (s : State) :
    pathSteps k (before ++ after) s =
      (pathSteps k before s).andThen fun _ t => pathSteps (k + before.length) after t := by
  induction before generalizing k s with
  | nil => rfl
  | cons x before ih =>
    have hindex : k + (x :: before).length = k + 1 + before.length := by rw [List.length_cons]; omega
    cases hstep : pathTms s.cfg.tap s.tapCur [x] with
    | none => rw [List.cons_append, pathSteps_no_successor hstep, pathSteps_no_successor hstep, andThen_raised]
    | some bits =>
      obtain ⟨tms, tail, hone, _, _⟩ := pathTms_cons hstep
      rw [List.cons_append, pathSteps_successor hone, pathSteps_successor hone, andThen_assoc, hindex]
      exact congrArg (callAll [clock tms] s).andThen (funext fun _ => funext fun t => ih _ _)

/-- The change of `tap_cur` alone. -/
def atTap (x : TapState) : Overlay where
  events := []
  out := []
  inn := []
  calls := []
  qi := none
  ret := none
  returns := none
  tap := some x

theorem overlaid_atTap (x : TapState) (s : State) : overlaid (atTap x) s = { s with tapCur := x } := rfl

/-- The steps along a path of successors whose pulses all return: no pulse reads the commits made before it (R21). -/
theorem pathSteps_of_clockAll {path : List TapState} {bits : List Bool} {s u : State} (k : Nat) (hc : s.cfg.ok = true)
    (hpath : pathTms s.cfg.tap s.tapCur path = some bits) (hclocks : clockAll bits s = .done () u) :
    pathSteps k path s = .done () { u with tapCur := path.getLastD s.tapCur } := by
  induction path generalizing k bits s u with
  | nil =>
    cases hpath
    cases hclocks
    rfl
  | cons x rest ih =>
    obtain ⟨tms, tail, hstep, htail, rfl⟩ := pathTms_cons hpath
    obtain ⟨st, t, hpulse, hrest⟩ := andThen_done_iff.mp hclocks
    have hsame := pulseOp_done_sameTap hc hpulse
    have hmoved : clockAll tail { t with tapCur := x } = .done () { u with tapCur := x } := by
      rw [← overlaid_atTap, clockAll_overlaid, hrest, mapEnd, overlaid_atTap]
    have hcfg : t.cfg.ok = true := hsame.cfg.symm ▸ hc
    have hnext := ih (s := { t with tapCur := x }) (k + 1) hcfg (hsame.cfg.symm ▸ htail) hmoved
    rw [pathSteps_successor hstep, callAll_clock, hpulse, map_done, andThen_done, hnext, List.getLastD_cons]

/-- A call ends the same from another TAP state and after another earlier call, where the operation reads neither. -/
theorem callAll_elsewhere {i : Instr} {u v : State} (r : OpResult) (x : TapState) (hi : Callable i)
    (htap : Commutes (overlaid (atTap x)) (body i)) (hfault : u.fault = none) (hexec : exec i u = .next v) :
    callAll [i] { u with ret := r, tapCur := x } = leaves r { v with tapCur := x } := by
  have hrun : runInstrs [i] u = .next v := by
    by_cases hv : v.fault = none
    · rw [runInstrs_of_next hexec hv, runInstrs]
    · exact runInstrs_of_raise hexec hv
  have hcall := callAll_of_runInstrs (List.forall_mem_singleton.mpr hi) hfault hrun
  calc callAll [i] { u with ret := r, tapCur := x }
      = callAll [i] (overlaid (atTap x) (overlaid (returning r) u)) := rfl
    _ = mapEnd (overlaid (atTap x)) (mapEnd (overlaid (returning r)) (leaves u.ret v)) := by
      rw [callAll_overlaid (List.forall_mem_singleton.mpr htap),
        callAll_overlaid (List.forall_mem_singleton.mpr (hi.ret r)), hcall]
    _ = leaves r { v with tapCur := x } := by
      rw [mapEnd_leaves]
      unfold leaves
      split <;> rfl

theorem cmdPathmoveOp_open {path : List TapState} {s : State} (hopen : s.isOpen = true) :
    cmdPathmoveOp path s = (pathSteps 0 path s).andThen fun _ t => callAll [.idle] t := by
  rw [cmdPathmoveOp, needOpen_open _ _ _ hopen]
  simp only [callAll_idle]

section

variable {s u : State} (hc : s.cfg.ok = true) (hfault : s.fault = none) (hopen : s.isOpen = true)
  {before : List TapState} {bits : List Bool} (hpath : pathTms s.cfg.tap s.tapCur before = some bits)
  (hrun : runInstrs (bits.map clock) s = .next u) (hu : u.fault = none)

include hc hfault hpath hrun hu

/-- CMD_PATHMOVE after the steps whose pulses leave `u`: each has committed, so it stands in the last one's state. -/
theorem pathSteps_before (after : List TapState) :
    pathSteps 0 (before ++ after) s =
      pathSteps before.length after { u with ret := s.ret, tapCur := before.getLastD s.tapCur } := by
  rw [pathSteps_append, pathSteps_of_clockAll 0 hc hpath (clockAll_of_runInstrs hfault hrun hu), andThen_done,
    Nat.zero_add]

include hopen

theorem exec_cmdPathmove_idle {v : State} (hexec : exec .idle u = .next v) :
    exec (.cmdPathmove before) s = .next (finish s { v with tapCur := before.getLastD s.tapCur } id) := by
  have hsteps := pathSteps_before hc hfault hpath hrun hu []
  rw [List.append_nil, pathSteps] at hsteps
  refine exec_of_leaves hfault (fun _ _ => rfl) ?_
  rw [body, cmdPathmoveOp_open hopen, hsteps, andThen_done,
    callAll_elsewhere _ _ callable_idle (Commutes_map _ (idleOp_overlaid _)) hu hexec]
  rfl

theorem exec_cmdPathmove_pulse_raised {target : TapState} {tms : Bool} {after : List TapState} {v : State}
    (hstep : pathTms s.cfg.tap (before.getLastD s.tapCur) [target] = some [tms]) (hexec : exec (clock tms) u = .next v)
    (hv : v.fault ≠ none) :
    exec (.cmdPathmove (before ++ target :: after)) s =
      .next { v with tapCur := before.getLastD s.tapCur, ret := s.ret } := by
  have hpulse := (callAll_elsewhere s.ret (before.getLastD s.tapCur) (callable_clock tms)
    (Commutes_map _ (pulseOp_overlaid _ tms false false)) hu hexec).trans (leaves_of_faulted s.ret hv)
  have hcfg : u.cfg = s.cfg := (clockAll_done_sameTap hc (clockAll_of_runInstrs hfault hrun hu)).cfg
  refine exec_of_raised hfault ?_
  rw [body, cmdPathmoveOp_open hopen, pathSteps_before hc hfault hpath hrun hu, pathSteps_successor (hcfg.symm ▸ hstep),
    hpulse, andThen_raised, andThen_raised, map_raised]

theorem exec_cmdPathmove_no_successor {bad : TapState} {after : List TapState}
    (hstep : pathTms s.cfg.tap (before.getLastD s.tapCur) [bad] = none) :
    exec (.cmdPathmove (before ++ bad :: after)) s =
      .next { u with
        tapCur := before.getLastD s.tapCur, ret := s.ret,
        fault := some ⟨.invalidPathStep (before.getLastD s.tapCur) bad before.length, .cmdPathmove⟩ } := by
  have hcfg : u.cfg = s.cfg := (clockAll_done_sameTap hc (clockAll_of_runInstrs hfault hrun hu)).cfg
  refine exec_of_raised hfault ?_
  rw [body, cmdPathmoveOp_open hopen, pathSteps_before hc hfault hpath hrun hu, pathSteps_no_successor (hcfg.symm ▸ hstep),
    andThen_raised, map_raised]

end

/-- Settles O41, one handler after the other. -/
theorem handlersRunTheirOperations : Obligations.HandlersRunTheirOperations := by
  unfold Obligations.HandlersRunTheirOperations
  refine fun s u hc hfault hopen => ⟨fun target => exec_transition_of_runInstrs hfault hopen,
    fun trst srst => exec_cmdReset_of_runInstrs hfault hopen,
    fun cycles endState => exec_cmdRuntest_of_runInstrs hc hfault hopen,
    fun cycles => exec_cmdStableclocks_of_runInstrs hfault hopen,
    fun nbits bits _ hrun => exec_cmdTms_of_runInstrs hfault hopen (by rwa [tmsBits, List.map_map]), ?pathmove⟩
  case pathmove =>
    intro before bits hpath hrun hu
    exact ⟨fun v => exec_cmdPathmove_idle hc hfault hopen hpath hrun hu,
      fun target tms after v => exec_cmdPathmove_pulse_raised hc hfault hopen hpath hrun hu,
      fun bad after => exec_cmdPathmove_no_successor hc hfault hopen hpath hrun hu⟩

end Sys2Proof.Proofs
end

section
/-! PROOF. CMD_RESET, CMD_RUNTEST, CMD_STABLECLOCKS, CMD_TMS and CMD_PATHMOVE from a ready session (O37, O38, O39, O40, O44,
O42, O43): each runs to its end, or to the fault its operands give, with the bytes its pseudocode appends. -/

namespace Sys2Proof.Proofs

open Sys2Proof Sys2Proof.Machine Sys2Proof.Safety Sys2Proof.Laws

/-! ### CMD_RESET (R130) -/

/-- The TAP state CMD_RESET leaves: the reset state where a hard reset applies. -/
def resetTap (trst srst : Bool) (s : State) : TapState :=
  if trst ∨ (srst ∧ s.cfg.srstPullsTrst) then tapReset s.cfg.tap else s.tapCur

theorem resetStart_eq (trst srst : Bool) (s : State) :
    resetStart trst srst s = { s with tapCur := resetTap trst srst s } := by
  unfold resetStart resetTap
  split <;> rfl

theorem body_cmdReset {trst srst : Bool} {s : State} (hopen : s.isOpen = true) :
    body (.cmdReset trst srst) s =
      (enqOp (resetByte s.cfg.pins trst srst) { s with tapCur := resetTap trst srst s }).map fun _ => .unit := by
  rw [body, cmdResetOp_eq_callAll hopen, callAll_enq, resetStart_eq]
  cases enqOp (resetByte s.cfg.pins trst srst) { s with tapCur := resetTap trst srst s } <;> rfl

theorem exec_cmdReset_ready {trst srst : Bool} {s : State} (hready : Ready s) :
    ∃ t, exec (.cmdReset trst srst) s = .next t ∧ Emits [resetByte s.cfg.pins trst srst] s t ∧
      t.tapCur = resetTap trst srst s ∧ t.ret = .unit := by
  have hstart : ReadyFor (sampleCount s.cfg.pins [resetByte s.cfg.pins trst srst] + 0)
      { s with tapCur := resetTap trst srst s } := by
    rw [sampleCount_resetByte hready.params]
    exact ReadyFor_tapCur _ hready
  obtain ⟨st, t, henq, hruns, _⟩ := enqOp_emits _ 0 { s with tapCur := resetTap trst srst s } hstart
  exact ⟨{ t with ret := .unit }, exec_of_done hready.unfaulted (by rw [body_cmdReset hready.opened, henq, map_done]),
    Emits_ret _ (Emits_of_tapCur _ hruns.emits), hruns.tapCur, rfl⟩

/-- The append that follows the forced TAP state never writes it, so neither does the append's fault undo it. -/
theorem exec_cmdReset_tapCur {trst srst : Bool} {s t : State} (hc : s.cfg.ok = true) (hopen : s.isOpen = true)
    (hexec : exec (.cmdReset trst srst) s = .next t) : t.tapCur = resetTap trst srst s := by
  have hbody : Lands (fun _ => SameTap { s with tapCur := resetTap trst srst s }) s (body (.cmdReset trst srst) s) := by
    rw [body_cmdReset hopen]
    exact Lands_map (enqOp_kept sameTap_kept _ { s with tapCur := resetTap trst srst s } hc trivial)
  exact (exec_next_of_lands (fun _ _ h => { h with }) hbody hexec).tapCur

/-- Settles O37, by the append after the forced TAP state. -/
theorem cmdResetForcesTheTapState : Obligations.CmdResetForcesTheTapState := by
  unfold Obligations.CmdResetForcesTheTapState
  exact fun trst srst s => ⟨exec_cmdReset_ready, fun hc hopen t => exec_cmdReset_tapCur hc hopen, exec_of_closed rfl⟩

/-! ### CMD_RUNTEST (R131) -/

/-- CMD_RUNTEST with the end state compared to TAP_IDLE, where the TAP is by then. -/
theorem cmdRuntestOp_open {cycles : Nat} {endState : TapState} {s : State} (hc : s.cfg.ok = true) (hopen : s.isOpen = true) :
    cmdRuntestOp cycles endState s =
      (if s.tapCur ≠ tapIdle s.cfg.tap then transitionOp (tapIdle s.cfg.tap) s else .done () s).andThen fun _ t =>
        (clockAll (List.replicate cycles false) t).andThen fun _ u =>
          if endState ≠ tapIdle s.cfg.tap then transitionOp endState u else .done () u := by
  rw [cmdRuntestOp_eq_callAll hc hopen, runtestCalls, List.append_assoc, callAll_append, callAll_transition_if]
  refine andThen_congr fun _ t _ => ?_
  rw [callAll_append, ← List.map_replicate, callAll_clocks]
  exact andThen_congr fun _ u _ => callAll_transition_if _ _ _

/-- A transition made only where its condition holds, and legal there, from a ready state that is in its target otherwise. -/
theorem transition_if_emits {c : Prop} [Decidable c] {target : TapState} {k : Nat} {s : State} (hready : ReadyFor k s)
    (hlegal : c → tapStable s.cfg.tap target = true ∧ (tapPath s.cfg.tap s.tapCur target).count ≤ 8)
    (hthere : ¬ c → s.tapCur = target) :
    ∃ t, (if c then transitionOp target s else .done () s) = .done () t ∧
      Emits (if c then transitionBytes s.cfg s.tapCur target else []) s t ∧ t.tapCur = target ∧ ReadyFor k t := by
  by_cases h : c
  · obtain ⟨hstable, hshort⟩ := hlegal h
    obtain ⟨t, hrun, hemits, htap, _, ht⟩ := transitionOp_emits k target s hready hstable hshort
    exact ⟨t, by rw [if_pos h, hrun], by rwa [if_pos h], htap, ht⟩
  · exact ⟨s, if_neg h, by rw [if_neg h]; exact Emits_refl s, hthere h, hready⟩

/-- Settles O38, by the three parts of a run-test, each run in the ready state the one before it left. -/
theorem runtestPulsesInIdle : Obligations.RuntestPulsesInIdle := by
  unfold Obligations.RuntestPulsesInIdle
  intro cycles endState s hready hidle hend
  obtain ⟨t, hrun1, hemits1, htap1, ht⟩ := transition_if_emits hready hidle not_not.mp
  obtain ⟨u, hrun2, hruns2⟩ := clockAll_emits 0 (List.replicate cycles false) t ht
  have hcfg2 : u.cfg = s.cfg := hruns2.emits.cfg.trans hemits1.cfg
  have htap2 : u.tapCur = tapIdle s.cfg.tap := hruns2.tapCur.trans htap1
  obtain ⟨v, hrun3, hemits3, htap3, _⟩ := transition_if_emits (c := endState ≠ tapIdle s.cfg.tap) (target := endState)
    hruns2.ready (by rwa [hcfg2, htap2]) fun h => htap2.trans (not_not.mp h).symm
  rw [hcfg2, htap2] at hemits3
  have hclocks : Emits (clockBytes s.cfg.pins (List.replicate cycles false)) t u := hemits1.cfg ▸ hruns2.emits
  refine ⟨{ v with ret := .unit }, exec_of_done hready.unfaulted ?_,
    Emits_ret _ (Emits_trans (Emits_trans hemits1 hclocks) hemits3), htap3, rfl⟩
  rw [body, cmdRuntestOp_open hready.params hready.opened, hrun1, andThen_done, hrun2, andThen_done, hrun3, map_done]

/-- Settles O39: from TAP_IDLE the pulses come first, and TRANSITION raises in the state they leave. -/
theorem runtestFaultsAfterItsPulses : Obligations.RuntestFaultsAfterItsPulses := by
  unfold Obligations.RuntestFaultsAfterItsPulses
  intro cycles endState s hready htap hend hstable
  obtain ⟨t, hrun, hruns⟩ := clockAll_emits 0 (List.replicate cycles false) s hready
  have hraise := transitionOp_not_stable (target := endState) hruns.ready.opened (by rwa [hruns.emits.cfg])
  refine ⟨t, exec_of_raised hready.unfaulted ?_, hruns.emits, hruns.tapCur.trans htap⟩
  rw [body, cmdRuntestOp_open hready.params hready.opened, if_neg (not_not.mpr htap), andThen_done, hrun, andThen_done,
    if_pos hend, hraise, map_raised]

/-! ### CMD_STABLECLOCKS (R132) -/

theorem cmdStableclocksOp_stable {cycles : Nat} {s : State} (hopen : s.isOpen = true)
    (hstable : tapStable s.cfg.tap s.tapCur = true) :
    cmdStableclocksOp cycles s = clockAll (List.replicate cycles (decide (s.tapCur = tapReset s.cfg.tap))) s := by
  rw [cmdStableclocksOp, needOpen_open _ _ _ hopen, if_pos hstable]

theorem cmdStableclocksOp_not_stable {cycles : Nat} {s : State} (hopen : s.isOpen = true)
    (hstable : tapStable s.cfg.tap s.tapCur = false) :
    cmdStableclocksOp cycles s = .raised { s with fault := some ⟨.notStable s.tapCur, .cmdStableclocks⟩ } := by
  rw [cmdStableclocksOp, needOpen_open _ _ _ hopen, if_neg (by rw [hstable]; exact Bool.false_ne_true), raise_eq]

/-- Settles O40, by the state CMD_STABLECLOCKS finds the TAP in. -/
theorem stableclocksHoldTheState : Obligations.StableclocksHoldTheState := by
  unfold Obligations.StableclocksHoldTheState
  refine fun cycles s => ⟨fun hready hstable => ?stable, fun hfault hopen hstable => ?notStable, exec_of_closed rfl⟩
  case stable =>
    obtain ⟨t, hrun, hruns⟩ := clockAll_emits 0 _ s hready
    exact ⟨{ t with ret := .unit },
      exec_of_done hready.unfaulted (by rw [body, cmdStableclocksOp_stable hready.opened hstable, hrun, map_done]),
      Emits_ret _ hruns.emits, hruns.tapCur, rfl⟩
  case notStable =>
    exact exec_of_raised hfault (by rw [body, cmdStableclocksOp_not_stable hopen hstable, map_raised])

/-! ### CMD_TMS (R135) -/

theorem length_tmsBits (nbits : Nat) (bits : List Byte) : (tmsBits nbits bits).length = nbits := by
  rw [tmsBits, List.length_map, List.length_range]

/-- Bit i of the array is bit i mod 8 of byte i div 8 (R65). -/
theorem getElem?_tmsBits {nbits i : Nat} {bits : List Byte} {b : Byte} (hi : i < nbits) (hb : bits[i / 8]? = some b) :
    (tmsBits nbits bits)[i]? = some (b.getLsbD (i % 8)) := by
  rw [tmsBits, List.getElem?_map, List.getElem?_range hi, Option.map_some, List.getD_eq_getElem?_getD, hb, Option.getD_some]

/-- Settles O44, by the pulses of the array's bits and the commit after them. -/
theorem tmsClocksTheArray : Obligations.TmsClocksTheArray := by
  unfold Obligations.TmsClocksTheArray
  intro nbits bits s hready _
  obtain ⟨t, hrun, hruns⟩ := clockAll_emits 0 (tmsBits nbits bits) s hready
  refine ⟨{ t with tapCur := t.tapEnd, ret := .unit }, tmsBits nbits bits, ?_, length_tmsBits _ _,
    fun _ _ => getElem?_tmsBits, Emits_ret _ (Emits_tapCur t.tapEnd hruns.emits), hruns.emits.tapEnd, rfl⟩
  exact exec_of_done (u := { t with tapCur := t.tapEnd }) hready.unfaulted
    (by rw [body, cmdTmsOp, needOpen_open _ _ _ hready.opened, hrun, andThen_done, map_done])

/-! ### CMD_PATHMOVE (R133) -/

/-- The steps along a path of successors, from a ready session: one pulse each, and the commit of the last. -/
theorem pathSteps_emits {path : List TapState} {bits : List Bool} {s : State} (hready : Ready s)
    (hpath : pathTms s.cfg.tap s.tapCur path = some bits) :
    ∃ t, pathSteps 0 path s = .done () t ∧ Emits (clockBytes s.cfg.pins bits) s t ∧
      t.tapCur = path.getLastD s.tapCur ∧ Ready t := by
  obtain ⟨u, hclocks, hruns⟩ := clockAll_emits 0 bits s hready
  exact ⟨{ u with tapCur := path.getLastD s.tapCur }, pathSteps_of_clockAll 0 hready.params hpath hclocks,
    Emits_tapCur _ hruns.emits, rfl, ReadyFor_tapCur _ hruns.ready⟩

/-- Settles O42, by the steps and then the idle byte. -/
theorem pathmoveFollowsThePath : Obligations.PathmoveFollowsThePath := by
  unfold Obligations.PathmoveFollowsThePath
  intro path bits s hready hpath
  obtain ⟨t, hsteps, hemits, htap, ht⟩ := pathSteps_emits hready hpath
  obtain ⟨st, u, hidle, hruns, _⟩ := idleOp_emits 0 t ht
  have hidleByte : Emits [idleByte s.cfg.pins] t u := hemits.cfg ▸ hruns.emits
  refine ⟨{ u with ret := .unit }, exec_of_done hready.unfaulted ?_, Emits_ret _ (Emits_trans hemits hidleByte),
    hruns.tapCur.trans htap, rfl⟩
  rw [body, cmdPathmoveOp_open hready.opened, hsteps, andThen_done, callAll_idle, hidle, map_done, map_done]

theorem pathTms_no_successor {t : TapService} {cur bad : TapState} (hzero : tapSucc t cur false ≠ bad)
    (hone : tapSucc t cur true ≠ bad) : pathTms t cur [bad] = none := by
  rw [pathTms, if_neg hzero, if_neg hone]

/-- Settles O43: the steps before the bad one have run and committed, and it raises in the state they leave. -/
theorem invalidPathStepKeepsEarlierSteps : Obligations.InvalidPathStepKeepsEarlierSteps := by
  unfold Obligations.InvalidPathStepKeepsEarlierSteps
  intro before after bad bits s hready hpath hzero hone
  obtain ⟨t, hsteps, hemits, htap, _⟩ := pathSteps_emits hready hpath
  have hstep : pathTms t.cfg.tap t.tapCur [bad] = none := by
    rw [hemits.cfg, htap]
    exact pathTms_no_successor hzero hone
  refine ⟨t, exec_of_raised hready.unfaulted ?_, hemits, htap⟩
  rw [body, cmdPathmoveOp_open hready.opened, pathSteps_append, hsteps, andThen_done, pathSteps_no_successor hstep,
    andThen_raised, map_raised, htap, Nat.zero_add]

end Sys2Proof.Proofs
end

section
/-! PROOF. CMD_SLEEP and ADP_DELAY (O45; R136, R153). -/

namespace Sys2Proof.Proofs

open Sys2Proof Sys2Proof.Machine Sys2Proof.Safety Sys2Proof.Laws

/-- ADP_DELAY is CMD_SLEEP (R153). -/
theorem body_sleep {i : Instr} {us : Nat} (h : i = .cmdSleep us ∨ i = .adpDelay us) (s : State) :
    body i s = (sleepOp us s).map fun _ => .unit := by
  rcases h with rfl | rfl <;> rfl

theorem sleepOp_open {us : Nat} {s : State} (hopen : s.isOpen = true) :
    sleepOp us s = (flushOp s).andThen fun _ t => .done () { t with events := t.events ++ [.delay us] } :=
  needOpen_open _ _ _ hopen

theorem map_raised_iff {α β : Type} {g : α → β} {r : Res α} {u : State} : r.map g = .raised u ↔ r = .raised u := by
  cases r <;> simp

/-- The next state of a FLUSH is the one it returned in, with its status in `ret`, or the one it raised in. -/
theorem exec_flush_next {s u : State} (hexec : exec .flush s = .next u) :
    s.fault = none ∧ ((∃ st t, flushOp s = .done st t ∧ u = { t with ret := .status st }) ∨ flushOp s = .raised u) := by
  rw [exec_eq_perform] at hexec
  obtain ⟨hfault, ⟨v, t, hdone, rfl⟩ | hraised⟩ := perform_next _ _ _ hexec
  · obtain ⟨st, t', hflush, hvalue⟩ := andThen_done_iff.mp hdone
    cases hvalue
    exact ⟨hfault, .inl ⟨st, t, hflush, rfl⟩⟩
  · exact ⟨hfault, .inr (map_raised_iff.mp hraised)⟩

section

variable {i : Instr} {us : Nat} {s : State} (hi : i = .cmdSleep us ∨ i = .adpDelay us) (hopen : s.isOpen = true)
include hi hopen

theorem body_sleep_done {st : Status} {t : State} (hflush : flushOp s = .done st t) :
    body i s = .done .unit { t with events := t.events ++ [.delay us] } := by
  rw [body_sleep hi, sleepOp_open hopen, hflush, andThen_done, map_done]

theorem body_sleep_raised {t : State} (hflush : flushOp s = .raised t) : body i s = .raised t := by
  rw [body_sleep hi, sleepOp_open hopen, hflush, andThen_raised, map_raised]

/-- The mark of the FLUSH's next state tells whether it returned, with whatever status, or raised (R25). -/
theorem exec_sleep_of_flush {u : State} (hexec : exec .flush s = .next u) :
    (u.fault = none → exec i s = .next { u with events := u.events ++ [.delay us], ret := .unit }) ∧
      (u.fault ≠ none → exec i s = .next u) := by
  obtain ⟨hfault, ⟨st, t, hflush, rfl⟩ | hflush⟩ := exec_flush_next hexec
  · exact ⟨fun _ => exec_of_done hfault (body_sleep_done hi hopen hflush),
      fun hmark => absurd ((flushOp_done_fault hflush).trans hfault) hmark⟩
  · exact ⟨fun hnone => absurd hnone (flushOp_raised_fault hflush),
      fun _ => exec_of_raised hfault (body_sleep_raised hi hopen hflush)⟩

end

/-- Settles O45, by the ends of the flush. -/
theorem sleepFlushesThenDelays : Obligations.SleepFlushesThenDelays := by
  unfold Obligations.SleepFlushesThenDelays
  refine ⟨⟨rfl, rfl⟩, fun us i s hi =>
    ⟨fun hopen u => exec_sleep_of_flush hi hopen, fun hready => ?ready, fun hfault hclosed => ?closed⟩⟩
  case ready =>
    obtain ⟨st, t, hflush, _, ht, htx⟩ := flushOp_ready 0 s hready
    exact ⟨_, exec_of_done hready.unfaulted (body_sleep_done hi hready.opened hflush), ht.unfaulted, htx,
      List.getLast?_concat⟩
  case closed =>
    have hop : sessionOp i = some .cmdSleep := by rcases hi with rfl | rfl <;> rfl
    exact exec_of_closed hop hfault hclosed

end Sys2Proof.Proofs
end

section
/-! PROOF. CMD_SCAN runs the ScanLayer's adapter operations as instructions (O47; R137), and a drawn scan is a listed one. -/

namespace Sys2Proof.Proofs

open Sys2Proof Sys2Proof.Machine Sys2Proof.Safety Sys2Proof.Laws

/-! ### What no adapter operation reads -/

/-- The change of what the ScanLayer and the Host were returned. -/
def reporting (results : List OpResult) (v : OpResult) : Overlay where
  events := []
  out := []
  inn := []
  calls := []
  qi := none
  ret := some v
  returns := some results
  tap := none

theorem overlaid_reporting (results : List OpResult) (v : OpResult) (s : State) :
    overlaid (reporting results v) s = { s with scanReturns := results, ret := v } := rfl

theorem returnsOf_of_raise {i : Instr} {rest : List Instr} {s t : State} (hexec : exec i s = .next t)
    (hfault : t.fault ≠ none) : returnsOf (i :: rest) s = [] := by
  simp only [returnsOf, hexec, if_neg hfault]

/-! ### The run of a ScanLayer's operations -/

/-- A ScanLayer's operations leave what they leave as instructions, but that the results go to the ScanLayer and `ret` keeps
the value of an earlier call. -/
theorem runAdapter_of_runInstrs {ops : List AdpOp} {results : List OpResult} {v : OpResult} {s u : State}
    (hfault : s.fault = none) (hrun : runInstrs (ops.map adpInstr) s = .next u) :
    runAdapter ops { s with scanReturns := results, ret := v } =
      leaves v { u with scanReturns := results ++ returnsOf (ops.map adpInstr) s } := by
  induction ops generalizing results s with
  | nil =>
    cases hrun
    rw [List.map_nil, returnsOf, List.append_nil]
    exact (leaves_of_unfaulted v (u := { u with scanReturns := results }) hfault).symm
  | cons op ops ih =>
    rw [List.map_cons] at hrun ⊢
    rw [runAdapter, ← overlaid_reporting, adpOp_overlaid, adpOp_eq_body]
    have hmark := adpOp_marks op s
    rw [adpOp_eq_body] at hmark
    cases hbody : body (adpInstr op) s with
    | stuck f =>
      rw [runInstrs_of_fault (exec_of_stuck hfault hbody)] at hrun
      cases hrun
    | raised t =>
      rw [hbody] at hmark
      have hexec := exec_of_raised hfault hbody
      rw [runInstrs_of_raise hexec hmark] at hrun
      cases hrun
      rw [returnsOf_of_raise hexec hmark, List.append_nil]
      exact (leaves_of_faulted v (u := { u with scanReturns := results }) hmark).symm
    | done w t =>
      have ht : t.fault = none := by rw [hbody] at hmark; exact Eq.trans hmark hfault
      have hexec := exec_of_done hfault hbody
      rw [runInstrs_of_next hexec ht] at hrun
      have htail := ih (results := results ++ [w]) (s := { t with ret := w }) ht hrun
      rw [returnsOf_of_next hexec ht, List.append_cons]
      exact htail

/-! ### The ScanLayer's next scan -/

theorem nextScan_returns {payload : List Byte} {run : ScanRun} {rest : List ScanReply} {s : State}
    (hscans : s.ext.scans = .returns run :: rest) :
    nextScan payload s = some (run, { s with ext := { s.ext with scans := rest } }) := by
  rw [nextScan, hscans]

theorem nextScan_hangs {payload : List Byte} {rest : List ScanReply} {s : State} (hscans : s.ext.scans = .hangs :: rest) :
    nextScan payload s = none := by
  rw [nextScan, hscans]

/-- The state with the scan that would be drawn in it listed, and the draw made (log 6). -/
def drawnListed (payload : List Byte) (s : State) : State :=
  { s with ext := { s.ext with scans := [Config.scanReply payload s.ext.drawn], drawn := s.ext.drawn + 1 } }

/-- A drawn scan is the next one where it is listed. -/
theorem nextScan_drawn {payload : List Byte} {s : State} (hscans : s.ext.scans = []) :
    nextScan payload s = nextScan payload (drawnListed payload s) := by
  cases hreply : Config.scanReply payload s.ext.drawn with
  | hangs =>
    rw [nextScan_hangs (s := drawnListed payload s) (rest := []) (by rw [drawnListed, hreply]), nextScan, hscans]
    simp only [hreply]
  | returns run =>
    rw [nextScan_returns (s := drawnListed payload s) (run := run) (rest := []) (by rw [drawnListed, hreply]), nextScan,
      hscans]
    simp only [hreply, drawnListed, ← hscans]

/-! ### CMD_SCAN -/

section

variable {payload : List Byte} {s : State} (hopen : s.isOpen = true)
include hopen

theorem cmdScanOp_hangs (hnext : nextScan payload s = none) : cmdScanOp payload s = .stuck .scanStuck := by
  rw [cmdScanOp, needOpen_open _ _ _ hopen, hnext]

theorem cmdScanOp_returns {run : ScanRun} {t : State} (hnext : nextScan payload s = some (run, t)) :
    cmdScanOp payload s =
      (runAdapter run.ops { t with scanReturns := [] }).andThen fun _ u =>
        .done () { u with tapCur := u.cfg.tap.norm run.leaves } := by
  rw [cmdScanOp, needOpen_open _ _ _ hopen, hnext]

/-- CMD_SCAN asks the state for its next scan alone. -/
theorem cmdScanOp_congr {t : State} (htopen : t.isOpen = true) (hnext : nextScan payload s = nextScan payload t) :
    cmdScanOp payload s = cmdScanOp payload t := by
  cases h : nextScan payload t with
  | none => rw [cmdScanOp_hangs hopen (hnext.trans h), cmdScanOp_hangs htopen h]
  | some scan => rw [cmdScanOp_returns hopen (hnext.trans h), cmdScanOp_returns htopen h]

end

/-- The TapService is a parameter, which no adapter operation writes. -/
theorem runAdapter_leaves_cfg {ops : List AdpOp} {s u : State} {v : OpResult} {results : List OpResult}
    (hc : s.cfg.ok = true) (h : runAdapter ops s = leaves v { u with scanReturns := results }) : u.cfg = s.cfg := by
  have hlands := runAdapter_kept framed_keptAll.toKeptScan ops s hc
  rw [h, leaves] at hlands
  split at hlands
  · exact hlands.cfg
  · exact hlands.1.cfg

theorem exec_congr {i : Instr} {s t : State} (hs : s.fault = none) (ht : t.fault = none) (h : body i s = body i t) :
    exec i s = exec i t := by
  cases hbody : body i t with
  | done v u => rw [exec_of_done hs (h.trans hbody), exec_of_done ht hbody]
  | raised u => rw [exec_of_raised hs (h.trans hbody), exec_of_raised ht hbody]
  | stuck f => rw [exec_of_stuck hs (h.trans hbody), exec_of_stuck ht hbody]

theorem exec_cmdScan_drawn {payload : List Byte} {s : State} (hfault : s.fault = none) (hopen : s.isOpen = true)
    (hscans : s.ext.scans = []) : exec (.cmdScan payload) s = exec (.cmdScan payload) (drawnListed payload s) :=
  exec_congr (t := drawnListed payload s) hfault hfault
    (by rw [body, body, cmdScanOp_congr (t := drawnListed payload s) hopen hopen (nextScan_drawn hscans)])

/-- Where the operations of a listed scan begin: no result is in yet, and the scan is taken off the list. -/
def scanBegun (rest : List ScanReply) (s : State) : State :=
  { s with scanReturns := [], ext := { s.ext with scans := rest } }

theorem cmdScanOp_listed {payload : List Byte} {run : ScanRun} {rest : List ScanReply} {s : State} (hopen : s.isOpen = true)
    (hscans : s.ext.scans = .returns run :: rest) :
    cmdScanOp payload s =
      (runAdapter run.ops (scanBegun rest s)).andThen fun _ u =>
        .done () { u with tapCur := u.cfg.tap.norm run.leaves } :=
  cmdScanOp_returns hopen (nextScan_returns hscans)

/-- The end of a listed scan, from what its operations leave as instructions. -/
theorem exec_cmdScan_of_runInstrs {payload : List Byte} {run : ScanRun} {rest : List ScanReply} {s u : State}
    (hc : s.cfg.ok = true) (hfault : s.fault = none) (hopen : s.isOpen = true)
    (hscans : s.ext.scans = .returns run :: rest)
    (hrun : runInstrs (run.ops.map adpInstr) (scanBegun rest s) = .next u) :
    exec (.cmdScan payload) s =
      .next (finish s { u with scanReturns := returnsOf (run.ops.map adpInstr) (scanBegun rest s) } fun v =>
        { v with tapCur := s.cfg.tap.norm run.leaves }) := by
  have hadapter : runAdapter run.ops (scanBegun rest s) =
      leaves s.ret { u with scanReturns := returnsOf (run.ops.map adpInstr) (scanBegun rest s) } :=
    runAdapter_of_runInstrs (results := []) (v := s.ret) (s := scanBegun rest s) hfault hrun
  have hcfg : u.cfg = s.cfg := runAdapter_leaves_cfg (s := scanBegun rest s) hc hadapter
  refine exec_of_leaves hfault (fun _ _ => rfl) ?_
  rw [body, cmdScanOp_listed hopen hscans, hadapter, Res.map, andThen_assoc]
  unfold leaves
  split
  · simp only [andThen_done, hcfg]
  · rfl

/-- Settles O47: a listed scan by the run of its operations, a drawn one by the scan it lists. -/
theorem scanRunsTheAdapterOperations : Obligations.ScanRunsTheAdapterOperations := by
  unfold Obligations.ScanRunsTheAdapterOperations
  refine ⟨fun payload run rest s u hc hfault hopen hscans hrun => ?_, fun payload s => exec_cmdScan_drawn⟩
  have hexec := exec_cmdScan_of_runInstrs (payload := payload) hc hfault hopen hscans hrun
  exact ⟨fun hu => hexec.trans (congrArg Host.Outcome.next (if_pos hu)),
    fun hu => hexec.trans (congrArg Host.Outcome.next (if_neg hu))⟩

end Sys2Proof.Proofs
end

section
/-! PROOF. The end of CMD_SCAN (O48; R137): an adapter operation can fail to return only for a Device that hangs, and can
fault only for want of room in `rx`. -/

namespace Sys2Proof.Proofs

open Sys2Proof Sys2Proof.Machine Sys2Proof.Safety Sys2Proof.Laws

/-! ### Room for samples -/

/-- A session whose operations return but where the receive buffer overflows: `ReadyFor` without its room. -/
structure Answering (s : State) : Prop where
  params : s.cfg.ok = true
  unfaulted : s.fault = none
  opened : s.isOpen = true
  answering : DevReply.hangs ∉ s.ext.replies

/-- An update that leaves the parameters, the mark and the session as they were, and adds no reply of the Device. -/
theorem Answering.keeps {s t : State} (h : Answering s) (hcfg : t.cfg = s.cfg := by rfl)
    (hfault : t.fault = s.fault := by rfl) (hopen : t.isOpen = s.isOpen := by rfl)
    (hreplies : t.ext.replies <:+ s.ext.replies := by exact List.suffix_refl _) : Answering t where
  params := hcfg ▸ h.params
  unfaulted := hfault.trans h.unfaulted
  opened := hopen.trans h.opened
  answering hhangs := h.answering (hreplies.subset hhangs)

/-- The room in `rx` that the samples held and requested so far take. -/
def claimed (s : State) : Nat := s.rx.length + sampleCount s.cfg.pins s.tx

theorem readyFor_iff {k : Nat} {s : State} : ReadyFor k s ↔ Answering s ∧ claimed s + k ≤ s.cfg.rxCap :=
  ⟨fun h => ⟨⟨h.params, h.unfaulted, h.opened, h.answering⟩, h.room⟩,
    fun ⟨h, hroom⟩ => ⟨h.params, h.unfaulted, h.opened, h.answering, hroom⟩⟩

/-- The parameters and the listed scans are as they were. -/
structure SameScans (s t : State) : Prop where
  cfg : t.cfg = s.cfg := by rfl
  scans : t.ext.scans = s.ext.scans := by rfl

theorem SameScans.trans {s t u : State} (h : SameScans s t) (h' : SameScans t u) : SameScans s u where
  cfg := h'.cfg.trans h.cfg
  scans := h'.scans.trans h.scans

/-- The end of an operation that claims room for at most `n` more samples: it returns in a session that still answers, or
the receive buffer overflowed, for which there was too little room. -/
def EndsWithin {α : Type} (n : Nat) (s : State) : Res α → Prop
  | .done _ t => Answering t ∧ SameScans s t ∧ claimed t ≤ claimed s + n
  | .raised t => t.fault = some ⟨.rxOverflow, .flush⟩ ∧ SameScans s t ∧ s.cfg.rxCap < claimed s + n
  | .stuck _ => False

theorem EndsWithin.andThen {α β : Type} {m n : Nat} {s : State} {r : Res α} {f : α → State → Res β}
    (h : EndsWithin m s r) (hf : ∀ a t, t.cfg = s.cfg → Answering t → EndsWithin n t (f a t)) :
    EndsWithin (m + n) s (r.andThen f) := by
  cases r with
  | done a t =>
    obtain ⟨ht, hst, hclaim⟩ := h
    have hnext := hf a t hst.cfg ht
    rw [andThen_done]
    cases hr : f a t with
    | done b u =>
      rw [hr] at hnext
      obtain ⟨hu, htu, hclaim'⟩ := hnext
      exact ⟨hu, hst.trans htu, by omega⟩
    | raised u =>
      rw [hr] at hnext
      obtain ⟨hmark, htu, hfull⟩ := hnext
      rw [hst.cfg] at hfull
      exact ⟨hmark, hst.trans htu, by omega⟩
    | stuck f => rw [hr] at hnext; exact hnext
  | raised t =>
    obtain ⟨hmark, hst, hfull⟩ := h
    exact ⟨hmark, hst, by omega⟩
  | stuck f => exact h

theorem EndsWithin.map {α β : Type} {n : Nat} {s : State} {r : Res α} (g : α → β) (h : EndsWithin n s r) :
    EndsWithin n s (r.map g) := by
  cases r <;> exact h

/-! ### The adapter operations -/

theorem flushOp_endsWithin {s : State} (h : Answering s) : EndsWithin 0 s (flushOp s) := by
  have hend := flushOp_end s h.opened (ok_frame h.params)
  generalize flushOp s = r at hend
  cases hend with
  | ok data e hlen he =>
    have hkept := retained_length s.cfg s.tx data hlen
    refine ⟨h.keeps (hreplies := he.replies), { scans := he.scans }, ?_⟩
    simp only [claimed, List.length_append, sampleCount_nil]
    omega
  | failed wrote data w r e hneg hp he =>
    refine ⟨h.keeps (hreplies := he.replies), { scans := he.scans }, ?_⟩
    simp only [claimed, List.length_nil, sampleCount_nil]
    omega
  | overflow wrote data kept f e hp hlen hk hfull hmore he => exact ⟨rfl, { scans := he.scans }, hmore⟩
  | stuck hh => exact h.answering hh

/-- An append claims room for the sample its byte requests, if it does. -/
theorem enqOp_endsWithin (b : Byte) {s : State} (h : Answering s) :
    EndsWithin (sampleCount s.cfg.pins [b]) s (enqOp b s) := by
  have happend : ∀ t : State, t.cfg = s.cfg → Answering t →
      EndsWithin (sampleCount s.cfg.pins [b]) t (.done Status.ok { t with tx := t.tx ++ [b] }) := fun t hcfg ht =>
    ⟨ht.keeps, {}, by simp only [claimed, sampleCount_append, hcfg]; omega⟩
  by_cases hfull : s.tx.length = s.cfg.txCap
  · cases hpolicy : s.cfg.policy with
    | dropAndLog =>
      rw [enqOp_full_drop h.opened hfull hpolicy]
      exact ⟨h.keeps, {}, Nat.le_add_right _ _⟩
    | flushOnFull =>
      rw [enqOp, needOpen_open _ _ _ h.opened, if_pos hfull, hpolicy, ← Nat.zero_add (sampleCount _ _)]
      exact (flushOp_endsWithin h).andThen fun _ t => happend t
  · rw [enqOp_room h.opened hfull]
    exact happend s rfl h

theorem scanSamples_append (ops ops' : List AdpOp) : scanSamples (ops ++ ops') = scanSamples ops + scanSamples ops' := by
  rw [scanSamples, List.filter_append, List.length_append]
  rfl

/-- An emitted byte requests a sample where its operation does (R151). -/
theorem sampleCount_emitted {c : Params} (hc : c.ok = true) (tck tms tdi sreq : Bool) :
    sampleCount c.pins [pinByte c.pins tck tms tdi sreq] = scanSamples [.emit tck tms tdi sreq] := by
  rw [sampleCount_cons, pinByte_sreq (ok_pins hc), sampleCount_nil]
  cases sreq <;> rfl

theorem sleepOp_endsWithin (us : Nat) {s : State} (h : Answering s) : EndsWithin 0 s (sleepOp us s) := by
  rw [sleepOp_open h.opened]
  exact (flushOp_endsWithin h).andThen (n := 0) fun _ t _ ht => ⟨ht.keeps, {}, Nat.le_refl _⟩

theorem rxReadOp_endsWithin {s : State} (h : Answering s) : EndsWithin 0 s (rxReadOp s) := by
  cases hrx : s.rx with
  | nil =>
    rw [rxReadOp_empty h.opened hrx]
    exact ⟨h, {}, Nat.le_refl _⟩
  | cons v rest =>
    rw [rxReadOp_cons h.opened hrx]
    exact ⟨h.keeps, {}, by simp only [claimed, hrx, List.length_cons]; omega⟩

theorem adpOp_endsWithin (op : AdpOp) {s : State} (h : Answering s) : EndsWithin (scanSamples [op]) s (adpOp op s) := by
  cases op with
  | emit tck tms tdi sreq =>
    rw [adpOp, adpEmitOp, needOpen_open _ _ _ h.opened, ← sampleCount_emitted h.params]
    exact (enqOp_endsWithin _ h).map _
  | flush => exact (flushOp_endsWithin h).map _
  | delay us => exact (sleepOp_endsWithin us h).map _
  | assertReset lineA lineB =>
    have henq := enqOp_endsWithin (resetByte s.cfg.pins lineA lineB) h
    rw [sampleCount_resetByte h.params] at henq
    rw [adpOp, adpAssertResetOp, needOpen_open _ _ _ h.opened]
    exact henq.map _
  | avail =>
    rw [adpOp, availOp, needOpen_open _ _ _ h.opened]
    exact ⟨h, {}, Nat.le_refl _⟩
  | read => exact (rxReadOp_endsWithin h).map _

/-! ### The run of a ScanLayer's operations -/

/-- The results go to the ScanLayer, which no claim and no answer of the Device depends on. -/
theorem EndsWithin.reported {α : Type} {n : Nat} {s : State} {r : Res α} {results : List OpResult}
    (h : EndsWithin n { s with scanReturns := results } r) : EndsWithin n s r := by
  cases r with
  | done a t =>
    obtain ⟨ht, ⟨hcfg, hscans⟩, hclaim⟩ := h
    exact ⟨ht, ⟨hcfg, hscans⟩, hclaim⟩
  | raised t =>
    obtain ⟨hmark, ⟨hcfg, hscans⟩, hfull⟩ := h
    exact ⟨hmark, ⟨hcfg, hscans⟩, hfull⟩
  | stuck f => exact h

theorem runAdapter_endsWithin (ops : List AdpOp) {s : State} (h : Answering s) :
    EndsWithin (scanSamples ops) s (runAdapter ops s) := by
  induction ops generalizing s with
  | nil => exact ⟨h, {}, Nat.le_refl _⟩
  | cons op ops ih =>
    rw [show op :: ops = [op] ++ ops from rfl, scanSamples_append]
    exact (adpOp_endsWithin op h).andThen fun v t _ ht =>
      (ih (s := { t with scanReturns := t.scanReturns ++ [v] }) ht.keeps).reported

/-- No adapter operation writes the results of those before it. -/
theorem adpOp_done_scanReturns {op : AdpOp} {s t : State} {v : OpResult} (h : adpOp op s = .done v t) :
    t.scanReturns = s.scanReturns := by
  have hsame : adpOp op s = mapEnd (overlaid (reporting s.scanReturns s.ret)) (adpOp op s) :=
    adpOp_overlaid (reporting s.scanReturns s.ret) op s
  rw [h] at hsame
  injection hsame with _ ht
  rw [ht, overlaid_reporting]

theorem runAdapter_done_length {ops : List AdpOp} {s t : State} (h : runAdapter ops s = .done () t) :
    t.scanReturns.length = s.scanReturns.length + ops.length := by
  induction ops generalizing s with
  | nil => cases h; rfl
  | cons op ops ih =>
    obtain ⟨v, u, hop, hrest⟩ := andThen_done_iff.mp h
    rw [ih hrest, List.length_append, adpOp_done_scanReturns hop, List.length_singleton, List.length_cons]
    omega

/-! ### CMD_SCAN -/

/-- The registers a scan leaves as they were, and the scans still listed after it. -/
structure ScanFrame (rest : List ScanReply) (s t : State) : Prop where
  framed : Framed s t
  scans : t.ext.scans = rest

/-- The end of a scan that returns (R137): the TAP state the ScanLayer leaves, and a result for each operation. -/
structure ScanReturned (run : ScanRun) (s t : State) : Prop where
  unfaulted : t.fault = none
  tapCur : t.tapCur = s.cfg.tap.norm run.leaves
  results : t.scanReturns.length = run.ops.length
  ret : t.ret = .unit

theorem exec_cmdScan_frame {payload : List Byte} {rest : List ScanReply} {s t u : State} (hc : s.cfg.ok = true)
    (hexec : exec (.cmdScan payload) s = .next t) (hsame : SameScans (scanBegun rest s) u) (hext : t.ext = u.ext) :
    ScanFrame rest s t where
  framed := exec_framed (i := .cmdScan payload) hc (Option.some_ne_none _) hexec
  scans := (congrArg Outside.scans hext).trans hsame.scans

section

variable {payload : List Byte} {run : ScanRun} {rest : List ScanReply} {s u : State} (h : Answering s)
  (hscans : s.ext.scans = .returns run :: rest)
include h hscans

theorem exec_cmdScan_done (hrun : runAdapter run.ops (scanBegun rest s) = .done () u) (hu : Answering u)
    (hsame : SameScans (scanBegun rest s) u) :
    ∃ t, exec (.cmdScan payload) s = .next t ∧ ScanFrame rest s t ∧ ScanReturned run s t := by
  have hexec : exec (.cmdScan payload) s = .next { u with tapCur := u.cfg.tap.norm run.leaves, ret := .unit } :=
    exec_of_done (u := { u with tapCur := u.cfg.tap.norm run.leaves }) h.unfaulted
      (by rw [body, cmdScanOp_listed h.opened hscans, hrun, andThen_done, map_done])
  have hlength := runAdapter_done_length hrun
  rw [scanBegun, List.length_nil, Nat.zero_add] at hlength
  refine ⟨_, hexec, exec_cmdScan_frame h.params hexec hsame rfl, hu.unfaulted, ?_, hlength, rfl⟩
  exact congrArg (fun c : Params => c.tap.norm run.leaves) hsame.cfg

theorem exec_cmdScan_raised (hrun : runAdapter run.ops (scanBegun rest s) = .raised u)
    (hsame : SameScans (scanBegun rest s) u) : exec (.cmdScan payload) s = .next u ∧ ScanFrame rest s u := by
  have hexec : exec (.cmdScan payload) s = .next u :=
    exec_of_raised h.unfaulted (by rw [body, cmdScanOp_listed h.opened hscans, hrun, andThen_raised, map_raised])
  exact ⟨hexec, exec_cmdScan_frame h.params hexec hsame rfl⟩

/-- A listed scan that returns either runs to its end or overflows the receive buffer, for which there was too little
room. -/
theorem exec_cmdScan_listed :
    ∃ t, exec (.cmdScan payload) s = .next t ∧ ScanFrame rest s t ∧
      (ScanReturned run s t ∨
        t.fault = some ⟨.rxOverflow, .flush⟩ ∧ s.cfg.rxCap < claimed s + scanSamples run.ops) := by
  have hend := runAdapter_endsWithin run.ops (s := scanBegun rest s) h.keeps
  cases hrun : runAdapter run.ops (scanBegun rest s) with
  | done a u =>
    rw [hrun] at hend
    obtain ⟨hu, hsame, _⟩ := hend
    obtain ⟨t, hexec, hframe, hreturned⟩ := exec_cmdScan_done h hscans hrun hu hsame
    exact ⟨t, hexec, hframe, .inl hreturned⟩
  | raised u =>
    rw [hrun] at hend
    obtain ⟨hmark, hsame, hfull⟩ := hend
    obtain ⟨hexec, hframe⟩ := exec_cmdScan_raised h hscans hrun hsame
    exact ⟨u, hexec, hframe, .inr ⟨hmark, hfull⟩⟩
  | stuck f =>
    rw [hrun] at hend
    exact hend.elim

end

theorem exec_cmdScan_hangs {payload : List Byte} {rest : List ScanReply} {s : State} (hfault : s.fault = none)
    (hopen : s.isOpen = true) (hscans : s.ext.scans = .hangs :: rest) : exec (.cmdScan payload) s = .fault .scanStuck :=
  exec_of_stuck hfault (by rw [body, cmdScanOp_hangs hopen (nextScan_hangs hscans), map_stuck])

/-- Settles O48: room in `rx` leaves a listed scan its one end, and a drawn scan is the listed one that `drawnListed`
gives. -/
theorem scanRunsToTheEnd : Obligations.ScanRunsToTheEnd := by
  unfold Obligations.ScanRunsToTheEnd
  refine ⟨fun payload run rest s hscans hready => ?returns, fun _ _ _ => exec_cmdScan_hangs,
    fun payload s hscans hready => ?drawn⟩
  case returns =>
    obtain ⟨h, hroom⟩ := readyFor_iff.mp hready
    obtain ⟨t, hexec, ⟨hframe, hrest⟩, hreturned | ⟨_, hfull⟩⟩ := exec_cmdScan_listed (payload := payload) h hscans
    · exact ⟨t, hexec, hreturned.unfaulted, hreturned.tapCur, hreturned.results, hframe.cfg,
        hframe.isOpen.trans h.opened, hframe.speedKhz, hframe.latency, hframe.tapEnd, hframe.devCalls, hrest,
        hreturned.ret⟩
    · exact absurd hroom (Nat.not_le.mpr hfull)
  case drawn =>
    obtain ⟨h, _⟩ := readyFor_iff.mp hready
    have hdrawn : Answering (drawnListed payload s) := h.keeps
    rw [exec_cmdScan_drawn h.unfaulted h.opened hscans]
    cases hreply : Config.scanReply payload s.ext.drawn with
    | hangs => exact .inl (exec_cmdScan_hangs (rest := []) h.unfaulted h.opened (by rw [drawnListed, hreply]))
    | returns run =>
      obtain ⟨t, hexec, ⟨hframe, hrest⟩, hend⟩ :=
        exec_cmdScan_listed (payload := payload) (run := run) (rest := []) hdrawn (by rw [drawnListed, hreply])
      exact .inr ⟨t, hexec, hframe.cfg, hframe.isOpen.trans h.opened, hframe.speedKhz, hframe.latency, hframe.tapEnd,
        hframe.devCalls, hrest, hend.imp (fun hr => ⟨hr.unfaulted, hr.ret⟩) And.left⟩

end Sys2Proof.Proofs
end

section
/-! PROOF. OPEN, by the Device's results: all that it can end in (O50; R162, R201, R202), and where each listed result
leads (O49; R188). -/

namespace Sys2Proof.Proofs

open Sys2Proof Sys2Proof.Machine Sys2Proof.Safety Sys2Proof.Laws

/-! ### The configuration primitives (R161) -/

/-- The state after a call of a primitive: the call is recorded, and the agents outside have `ext` pending. -/
def called (call : DevCall) (ext : Outside) (s : State) : State :=
  { s with devCalls := s.devCalls ++ [call], ext := ext }

theorem primitive_called (call : DevCall) (s : State) :
    ∃ result ext, primitive call s = (result, called call ext s) := by
  unfold primitive
  split <;> exact ⟨_, _, rfl⟩

theorem primitive_listed {result : Bool} {rest : List Bool} {s : State} (h : s.ext.primitives = result :: rest)
    (call : DevCall) : primitive call s = (result, called call { s.ext with primitives := rest } s) := by
  rw [primitive, h]
  rfl

/-! ### The steps of OPEN (R162) -/

/-- The session `s` while OPEN runs: its buffers are empty, `calls` are made, and nothing else is written. -/
def opening (s : State) (calls : List DevCall) (ext : Outside) : State :=
  { s with tx := [], rx := [], devCalls := s.devCalls ++ calls, ext := ext }

theorem called_opening (call : DevCall) (ext' : Outside) (s : State) (calls : List DevCall) (ext : Outside) :
    called call ext' (opening s calls ext) = opening s (calls ++ [call]) ext' := by
  rw [called, opening, opening, List.append_assoc]

theorem release_opening (s : State) (calls : List DevCall) (ext : Outside) :
    release (opening s calls ext) = opening s (calls ++ [.release]) ext := by
  rw [release, opening, opening, List.append_assoc]

/-- A step of OPEN: its call, then the steps after it, or what undoes those before it and the event (R188). -/
def openStep (step : OpenStep) (call : State → DevCall) (undo : State → State) (next : State → Status × State)
    (s : State) : Status × State :=
  match primitive (call s) s with
  | (false, t) => openFailed step (undo t)
  | (true, t) => next t

/-- The four steps of OPEN: only a failed claim has nothing to release. -/
def openSteps : State → Status × State :=
  openStep .claim (fun t => .claim t.cfg.devVid t.cfg.devPid) id <|
  openStep .mode (fun t => .setBitbang t.cfg.outputMask) release <|
  openStep .latency (fun t => .setLatency t.latency) release <|
  openStep .clock (fun t => .setClock t.speedKhz) release fun t => (.ok, { t with isOpen := true })

theorem openRun_eq_openSteps (s : State) : openRun s = openSteps (opening s [] s.ext) := by
  rw [opening, List.append_nil]
  rfl

/-! ### The ends of OPEN -/

/-- OPEN of `s` ends with the session open, or with the event of the step that failed. -/
def OpenEnds (s : State) (r : Status × State) : Prop :=
  ∃ calls ext, r = (.ok, { opening s calls ext with isOpen := true }) ∨ ∃ step, r = openFailed step (opening s calls ext)

section

variable {step : OpenStep} {call : State → DevCall} {undo : State → State} {next : State → Status × State} {s : State}

theorem openStep_ends (hundo : ∀ calls ext, ∃ calls', undo (opening s calls ext) = opening s calls' ext)
    (hnext : ∀ calls ext, OpenEnds s (next (opening s calls ext))) (calls : List DevCall) (ext : Outside) :
    OpenEnds s (openStep step call undo next (opening s calls ext)) := by
  obtain ⟨result, ext', hcall⟩ := primitive_called (call (opening s calls ext)) (opening s calls ext)
  rw [openStep, hcall, called_opening]
  cases result with
  | true => exact hnext _ _
  | false =>
    obtain ⟨calls', hundone⟩ := hundo (calls ++ [call (opening s calls ext)]) ext'
    exact ⟨calls', ext', .inr ⟨step, congrArg (openFailed step) hundone⟩⟩

variable {rest : List Bool} {calls : List DevCall} {ext : Outside}

theorem openStep_taken (h : ext.primitives = true :: rest) :
    openStep step call undo next (opening s calls ext) =
      next (opening s (calls ++ [call (opening s calls ext)]) { ext with primitives := rest }) := by
  rw [openStep, primitive_listed (s := opening s calls ext) h, called_opening]
  rfl

theorem openStep_refused (h : ext.primitives = false :: rest) :
    openStep step call undo next (opening s calls ext) =
      openFailed step (undo (opening s (calls ++ [call (opening s calls ext)]) { ext with primitives := rest })) := by
  rw [openStep, primitive_listed (s := opening s calls ext) h, called_opening]
  rfl

end

theorem openRun_ends (s : State) : OpenEnds s (openRun s) := by
  have hrelease : ∀ calls ext, ∃ calls', release (opening s calls ext) = opening s calls' ext :=
    fun calls ext => ⟨_, release_opening s calls ext⟩
  rw [openRun_eq_openSteps]
  exact openStep_ends (fun calls ext => ⟨calls, rfl⟩)
    (openStep_ends hrelease (openStep_ends hrelease (openStep_ends hrelease fun calls ext => ⟨calls, ext, .inl rfl⟩))) _ _

/-! ### OPEN as an instruction -/

theorem exec_open_open {s : State} (hfault : s.fault = none) (hopen : s.isOpen = true) :
    exec .openSession s = .next { s with fault := some ⟨.alreadyOpen, .openSession⟩ } :=
  exec_of_raised hfault (by rw [body, openOp, if_pos hopen, raise_eq, map_raised])

theorem exec_open_closed {s t : State} {st : Status} (hfault : s.fault = none) (hclosed : s.isOpen = false)
    (hrun : openRun s = (st, t)) : exec .openSession s = .next { t with ret := .status st } := by
  refine exec_of_done hfault ?_
  rw [body, openOp, hclosed, hrun]
  rfl

/-- Settles O50, by the ends of OPEN's steps. -/
theorem openAlwaysAnswers : Obligations.OpenAlwaysAnswers := by
  unfold Obligations.OpenAlwaysAnswers
  refine fun s hfault => ⟨fun hclosed => ?_, exec_open_open hfault⟩
  obtain ⟨calls, ext, hrun | ⟨step, hrun⟩⟩ := openRun_ends s
  · exact ⟨_, exec_open_closed hfault hclosed hrun, hfault, rfl, rfl, rfl, rfl, rfl, rfl, rfl, .inl ⟨rfl, rfl, rfl⟩⟩
  · exact ⟨_, exec_open_closed hfault hclosed hrun, hfault, rfl, rfl, rfl, rfl, rfl, rfl, rfl,
      .inr ⟨hclosed, rfl, step, rfl⟩⟩

/-- Settles O49: each listed result decides its step. -/
theorem openConfiguresInOrder : Obligations.OpenConfiguresInOrder := by
  unfold Obligations.OpenConfiguresInOrder
  refine ⟨rfl, fun s rest hfault => ⟨exec_open_open hfault, fun hclosed hlist => ?allTaken, fun hclosed hlist => ?claim,
    fun hclosed hlist => ?mode, fun hclosed hlist => ?latency, fun hclosed hlist => ?clock⟩⟩
  case allTaken =>
    have hrun := (openRun_eq_openSteps s).trans <| (openStep_taken hlist).trans <| (openStep_taken rfl).trans <|
      (openStep_taken rfl).trans <| openStep_taken rfl
    exact exec_open_closed hfault hclosed hrun
  case claim =>
    have hrun := (openRun_eq_openSteps s).trans <| openStep_refused hlist
    exact exec_open_closed hfault hclosed hrun
  case mode =>
    have hrun := (openRun_eq_openSteps s).trans <| (openStep_taken hlist).trans <| openStep_refused rfl
    rw [release_opening] at hrun
    exact exec_open_closed hfault hclosed hrun
  case latency =>
    have hrun := (openRun_eq_openSteps s).trans <| (openStep_taken hlist).trans <| (openStep_taken rfl).trans <|
      openStep_refused rfl
    rw [release_opening] at hrun
    exact exec_open_closed hfault hclosed hrun
  case clock =>
    have hrun := (openRun_eq_openSteps s).trans <| (openStep_taken hlist).trans <| (openStep_taken rfl).trans <|
      (openStep_taken rfl).trans <| openStep_refused rfl
    rw [release_opening] at hrun
    exact exec_open_closed hfault hclosed hrun

end Sys2Proof.Proofs
end

section
/-! PROOF. CLOSE (O51; R163), SET_SPEED (O52; R164) and the speed conversions (O53; R165, R166). -/

namespace Sys2Proof.Proofs

open Sys2Proof Sys2Proof.Machine Sys2Proof.Safety Sys2Proof.Laws

/-- Settles O51, by whether there is a session to close. -/
theorem closeReleasesAndIsIdempotent : Obligations.CloseReleasesAndIsIdempotent := by
  unfold Obligations.CloseReleasesAndIsIdempotent
  refine ⟨rfl, fun s hfault => ⟨fun hopen => ?opened, fun hclosed => ?closed⟩⟩
  case opened =>
    exact exec_of_done (u := { release s with isOpen := false }) hfault (by rw [body, closeOp, if_pos hopen, map_done])
  case closed => exact exec_of_done hfault (by rw [body, closeOp, hclosed]; rfl)

/-! ### SET_SPEED (R164) -/

section

variable {khz : Nat} {s : State} (hfault : s.fault = none)
include hfault

theorem exec_setSpeed_zero : exec (.setSpeed 0) s = .next { s with fault := some ⟨.badSpeed 0, .setSpeed⟩ } :=
  exec_of_raised hfault rfl

variable (hkhz : 1 ≤ khz)
include hkhz

theorem exec_setSpeed_closed (hclosed : s.isOpen = false) :
    exec (.setSpeed khz) s = .next { s with speedKhz := khz, ret := .status .ok } := by
  refine exec_of_done (u := { s with speedKhz := khz }) hfault ?_
  rw [body, setSpeedOp, if_neg (Nat.not_lt.mpr hkhz), hclosed]
  rfl

/-- With the session open, the Device's answer decides whether the value is stored. -/
theorem exec_setSpeed_open {t : State} {took : Bool} (hopen : s.isOpen = true)
    (hcall : primitive (.setClock khz) s = (took, t)) :
    exec (.setSpeed khz) s =
      .next (if took then { t with speedKhz := khz, ret := .status .ok } else { t with ret := .status .fail }) := by
  have hop : setSpeedOp khz s = if took then .done .ok { t with speedKhz := khz } else .done .fail t := by
    rw [setSpeedOp, if_neg (Nat.not_lt.mpr hkhz), if_pos hopen, hcall]
  cases took with
  | true => exact exec_of_done (u := { t with speedKhz := khz }) hfault (by rw [body, hop]; rfl)
  | false => exact exec_of_done hfault (by rw [body, hop]; rfl)

end

/-- Settles O52, by the speed, the session and the Device's answer. -/
theorem setSpeedProgramsTheDevice : Obligations.SetSpeedProgramsTheDevice := by
  unfold Obligations.SetSpeedProgramsTheDevice
  refine ⟨rfl, fun khz s hfault => ⟨?zero, exec_setSpeed_closed hfault, fun hkhz hopen => ⟨fun rest hlist => ?taken,
    fun rest hlist => ?refused, ?answered⟩⟩⟩
  case zero =>
    rintro rfl
    exact exec_setSpeed_zero hfault
  case taken => exact exec_setSpeed_open hfault hkhz hopen (primitive_listed hlist _)
  case refused => exact exec_setSpeed_open hfault hkhz hopen (primitive_listed hlist _)
  case answered =>
    obtain ⟨took, ext, hcall⟩ := primitive_called (.setClock khz) s
    refine ⟨_, exec_setSpeed_open hfault hkhz hopen hcall, ?_⟩
    cases took with
    | true => exact ⟨hfault, .inl ⟨rfl, rfl⟩⟩
    | false => exact ⟨hfault, .inr ⟨rfl, rfl⟩⟩

/-! ### The speed conversions (R165, R166) -/

/-- Settles O53, by the sign of the speed. -/
theorem speedConversions : Obligations.SpeedConversions := by
  unfold Obligations.SpeedConversions
  refine ⟨⟨rfl, rfl⟩, fun s hfault => ⟨fun speed => exec_of_done hfault rfl, fun n hn => ?positive,
    exec_of_done (u := warn (.eCapability 0) .khzToSpeed s) hfault rfl, fun n hn => ?negative⟩⟩
  case positive =>
    refine exec_of_done hfault ?_
    rw [body, khzToSpeedOp, if_neg (by omega), if_neg (by omega), Int.toNat_natCast]
  case negative =>
    refine exec_of_raised hfault ?_
    rw [body, khzToSpeedOp, if_pos hn, raise_eq]

end Sys2Proof.Proofs
end

section
/-! PROOF. What reads as a decimal integer (O55; R167, log 12), and SET_LATENCY, by what its arguments read as (O54). -/

namespace Sys2Proof.Proofs

open Sys2Proof Sys2Proof.Machine Sys2Proof.Safety Sys2Proof.Laws

/-! ### Strings of digits -/

theorem toNat_digitChar {d : Nat} (hd : d < 10) : (digitChar d).toNat = 48 + d := toNat_ofNat_small (by omega)

theorem digitValue_digitChar {d : Nat} (hd : d < 10) : digitValue (digitChar d) = some d := by
  rw [digitValue, toNat_digitChar hd, if_pos (by omega), Nat.add_sub_cancel_left]

theorem digitValue_of_other {ch : Byte} (hch : ch.toNat < 48 ∨ 57 < ch.toNat) : digitValue ch = none :=
  if_neg (by omega)

theorem digitsValue_cons {ch : Byte} {d : Nat} (hch : digitValue ch = some d) (acc : Nat) (rest : List Byte) :
    digitsValue acc (ch :: rest) = digitsValue (acc * 10 + d) rest := by
  rw [digitsValue, hch]

/-- With the value of the digits before in the accumulator, the value of the whole string. -/
theorem digitsValue_digits {digits : List Nat} (before : List Nat) (hdigits : ∀ d ∈ digits, d < 10) :
    digitsValue (Nat.ofDigits 10 before.reverse) (digits.map digitChar) =
      some (Nat.ofDigits 10 (before ++ digits).reverse) := by
  induction digits generalizing before with
  | nil => rw [List.append_nil]; rfl
  | cons d rest ih =>
    rw [List.forall_mem_cons] at hdigits
    obtain ⟨hd, hrest⟩ := hdigits
    have hacc : Nat.ofDigits 10 before.reverse * 10 + d = Nat.ofDigits 10 (before ++ [d]).reverse := by
      rw [List.reverse_append, List.reverse_singleton, List.singleton_append, Nat.ofDigits_cons]
      omega
    rw [List.map_cons, digitsValue_cons (digitValue_digitChar hd), hacc, ih _ hrest,
      List.append_cons before d rest]

theorem digitsValue_of_other {ch : Byte} (hch : digitValue ch = none) (acc : Nat) (before after : List Byte) :
    digitsValue acc (before ++ ch :: after) = none := by
  induction before generalizing acc with
  | nil => rw [List.nil_append, digitsValue, hch]
  | cons c rest ih =>
    rw [List.cons_append, digitsValue]
    cases digitValue c with
    | none => rfl
    | some d => exact ih _

/-! ### Decimal integers -/

theorem parseDigits_of_ne_nil {cs : List Byte} (h : cs ≠ []) : parseDigits cs = digitsValue 0 cs := by
  cases cs with
  | nil => exact absurd rfl h
  | cons => rfl

theorem parseDigits_digits {digits : List Nat} (hne : digits ≠ []) (hdigits : ∀ d ∈ digits, d < 10) :
    parseDigits (digits.map digitChar) = some (Nat.ofDigits 10 digits.reverse) := by
  rw [parseDigits_of_ne_nil (mt List.map_eq_nil_iff.mp hne)]
  exact digitsValue_digits [] hdigits

theorem parseDigits_of_other {ch : Byte} (hch : digitValue ch = none) (before after : List Byte) :
    parseDigits (before ++ ch :: after) = none := by
  rw [parseDigits_of_ne_nil (List.append_ne_nil_of_right_ne_nil _ (List.cons_ne_nil _ _)), digitsValue_of_other hch]

theorem parseInt_minus (cs : List Byte) : parseInt (45 :: cs) = (parseDigits cs).map fun n : Nat => -(n : Int) := rfl

theorem parseInt_of_ne_minus {ch : Byte} (hch : ch ≠ 45) (cs : List Byte) :
    parseInt (ch :: cs) = (parseDigits (ch :: cs)).map fun n : Nat => (n : Int) := if_neg hch

theorem digitChar_ne_minus {d : Nat} (hd : d < 10) : digitChar d ≠ 45 := by
  intro h
  have hvalue := toNat_digitChar hd
  have hminus : (45 : Byte).toNat = 45 := rfl
  rw [h, hminus] at hvalue
  omega

theorem parseInt_digits {digits : List Nat} (hne : digits ≠ []) (hdigits : ∀ d ∈ digits, d < 10) :
    parseInt (digits.map digitChar) = some ((Nat.ofDigits 10 digits.reverse : Nat) : Int) := by
  cases digits with
  | nil => exact absurd rfl hne
  | cons d rest =>
    have hfirst := digitChar_ne_minus (hdigits d List.mem_cons_self)
    have hvalue := parseDigits_digits hne hdigits
    rw [List.map_cons] at hvalue ⊢
    rw [parseInt_of_ne_minus hfirst, hvalue, Option.map_some]

/-- A character that is no digit spoils the string, but for a minus sign at its head. -/
theorem parseInt_of_other {ch : Byte} (hch : digitValue ch = none) {before : List Byte} (after : List Byte)
    (hplace : before ≠ [] ∨ ch ≠ 45) : parseInt (before ++ ch :: after) = none := by
  cases before with
  | nil =>
    have hnone := parseDigits_of_other hch [] after
    rw [List.nil_append] at hnone ⊢
    rw [parseInt_of_ne_minus (hplace.resolve_left fun h => h rfl), hnone, Option.map_none]
  | cons c rest =>
    rw [List.cons_append]
    by_cases hc : c = 45
    · rw [hc, parseInt_minus, parseDigits_of_other hch, Option.map_none]
    · rw [parseInt_of_ne_minus hc, ← List.cons_append, parseDigits_of_other hch, Option.map_none]

/-- Settles O55, by the value of a string of digits and by the first character that is none. -/
theorem decimalArgumentsRead : Obligations.DecimalArgumentsRead := by
  unfold Obligations.DecimalArgumentsRead
  refine ⟨fun digits hne hdigits => ⟨parseInt_digits hne hdigits, ?_⟩,
    fun before after ch hch => parseInt_of_other (digitValue_of_other hch) after, rfl, rfl⟩
  rw [parseInt_minus, parseDigits_digits hne hdigits, Option.map_some]

/-! ### SET_LATENCY -/

section

variable {arg : ArgString} {s : State}

theorem setLatencyOp_stores {v : Nat} (hparse : parseInt arg = some (v : Int)) (hv : v ≤ 255) :
    setLatencyOp [arg] s = .done .ok { s with latency := v } := by
  simp only [setLatencyOp, hparse]
  rw [if_neg (by omega), Int.toNat_natCast]

/-- No integer in 0..255: a negative one, one past 255, or none (log 12). -/
theorem setLatencyOp_badValue (hbad : ∀ v : Nat, parseInt arg = some (v : Int) → 255 < v) :
    setLatencyOp [arg] s = .done .ok (warn (.eConfigValue arg) .setLatency s) := by
  cases hparse : parseInt arg with
  | none => simp only [setLatencyOp, hparse]
  | some v =>
    have hrange : v < 0 ∨ 255 < v := by
      by_contra! h
      have hlarge := hbad v.toNat (by rw [hparse, Int.toNat_of_nonneg h.1])
      omega
    simp only [setLatencyOp, hparse]
    rw [if_pos hrange]

theorem setLatencyOp_badCount {args : List ArgString} (hcount : args.length ≠ 1) :
    setLatencyOp args s = .done .ok (warn (.eConfigCount args.length) .setLatency s) := by
  match args, hcount with
  | [], _ => rfl
  | [_], hcount => exact absurd rfl hcount
  | _ :: _ :: _, _ => rfl

theorem exec_setLatency {args : List ArgString} {t : State} (hfault : s.fault = none)
    (hop : setLatencyOp args s = .done .ok t) : exec (.setLatency args) s = .next { t with ret := .status .ok } :=
  exec_of_done hfault (by rw [body, hop, map_done])

end

/-- Settles O54, by what the arguments are. -/
theorem setLatencyTakesOneSmallInteger : Obligations.SetLatencyTakesOneSmallInteger := by
  unfold Obligations.SetLatencyTakesOneSmallInteger
  refine ⟨rfl, fun args s hfault =>
    ⟨?stores, ?badValue, fun hcount => exec_setLatency hfault (setLatencyOp_badCount hcount)⟩⟩
  case stores =>
    rintro arg v rfl hparse hv
    exact exec_setLatency hfault (setLatencyOp_stores hparse hv)
  case badValue =>
    rintro arg rfl hbad
    exact exec_setLatency hfault (setLatencyOp_badValue hbad)

end Sys2Proof.Proofs
end

section
/-! PROOF. EXECUTE is its commands and then one closing FLUSH (O56), and runs to its end where no command can fault (O58;
R138, R169). -/

namespace Sys2Proof.Proofs

open Sys2Proof Sys2Proof.Machine Sys2Proof.Safety Sys2Proof.Laws

/-! ### The queue index -/

/-- The change of the queue index alone. -/
def atIndex (k : Nat) : Overlay where
  events := []
  out := []
  inn := []
  calls := []
  qi := some (some k)
  ret := none
  returns := none
  tap := none

theorem overlaid_atIndex (k : Nat) (s : State) : overlaid (atIndex k) s = { s with qi := some k } := rfl

/-! ### Commands as calls (R138) -/

theorem callable_command (c : Command) : Callable c.toInstr where
  ret v s := by
    rw [← dispatch_eq_body, ← dispatch_eq_body]
    exact Commutes_map _ (dispatch_overlaid (o := returning v) rfl rfl c) s
  marks s := by
    rw [← dispatch_eq_body]
    exact Marks_map _ (dispatch_marks c s)

/-- The loop of EXECUTE is its commands as calls: none of them reads the queue index, which ends after the last (R29). -/
theorem runQueue_of_callAll {queue : List Command} {s t : State} (k : Nat) (index : Option Nat)
    (hcalls : callAll (queue.map Command.toInstr) s = .done () t) :
    runQueue k queue { s with qi := index } = .done () { t with qi := some (k + queue.length) } := by
  induction queue generalizing k index s with
  | nil => cases hcalls; rfl
  | cons c rest ih =>
    obtain ⟨_, u, hbody, hrest⟩ := andThen_done_iff.mp hcalls
    rw [← dispatch_eq_body] at hbody
    obtain ⟨_, v, hdispatch, hend⟩ := andThen_done_iff.mp hbody
    cases hend
    have hmoved : dispatch c { s with qi := some k } = .done () { u with qi := some k } := by
      rw [← overlaid_atIndex, dispatch_overlaid rfl rfl, hdispatch]
      rfl
    have hindex : k + (c :: rest).length = k + 1 + rest.length := by rw [List.length_cons]; omega
    calc runQueue k (c :: rest) { s with qi := index }
        = runQueue (k + 1) rest { u with qi := some k } := by rw [runQueue, hmoved, andThen_done]
      _ = .done () { t with qi := some (k + (c :: rest).length) } := by rw [ih (k + 1) (some k) hrest, hindex]

theorem runQueue_of_runInstrs {queue : List Command} {s u : State} (hfault : s.fault = none)
    (hrun : runInstrs (queue.map Command.toInstr) s = .next u) (hu : u.fault = none) :
    runQueue 0 queue s = .done () { u with qi := some queue.length, ret := s.ret } := by
  have hcalls := callAll_of_runInstrs (List.forall_mem_map.mpr fun c _ => callable_command c) hfault hrun
  rw [leaves_of_unfaulted _ hu] at hcalls
  have hqueue := runQueue_of_callAll 0 s.qi hcalls
  rwa [Nat.zero_add] at hqueue

/-! ### The closing flush -/

theorem executeOp_open {queue : List Command} {s : State} (hopen : s.isOpen = true) :
    executeOp queue s =
      (runQueue 0 queue s).andThen fun _ t => (flushOp t).andThen fun st u => .done st { u with qi := none } :=
  needOpen_open _ _ _ hopen

/-- FLUSH reads neither the queue index nor what an earlier call returned. -/
theorem flushOp_closing (k : Nat) (v : OpResult) (s : State) :
    flushOp { s with qi := some k, ret := v } =
      mapEnd (overlaid (atIndex k)) (mapEnd (overlaid (returning v)) (flushOp s)) := by
  rw [← flushOp_overlaid, ← flushOp_overlaid]
  rfl

/-- Settles O56, by the ends of the closing flush. -/
theorem executeIsItsCommandsThenAFlush : Obligations.ExecuteIsItsCommandsThenAFlush := by
  unfold Obligations.ExecuteIsItsCommandsThenAFlush
  intro queue s u t hfault hopen hrun hu hexec
  have hqueue := runQueue_of_runInstrs hfault hrun hu
  have hclosing := flushOp_closing queue.length s.ret u
  obtain ⟨_, ⟨st, v, hflush, rfl⟩ | hflush⟩ := exec_flush_next hexec
  · have hv : v.fault = none := (flushOp_done_fault hflush).trans hu
    refine ⟨fun _ => exec_of_done (u := { v with qi := none, ret := s.ret }) hfault ?_, absurd hv⟩
    rw [body, executeOp_open hopen, hqueue, andThen_done, hclosing, hflush]
    rfl
  · refine ⟨fun hnone => absurd hnone (flushOp_raised_fault hflush), fun _ => exec_of_raised hfault ?_⟩
    rw [body, executeOp_open hopen, hqueue, andThen_done, hclosing, hflush]
    rfl

/-! ### Commands that no state makes fault -/

/-- The session is still ready, with the parameters and the ScanLayer's results as they were. -/
structure Stays (s t : State) : Prop where
  ready : Ready t
  cfg : t.cfg = s.cfg := by rfl
  scanReturns : t.scanReturns = s.scanReturns := by rfl

theorem Stays.trans {s t u : State} (h : Stays s t) (h' : Stays t u) : Stays s u where
  ready := h'.ready
  cfg := h'.cfg.trans h.cfg
  scanReturns := h'.scanReturns.trans h.scanReturns

theorem stays_of_emits {bytes : List Byte} {s t : State} (h : Emits bytes s t) (ht : Ready t) : Stays s t where
  ready := ht
  cfg := h.cfg
  scanReturns := h.scanReturns

theorem ready_atIndex {k : Nat} {s : State} (h : Ready s) : Ready { s with qi := some k } where
  params := h.params
  unfaulted := h.unfaulted
  opened := h.opened
  answering := h.answering
  room := h.room

/-- A ready session's FLUSH returns OK or FAIL, with nothing left to send. -/
theorem flushOp_stays {s : State} (h : Ready s) :
    ∃ st t, flushOp s = .done st t ∧ Stays s t ∧ t.tx = [] ∧ (st = .ok ∨ st = .fail) := by
  obtain ⟨st, t, hflush, hend, ht, htx⟩ := flushOp_ready 0 s h
  refine ⟨st, t, hflush, ?_⟩
  cases hend with
  | ok => exact ⟨{ ready := ht }, htx, .inl rfl⟩
  | failed => exact ⟨{ ready := ht }, htx, .inr rfl⟩

section

variable {s : State} (hready : Ready s)
include hready

theorem cmdResetOp_stays (trst srst : Bool) : ∃ t, cmdResetOp trst srst s = .done () t ∧ Stays s t := by
  have hstart : ReadyFor (sampleCount s.cfg.pins [resetByte s.cfg.pins trst srst] + 0)
      { s with tapCur := resetTap trst srst s } := by
    rw [sampleCount_resetByte hready.params]
    exact ReadyFor_tapCur _ hready
  obtain ⟨st, t, henq, hruns, _⟩ := enqOp_emits _ 0 { s with tapCur := resetTap trst srst s } hstart
  refine ⟨t, ?_, stays_of_emits (Emits_of_tapCur _ hruns.emits) hruns.ready⟩
  rw [cmdResetOp_eq_callAll hready.opened, callAll_enq, resetStart_eq, henq, map_done]

/-- The first transition is one TAP_IDLE's reachability makes legal, the second starts in TAP_IDLE. -/
theorem cmdRuntestOp_stays {cycles : Nat} {endState : TapState} (hidle : IdleReachable s.cfg.tap)
    (hend : neverFaults s.cfg.tap (.runtest cycles endState)) :
    ∃ t, cmdRuntestOp cycles endState s = .done () t ∧ Stays s t := by
  obtain ⟨t, hrun1, hemits1, htap1, ht⟩ :=
    transition_if_emits hready (fun _ => ⟨hidle.stable, hidle.short s.tapCur⟩) not_not.mp
  obtain ⟨u, hrun2, hruns2⟩ := clockAll_emits 0 (List.replicate cycles false) t ht
  have hu : Stays s u := (stays_of_emits hemits1 ht).trans (stays_of_emits hruns2.emits hruns2.ready)
  have htap2 : u.tapCur = tapIdle s.cfg.tap := hruns2.tapCur.trans htap1
  obtain ⟨v, hrun3, hemits3, _, hv⟩ := transition_if_emits (c := endState ≠ tapIdle s.cfg.tap) (target := endState)
    hu.ready (by rwa [hu.cfg, htap2]) fun h => htap2.trans (not_not.mp h).symm
  refine ⟨v, ?_, hu.trans (stays_of_emits hemits3 hv)⟩
  rw [cmdRuntestOp_open hready.params hready.opened, hrun1, andThen_done, hrun2, andThen_done, hrun3]

theorem cmdPathmoveOp_nil_stays : ∃ t, cmdPathmoveOp [] s = .done () t ∧ Stays s t := by
  obtain ⟨st, t, hidle, hruns, _⟩ := idleOp_emits 0 s hready
  refine ⟨t, ?_, stays_of_emits hruns.emits hruns.ready⟩
  rw [cmdPathmoveOp_open hready.opened, pathSteps, andThen_done, callAll_idle, hidle, map_done]

theorem cmdTmsOp_stays (nbits : Nat) (bits : List Byte) : ∃ t, cmdTmsOp nbits bits s = .done () t ∧ Stays s t := by
  obtain ⟨t, hrun, hruns⟩ := clockAll_emits 0 (tmsBits nbits bits) s hready
  refine ⟨{ t with tapCur := t.tapEnd }, ?_, stays_of_emits (Emits_tapCur _ hruns.emits) (ReadyFor_tapCur _ hruns.ready)⟩
  rw [cmdTmsOp, needOpen_open _ _ _ hready.opened, hrun, andThen_done]

theorem sleepOp_stays (us : Nat) : ∃ t, sleepOp us s = .done () t ∧ Stays s t := by
  obtain ⟨st, t, hflush, ht, _⟩ := flushOp_stays hready
  refine ⟨{ t with events := t.events ++ [.delay us] }, by rw [sleepOp_open hready.opened, hflush, andThen_done], ?_⟩
  exact { ht with ready := { ht.ready with } }

theorem dispatch_stays {c : Command} (hidle : IdleReachable s.cfg.tap) (hc : neverFaults s.cfg.tap c) :
    ∃ t, dispatch c s = .done () t ∧ Stays s t := by
  cases c with
  | reset trst srst => exact cmdResetOp_stays hready trst srst
  | runtest cycles endState => exact cmdRuntestOp_stays hready hidle hc
  | pathmove path =>
    obtain rfl : path = [] := hc
    exact cmdPathmoveOp_nil_stays hready
  | stableclocks cycles => exact hc.elim
  | tms nbits bits => exact cmdTmsOp_stays hready nbits bits
  | sleep us => exact sleepOp_stays hready us
  | scan payload => exact hc.elim

end

theorem runQueue_stays {queue : List Command} {s : State} (k : Nat) (hready : Ready s) (hidle : IdleReachable s.cfg.tap)
    (hqueue : ∀ c ∈ queue, neverFaults s.cfg.tap c) : ∃ t, runQueue k queue s = .done () t ∧ Stays s t := by
  induction queue generalizing k s with
  | nil => exact ⟨_, rfl, { ready := ready_atIndex hready }⟩
  | cons c rest ih =>
    rw [List.forall_mem_cons] at hqueue
    obtain ⟨hc, hrest⟩ := hqueue
    obtain ⟨t, hdispatch, ht⟩ := dispatch_stays (ready_atIndex (k := k) hready) hidle hc
    obtain ⟨u, hrun, hu⟩ := ih (k + 1) ht.ready (by rwa [ht.cfg]) (by rwa [ht.cfg])
    exact ⟨u, by rw [runQueue, hdispatch, andThen_done, hrun], { ht.trans hu with }⟩

/-- Settles O58: each command leaves the session ready for the next, and the last for the closing flush. -/
theorem executeRunsToTheEnd : Obligations.ExecuteRunsToTheEnd := by
  unfold Obligations.ExecuteRunsToTheEnd
  intro queue s hready hidle hqueue
  obtain ⟨u, hrun, hu⟩ := runQueue_stays 0 hready hidle hqueue
  obtain ⟨st, t, hflush, ht, htx, hst⟩ := flushOp_stays hu.ready
  have hexec : exec (.execute queue) s = .next { t with qi := none, ret := .status st } :=
    exec_of_done (u := { t with qi := none }) hready.unfaulted
      (by rw [body, executeOp_open hready.opened, hrun, andThen_done, hflush, andThen_done, map_done])
  have hframe := exec_framed (i := .execute queue) hready.params (Option.some_ne_none _) hexec
  exact ⟨_, hexec, ht.ready.unfaulted, htx, rfl, hframe.cfg, ht.ready.opened, hframe.speedKhz, hframe.latency,
    hframe.tapEnd, hframe.devCalls, (hu.trans ht).scanReturns, hframe.wireOut, hframe.wireIn, hframe.events,
    hst.imp (congrArg _) (congrArg _)⟩

end Sys2Proof.Proofs
end

section
/-! PROOF. The iteration in which a FLUSH fails (R184, R191): the good iterations before it are the loop's own, and it ends
the loop (O29), before any sample it brings is filtered (O30). -/

namespace Sys2Proof.Proofs

open Sys2Proof Sys2Proof.Machine Sys2Proof.Safety Sys2Proof.Laws

/-! ### A FLUSH up to the failing iteration -/

theorem synchronous_flushStart (s : State) : Synchronous (flushStart s) where
  written := Nat.zero_le _
  read := Nat.le_refl _

theorem flushLoop_of_failure {fuel : Nat} {f : FlushState} {u v : State} {it : Iteration} (hbusy : flushBusy f = true)
    (hiter : devIter f u = some (it, v)) (hneg : it.w < 0 ∨ it.r < 0) :
    flushLoop (fuel + 1) f u = .done .fail (transportFail it.w it.r v) := by
  rw [flushLoop, if_pos hbusy, hiter]
  exact if_pos hneg

/-- A failed iteration puts at most bytes still to be written on the wires (R101, I13). -/
theorem devIter_failing {f : FlushState} {u v : State} {it : Iteration} (hsync : Synchronous f)
    (hframe : 1 ≤ u.cfg.frame) (hbusy : flushBusy f = true) (hiter : devIter f u = some (it, v))
    (hneg : it.w < 0 ∨ it.r < 0) :
    it.wrote <+: f.snap.drop f.wpos ∧
      v = { u with wireOut := u.wireOut ++ it.wrote, wireIn := u.wireIn ++ it.data, ext := v.ext } := by
  obtain ⟨hnone, _⟩ | ⟨it', e, hsome, _, hcase⟩ := devIter_spec f hsync hbusy u hframe
  · cases hnone.symm.trans hiter
  · cases hsome.symm.trans hiter
    obtain ⟨_, hlost⟩ | ⟨hadvances, _⟩ := hcase
    · exact ⟨hlost, rfl⟩
    · have := hadvances.w
      have := hadvances.r
      omega

section

variable {k : Nat} {f : FlushState} {s u v : State} {it : Iteration} (hc : s.cfg.ok = true)
  (hrun : flushRun k (flushStart s) s = some (f, u))
include hc hrun

theorem iterated_of_run : Iterated k (flushStart s) f s u :=
  flushRun_spec k _ _ _ _ (synchronous_flushStart s) (ok_frame hc) hrun

theorem snap_of_run : f.snap = s.tx := (iterated_of_run hc hrun).snap

theorem cfg_of_run : u.cfg = s.cfg := by
  obtain ⟨_, _, _, _, hstate, _⟩ := (iterated_of_run hc hrun).state
  rw [hstate]

/-- A FLUSH goes on after any iterations it has made: its fuel is for more than those. -/
theorem flushOp_of_run (hopen : s.isOpen = true) : ∃ fuel, flushOp s = flushLoop (fuel + 1) f u := by
  obtain ⟨_, _, _, e, _, _, _, hfuel⟩ := (iterated_of_run hc hrun).state
  obtain ⟨fuel, henough⟩ : ∃ fuel, s.ext.replies.length + 2 * s.tx.length + 1 = k + (fuel + 1) := by
    refine ⟨s.ext.replies.length + 2 * s.tx.length - k, ?_⟩
    simp only [flushStart] at hfuel
    omega
  exact ⟨fuel, by rw [flushOp_open hopen, henough, flushLoop_of_run k _ _ _ _ _ hrun]⟩

variable (hbusy : flushBusy f = true) (hiter : devIter f u = some (it, v)) (hneg : it.w < 0 ∨ it.r < 0)
include hbusy hiter hneg

/-- What the iterations of a failing FLUSH write: `rx`, the streams and the replies taken. The bytes on the wires begin the
queued ones (R44, R106). -/
theorem failing_iteration_writes :
    ∃ wrote data, wrote <+: s.tx ∧
      v = { s with rx := v.rx, wireOut := s.wireOut ++ wrote, wireIn := s.wireIn ++ data, ext := v.ext } := by
  have hiterated := iterated_of_run hc hrun
  obtain ⟨rx, sent, read, e, hu, hsent, _, _⟩ := hiterated.state
  obtain ⟨hlost, hv⟩ := devIter_failing hiterated.synchronous (cfg_of_run hc hrun ▸ ok_frame hc) hbusy hiter hneg
  refine ⟨sent ++ it.wrote, read ++ it.data, ?_, by rw [hv, hu]; simp only [List.append_assoc]⟩
  calc sent ++ it.wrote <+: sent ++ (flushStart s).snap.drop f.wpos :=
        (List.prefix_append_right_inj _).mpr (hiterated.snap ▸ hlost)
    _ = s.tx := hsent.symm

theorem exec_flush_of_failure (hopen : s.isOpen = true) (hfault : s.fault = none) :
    ∃ wrote data, wrote <+: s.tx ∧ v.wireOut = s.wireOut ++ wrote ∧ v.wireIn = s.wireIn ++ data ∧
      exec .flush s =
        .next { s with tx := [], rx := [], events := s.events ++ [.log (.wTransport it.w it.r) .flush],
                       wireOut := v.wireOut, wireIn := v.wireIn, ext := v.ext, ret := .status .fail } := by
  obtain ⟨wrote, data, hprefix, hv⟩ := failing_iteration_writes hc hrun hbusy hiter hneg
  obtain ⟨fuel, hflush⟩ := flushOp_of_run hc hrun hopen
  have hexec : exec .flush s = .next { transportFail it.w it.r v with ret := .status .fail } :=
    exec_of_done hfault (by rw [body, hflush, flushLoop_of_failure hbusy hiter hneg, map_done])
  refine ⟨wrote, data, hprefix, by rw [hv], by rw [hv], ?_⟩
  rw [hexec, transportFail_eq, hv]

end

/-- Settles O29: the failing iteration ends the loop, and a loop that returns FAIL has made one. -/
theorem failedFlushEmptiesBothBuffers : Obligations.FailedFlushEmptiesBothBuffers := by
  unfold Obligations.FailedFlushEmptiesBothBuffers
  intro s hc hopen hfault hflush
  refine ⟨fun k f u v it hrun hbusy hiter hneg => ?fails, fun t hexec hnone hret => ?onlyThere⟩
  case fails =>
    obtain ⟨wrote, data, hprefix, hout, hin, hexec⟩ := exec_flush_of_failure hc hrun hbusy hiter hneg hopen hfault
    refine ⟨⟨wrote, hprefix, hout⟩, hin ▸ List.prefix_append _ _, ?_⟩
    simp only [hexec, hopen, hflush]
  case onlyThere =>
    obtain ⟨_, ⟨st, w, hdone, rfl⟩ | hraised⟩ := exec_flush_next hexec
    · cases hret
      obtain ⟨k, f, u, it, v, hrun, hbusy, hiter, hneg⟩ := flushLoop_fail _ _ _ _ ((flushOp_open hopen).symm.trans hdone)
      obtain ⟨_, _, _, _, _, hfails⟩ := exec_flush_of_failure hc hrun hbusy hiter hneg hopen hfault
      injection hfails.symm.trans hexec with hstate
      exact ⟨k, f, u, v, it, hrun, hbusy, hiter, hneg, (congrArg State.events hstate).symm⟩
    · exact absurd hnone (flushOp_raised_fault hraised)

/-! ### The counts of a listed answer (R101) -/

theorem writeRequest_ne_nil {frame : Nat} {f : FlushState} (hframe : 1 ≤ frame) (hleft : f.wpos < f.snap.length) :
    writeRequest frame f ≠ [] := by
  have hlength := writeRequest_length frame f
  rw [← List.length_pos_iff]
  omega

theorem readRequest_ne_zero {frame : Nat} {f : FlushState} (hframe : 1 ≤ frame) (hleft : f.rpos < f.snap.length) :
    readRequest frame f ≠ 0 := by
  rw [readRequest_eq]
  omega

section

variable {f : FlushState} {wreq : List Byte} {rreq : Nat} {w : Int} {a : DevAnswer}

theorem writeCount_of_failed (hreq : wreq ≠ []) (hfailed : a.w < 0) : writeCount wreq a = a.w := by
  rw [writeCount, if_neg hreq, if_pos hfailed]

theorem readCount_of_failed (hreq : rreq ≠ 0) (hfailed : a.r < 0) : readCount f w rreq a = a.r := by
  rw [readCount, if_neg hreq, if_pos hfailed]

theorem writeCount_nonneg (hw : 0 ≤ a.w) : 0 ≤ writeCount wreq a := by
  unfold writeCount
  split_ifs <;> omega

/-- The synchrony bound leaves a successful read at least the bytes written and not yet read (R101 item 3). -/
theorem readCount_nonneg (hsync : f.rpos ≤ f.wpos) (hr : 0 ≤ a.r) : 0 ≤ readCount f w rreq a := by
  unfold readCount
  split_ifs <;> omega

end

/-- Settles O30: the answer's negative count stays as the Device gave it, where the side it is for is not complete. -/
theorem negativeCountDecidesBeforeSamples : Obligations.NegativeCountDecidesBeforeSamples := by
  unfold Obligations.NegativeCountDecidesBeforeSamples
  intro s u k f a rest hc hopen hfault hrun hlisted hfails
  have hframe : 1 ≤ u.cfg.frame := cfg_of_run hc hrun ▸ ok_frame hc
  rw [← snap_of_run hc hrun] at hfails ⊢
  have hwrite (hleft : f.wpos < f.snap.length) (hw : a.w < 0) : writeCount (writeRequest u.cfg.frame f) a = a.w :=
    writeCount_of_failed (writeRequest_ne_nil hframe hleft) hw
  have hread (hleft : f.rpos < f.snap.length) (hr : a.r < 0) :
      readCount f (writeCount (writeRequest u.cfg.frame f) a) (readRequest u.cfg.frame f) a = a.r :=
    readCount_of_failed (readRequest_ne_zero hframe hleft) hr
  have hbusy : flushBusy f = true := flushBusy_iff.mpr (hfails.imp And.left And.left)
  have hneg : writeCount (writeRequest u.cfg.frame f) a < 0 ∨
      readCount f (writeCount (writeRequest u.cfg.frame f) a) (readRequest u.cfg.frame f) a < 0 := by
    obtain ⟨hleft, hw⟩ | ⟨hleft, hr⟩ := hfails
    · exact .inl (by rwa [hwrite hleft hw])
    · exact .inr (by rwa [hread hleft hr])
  obtain ⟨wrote, data, hprefix, hout, hin, hexec⟩ :=
    exec_flush_of_failure hc hrun hbusy (devIter_listed hlisted rfl) hneg hopen hfault
  refine ⟨_, _, wrote, data, snap_of_run hc hrun ▸ hprefix, hwrite, hread, writeCount_nonneg,
    readCount_nonneg (iterated_of_run hc hrun).synchronous.read, ?_⟩
  rw [hexec, hout, hin]
  rfl

end Sys2Proof.Proofs
end

section
/-! PROOF. The fault of a command ends EXECUTE (O57; R183, R169): the queue before it runs as its commands do, and the raise
passes the rest of the queue and the closing flush by. -/

namespace Sys2Proof.Proofs

open Sys2Proof Sys2Proof.Machine Sys2Proof.Safety Sys2Proof.Laws

/-- An instruction whose next state holds a new mark has raised: one that returns leaves the mark alone (R25). -/
theorem body_raised_of_exec {i : Instr} {s t : State} (hmarks : Marks s (body i s)) (hexec : exec i s = .next t)
    (hfault : t.fault ≠ none) : body i s = .raised t := by
  rw [exec_eq_perform] at hexec
  obtain ⟨hnone, ⟨v, u, hdone, rfl⟩ | hraised⟩ := perform_next _ _ _ hexec
  · rw [hdone] at hmarks
    exact absurd (hmarks.trans hnone) hfault
  · exact hraised

theorem runQueue_append (before rest : List Command) (k : Nat) (s : State) :
    runQueue k (before ++ rest) s = (runQueue k before s).andThen fun _ t => runQueue (k + before.length) rest t := by
  induction before generalizing k s with
  | nil => cases rest <;> rfl
  | cons c before ih =>
    rw [List.cons_append, runQueue, runQueue, andThen_assoc, List.length_cons, Nat.add_comm before.length, ← Nat.add_assoc]
    exact congrArg (dispatch c { s with qi := some k }).andThen (funext fun _ => funext (ih (k + 1)))

/-- A command reads neither the queue index nor what an earlier call returned. -/
theorem dispatch_queued (c : Command) (k : Nat) (v : OpResult) (s : State) :
    dispatch c { s with qi := some k, ret := v } =
      mapEnd (overlaid (atIndex k)) (mapEnd (overlaid (returning v)) (dispatch c s)) := by
  rw [← dispatch_overlaid rfl rfl, ← dispatch_overlaid rfl rfl]
  rfl

/-- Settles O57: the commands before the fault leave what they leave as instructions, and the raise passes through every
caller. -/
theorem faultEndsExecute : Obligations.FaultEndsExecute := by
  unfold Obligations.FaultEndsExecute
  intro before after c s u t hfault hopen hrun hu hexec ht
  have hqueue := runQueue_of_runInstrs hfault hrun hu
  have hraised : dispatch c u = .raised t := by
    rw [← map_raised_iff, dispatch_eq_body]
    exact body_raised_of_exec ((callable_command c).marks u) hexec ht
  refine exec_of_raised hfault ?_
  rw [body, executeOp_open hopen, runQueue_append, hqueue, andThen_done, Nat.zero_add, runQueue,
    dispatch_queued c before.length s.ret u, hraised]
  rfl

end Sys2Proof.Proofs
end

section
/-! PROOF. No operation reads the histories (O14; R27, R197): every instruction commutes with an overlay of what it neither
reads nor writes, by Laws/Overlay.lean and, for the operations that need no session, by the lemmas here. -/

namespace Sys2Proof.Proofs

open Sys2Proof Sys2Proof.Machine Sys2Proof.Safety Sys2Proof.Laws

/-! ### The operations that need no session (R11) -/

section

variable (o : Overlay)

theorem primitive_overlaid (call : DevCall) (s : State) :
    primitive call (overlaid o s) = (primitive call s).map id (overlaid o) := by
  unfold primitive
  rw [overlaid_ext]
  split <;> simp only [Prod.map, id, overlaid, List.append_assoc]

theorem release_overlaid (s : State) : release (overlaid o s) = overlaid o (release s) := by
  simp only [release, overlaid, List.append_assoc]

theorem warn_overlaid (kind : EventKind) (op : Op) (s : State) :
    warn kind op (overlaid o s) = overlaid o (warn kind op s) := by
  simp only [warn, overlaid, List.append_assoc]

theorem openStep_overlaid {step : OpenStep} {call : State → DevCall} {undo : State → State}
    {next : State → Status × State} (hcall : ∀ s, call (overlaid o s) = call s)
    (hundo : ∀ s, undo (overlaid o s) = overlaid o (undo s))
    (hnext : ∀ s, next (overlaid o s) = (next s).map id (overlaid o)) (s : State) :
    openStep step call undo next (overlaid o s) = (openStep step call undo next s).map id (overlaid o) := by
  rw [openStep, openStep, hcall, primitive_overlaid]
  obtain ⟨result, t⟩ := primitive (call s) s
  cases result with
  | true => exact hnext t
  | false =>
    show openFailed step (undo (overlaid o t)) = _
    rw [hundo, openFailed, warn_overlaid]
    rfl

theorem openSteps_overlaid (s : State) : openSteps (overlaid o s) = (openSteps s).map id (overlaid o) := by
  have hclock := openStep_overlaid o (step := .clock) (call := fun t => .setClock t.speedKhz)
    (next := fun t => (.ok, { t with isOpen := true })) (fun _ => rfl) (release_overlaid o) fun _ => rfl
  have hlatency := openStep_overlaid o (step := .latency) (call := fun t => .setLatency t.latency) (fun _ => rfl)
    (release_overlaid o) hclock
  have hmode := openStep_overlaid o (step := .mode) (call := fun t => .setBitbang t.cfg.outputMask) (fun _ => rfl)
    (release_overlaid o) hlatency
  exact openStep_overlaid o (undo := id) (fun _ => rfl) (fun _ => rfl) hmode s

theorem openRun_overlaid (s : State) : openRun (overlaid o s) = (openRun s).map id (overlaid o) :=
  openSteps_overlaid o { s with tx := [], rx := [] }

theorem openOp_overlaid : Commutes (overlaid o) openOp :=
  Commutes_ite (fun _ => Iff.rfl) (Commutes_raise o _ _) fun s => by
    rw [openRun_overlaid]
    rfl

theorem closeOp_overlaid : Commutes (overlaid o) closeOp :=
  Commutes_ite (fun _ => Iff.rfl) (fun s => by rw [release_overlaid]; rfl) (Commutes_done _)

theorem setSpeedOp_overlaid (khz : Nat) : Commutes (overlaid o) (setSpeedOp khz) := by
  refine Commutes_ite (fun _ => Iff.rfl) (Commutes_raise o _ _)
    (Commutes_ite (fun _ => Iff.rfl) (fun s => ?programmed) fun _ => rfl)
  case programmed =>
    rw [primitive_overlaid]
    obtain ⟨took, t⟩ := primitive (.setClock khz) s
    cases took <;> rfl

theorem Commutes_warn {α : Type} (a : α) (kind : EventKind) (op : Op) :
    Commutes (overlaid o) fun s => Res.done a (warn kind op s) :=
  fun s => congrArg (Res.done a) (warn_overlaid o kind op s)

theorem khzToSpeedOp_overlaid (khz : Int) : Commutes (overlaid o) (khzToSpeedOp khz) :=
  Commutes_ite (fun _ => Iff.rfl) (Commutes_raise o _ _)
    (Commutes_ite (fun _ => Iff.rfl) (Commutes_warn o _ _ _) (Commutes_done _))

theorem setLatencyOp_overlaid (args : List ArgString) : Commutes (overlaid o) (setLatencyOp args) := by
  unfold setLatencyOp
  split
  next arg =>
    split
    next v => exact Commutes_ite (fun _ => Iff.rfl) (Commutes_warn o _ _ _) fun _ => rfl
    next => exact Commutes_warn o _ _ _
  next => exact Commutes_warn o _ _ _

end

/-! ### Every instruction -/

section

variable {o : Overlay} (hreturns : o.returns = none) (hqi : o.qi = none) (htap : o.tap = none)
include hreturns hqi htap

theorem body_overlaid (i : Instr) : Commutes (overlaid o) (body i) := by
  cases i with
  | encode tck tms tdi sreq => exact Commutes_map _ (encodeOp_overlaid o tck tms tdi sreq)
  | encodeRst trst srst => exact Commutes_map _ (encodeRstOp_overlaid o trst srst)
  | enq b => exact Commutes_map _ (enqOp_overlaid o b)
  | pulse tms tdi sreq => exact Commutes_map _ (pulseOp_overlaid o tms tdi sreq)
  | idle => exact Commutes_map _ (idleOp_overlaid o)
  | qAvail buf => exact Commutes_map _ (availOp_overlaid o buf)
  | qEmpty buf => exact Commutes_map _ (emptyOp_overlaid o buf)
  | qFull buf => exact Commutes_map _ (fullOp_overlaid o buf)
  | flush => exact Commutes_map _ (flushOp_overlaid o)
  | rxRead => exact Commutes_map _ (rxReadOp_overlaid o)
  | transition target => exact Commutes_map _ (transitionOp_overlaid o htap target)
  | cmdReset trst srst => exact Commutes_map _ (cmdResetOp_overlaid o htap trst srst)
  | cmdRuntest cycles endState => exact Commutes_map _ (cmdRuntestOp_overlaid o htap cycles endState)
  | cmdPathmove path => exact Commutes_map _ (cmdPathmoveOp_overlaid o htap path)
  | cmdStableclocks cycles => exact Commutes_map _ (cmdStableclocksOp_overlaid o htap cycles)
  | cmdTms nbits bits => exact Commutes_map _ (cmdTmsOp_overlaid o htap nbits bits)
  | cmdSleep us => exact Commutes_map _ (sleepOp_overlaid o us)
  | cmdScan payload => exact Commutes_map _ (cmdScanOp_overlaid hreturns htap payload)
  | adpEmit clock select data sampleRequest =>
    exact Commutes_map _ (adpEmitOp_overlaid o clock select data sampleRequest)
  | adpFlush => exact Commutes_map _ (flushOp_overlaid o)
  | adpDelay us => exact Commutes_map _ (sleepOp_overlaid o us)
  | adpAssertReset lineA lineB => exact Commutes_map _ (adpAssertResetOp_overlaid o lineA lineB)
  | adpAvail => exact Commutes_map _ (availOp_overlaid o .rx)
  | adpRead => exact Commutes_map _ (rxReadOp_overlaid o)
  | openSession => exact Commutes_map _ (openOp_overlaid o)
  | closeSession => exact Commutes_map _ (closeOp_overlaid o)
  | setSpeed khz => exact Commutes_map _ (setSpeedOp_overlaid o khz)
  | speedToKhz speed => exact Commutes_done _
  | khzToSpeed khz => exact khzToSpeedOp_overlaid o khz
  | setLatency args => exact Commutes_map _ (setLatencyOp_overlaid o args)
  | execute queue => exact Commutes_map _ (executeOp_overlaid hreturns hqi htap queue)

/-- An instruction writes `ret` besides, and looks at the mark. -/
theorem exec_overlaid (hret : o.ret = none) (i : Instr) (s : State) :
    exec i (overlaid o s) = onNext (overlaid o) (exec i s) := by
  cases hfault : s.fault with
  | some m =>
    rw [exec_of_fault i hfault, exec_of_fault (s := overlaid o s) i hfault]
    rfl
  | none =>
    have hbody := body_overlaid hreturns hqi htap i s
    cases hend : body i s with
    | done v t =>
      rw [hend] at hbody
      rw [exec_of_done hfault hend, exec_of_done (s := overlaid o s) hfault hbody]
      simp only [onNext, overlaid, hret, Option.getD_none]
    | raised t =>
      rw [hend] at hbody
      rw [exec_of_raised hfault hend, exec_of_raised (s := overlaid o s) hfault hbody]
      rfl
    | stuck e =>
      rw [hend] at hbody
      rw [exec_of_stuck hfault hend, exec_of_stuck (s := overlaid o s) hfault hbody]
      rfl

end

/-- The change of the histories alone. -/
def past (events : List Event) (out inn : List Byte) (calls : List DevCall) : Overlay where
  events := events
  out := out
  inn := inn
  calls := calls
  qi := none
  ret := none
  returns := none
  tap := none

theorem overlaid_past (events : List Event) (out inn : List Byte) (calls : List DevCall) :
    overlaid (past events out inn calls) = withPast events out inn calls := rfl

/-- Settles O14: longer histories are an overlay that changes nothing else. -/
theorem noOperationReadsTheHistories : Obligations.NoOperationReadsTheHistories := by
  unfold Obligations.NoOperationReadsTheHistories
  intro i s events out inn calls
  rw [← overlaid_past]
  exact exec_overlaid rfl rfl rfl rfl i s

end Sys2Proof.Proofs
end

section
/-! PROOF. Power-on (O11; R200), and which operations move the reset lines (O15; R205). -/

namespace Sys2Proof.Proofs

open Sys2Proof Sys2Proof.Machine Sys2Proof.Safety Sys2Proof.Laws

/-! ### Power-on -/

theorem norm_of_lt {t : TapService} {x : TapState} (h : x < t.count) : t.norm x = x := Nat.mod_eq_of_lt h

/-- Settles O11: power-on writes every register out, and takes the TapService's as they come. -/
theorem powerOnValues : Obligations.PowerOnValues := by
  unfold Obligations.PowerOnValues
  exact fun c cur fin => ⟨rfl, rfl, rfl, rfl, rfl, rfl, rfl, rfl, rfl, rfl, rfl, norm_of_lt, norm_of_lt⟩

/-! ### Bytes with both reset lines deasserted -/

/-- Every byte of a list leaves both reset lines deasserted (R61). -/
def AllReleased (p : PinMap) (bytes : List Byte) : Prop := ∀ b ∈ bytes, released p b

theorem allReleased_nil (p : PinMap) : AllReleased p [] := List.forall_mem_nil _

theorem AllReleased.append {p : PinMap} {bytes more : List Byte} (h : AllReleased p bytes) (h' : AllReleased p more) :
    AllReleased p (bytes ++ more) :=
  List.forall_mem_append.mpr ⟨h, h'⟩

theorem AllReleased.of_prefix {p : PinMap} {bytes more : List Byte} (h : AllReleased p more) (hprefix : bytes <+: more) :
    AllReleased p bytes :=
  fun b hb => h b (hprefix.subset hb)

/-- ENCODE deasserts both lines (R90). -/
theorem released_pinByte {p : PinMap} (hdistinct : p.distinct = true) (tck tms tdi sreq : Bool) :
    released p (pinByte p tck tms tdi sreq) := by
  obtain ⟨_, _, _, _, htrst, hsrst⟩ := pinByte_fields hdistinct tck tms tdi sreq
  exact ⟨htrst, hsrst⟩

/-! ### What keeps the lines deasserted -/

/-- From a queue of bytes that deassert both lines, only such bytes are queued and written. Defaults as in `Configures`. -/
structure KeepsReleased (s t : State) : Prop where
  cfg : t.cfg = s.cfg := by rfl
  queued : AllReleased s.cfg.pins s.tx → AllReleased s.cfg.pins t.tx := by exact id
  written : AllReleased s.cfg.pins s.tx → ∃ wrote, t.wireOut = s.wireOut ++ wrote ∧ AllReleased s.cfg.pins wrote := by
    exact fun _ => ⟨[], (List.append_nil _).symm, allReleased_nil _⟩

theorem KeepsReleased.trans {s t u : State} (h : KeepsReleased s t) (h' : KeepsReleased t u) : KeepsReleased s u where
  cfg := h'.cfg.trans h.cfg
  queued hs := h.cfg ▸ h'.queued (h.cfg.symm ▸ h.queued hs)
  written hs := by
    obtain ⟨first, hfirst, hfirstReleased⟩ := h.written hs
    obtain ⟨second, hsecond, hsecondReleased⟩ := h'.written (h.cfg.symm ▸ h.queued hs)
    rw [h.cfg] at hsecondReleased
    exact ⟨first ++ second, by rw [hsecond, hfirst, List.append_assoc], hfirstReleased.append hsecondReleased⟩

/-- A FLUSH writes the queue from its front, as far as it gets, and leaves nothing queued or, at a fault, the queue. -/
theorem keepsReleased_of_flushEnd {s : State} {r : Res Status} (hend : FlushEnd s.tx s.tx s r) :
    Lands KeepsReleased s r := by
  cases hend with
  | ok => exact { queued := fun _ => allReleased_nil _, written := fun hs => ⟨s.tx, rfl, hs⟩ }
  | failed wrote _ _ _ _ _ hprefix =>
    exact { queued := fun _ => allReleased_nil _, written := fun hs => ⟨wrote, rfl, hs.of_prefix hprefix⟩ }
  | overflow wrote _ _ _ _ hprefix =>
    exact ⟨{ written := fun hs => ⟨wrote, rfl, hs.of_prefix hprefix⟩ }, nofun⟩
  | stuck => trivial

theorem keepsReleased_keptTap : KeptTap (fun c b => released c.pins b) (fun _ _ => True) KeepsReleased where
  refl _ := {}
  trans := KeepsReleased.trans
  cfg h := h.cfg
  append _ _ _ _ hb := { queued := fun hs => hs.append (List.forall_mem_singleton.mpr hb) }
  flushed _ _ _ hend := keepsReleased_of_flushEnd hend
  read _ _ _ _ := {}
  logged _ _ := {}
  marked _ _ := {}
  pin _ _ _ _ _ hc := released_pinByte (ok_pins hc) _ _ _ _
  tap _ _ _ := {}
  tapEnd _ := {}
  named _ _ := trivial

/-- An operation that configures the session writes no byte, and queues none. -/
theorem Configures.keepsReleased {i : Instr} {s t : State} (h : Configures i s t) : KeepsReleased s t where
  cfg := h.cfg
  queued hs := by
    obtain htx | htx := h.tx
    · exact htx.symm ▸ hs
    · exact htx.symm ▸ allReleased_nil _
  written _ := ⟨[], by rw [h.wireOut, List.append_nil], allReleased_nil _⟩

theorem operandBytes_of_not_mayAssert {i : Instr} (hassert : mayAssert i = false) (B : Params → Byte → Prop)
    (c : Params) : operandBytes B c i := by
  cases i with
  | enq | cmdReset | adpAssertReset => cases hassert
  | _ => trivial

/-- An operation that may not assert a line appends pin bytes only. -/
theorem body_keepsReleased {i : Instr} {s : State} (hc : s.cfg.ok = true) (hassert : mayAssert i = false)
    (hsession : sessionOp i ≠ none) : Lands KeepsReleased s (body i s) := by
  refine body_keptTap keepsReleased_keptTap hc (operandBytes_of_not_mayAssert hassert _ _)
    (operandTaps_of_forall (fun _ _ => trivial) _ _) hsession ?_ ?_
  · rintro payload rfl; cases hassert
  · rintro queue rfl; cases hassert

/-- Settles O15: an operation that may not assert a line either configures the session or is made of the updates of
`KeptTap`, whose appends are of pin bytes. -/
theorem resetLinesMoveOnlyByResetOperations : Obligations.ResetLinesMoveOnlyByResetOperations := by
  unfold Obligations.ResetLinesMoveOnlyByResetOperations
  intro i s t hc hassert hexec hqueued
  have hkeeps : KeepsReleased s t := by
    by_cases hsession : sessionOp i = none
    · exact (exec_configures hsession hexec).keepsReleased
    · exact exec_next_of_lands (fun _ _ h => { h with }) (body_keepsReleased hc hassert hsession) hexec
  exact ⟨hkeeps.queued hqueued, hkeeps.written hqueued⟩

end Sys2Proof.Proofs
end

section
/-! PROOF. A reset followed directly by a sleep is held over the delay (O46; R211). -/

namespace Sys2Proof.Proofs

open Sys2Proof Sys2Proof.Machine Sys2Proof.Safety Sys2Proof.Laws

theorem runInstrs_singleton (i : Instr) (s : State) : runInstrs [i] s = exec i s := by
  unfold runInstrs
  cases exec i s with
  | next t => exact ite_self _
  | fault f => rfl
  | refused r => rfl

/-- CMD_RESET appends its byte and leaves the session ready for the operation after it. -/
theorem exec_cmdReset_stays {trst srst : Bool} {s : State} (hready : Ready s) :
    ∃ t, exec (.cmdReset trst srst) s = .next t ∧ Emits [resetByte s.cfg.pins trst srst] s t ∧ Ready t := by
  obtain ⟨t, hexec, hemits, _, _⟩ := exec_cmdReset_ready (trst := trst) (srst := srst) hready
  obtain ⟨u, hreset, hstays⟩ := cmdResetOp_stays hready trst srst
  have hexec' : exec (.cmdReset trst srst) s = .next { u with ret := .unit } :=
    exec_of_done hready.unfaulted (by rw [body, hreset, map_done])
  obtain rfl : t = { u with ret := .unit } := Host.Outcome.next.inj (hexec.symm.trans hexec')
  exact ⟨_, hexec, hemits, { hstays.ready with }⟩

/-- The two ways a sleep runs to its end, told apart by the events: a flush that succeeds logs nothing and writes all that
was queued, one that fails logs its W_TRANSPORT before the delay (R106, R136). -/
theorem exec_cmdSleep_ready {us : Nat} {s t : State} (hready : Ready s) (hexec : exec (.cmdSleep us) s = .next t) :
    t.events = s.events ++ [.delay us] ∧ t.wireOut = s.wireOut ++ s.tx ∨
      ∃ w r, t.events = s.events ++ [.log (.wTransport w r) .flush, .delay us] := by
  obtain ⟨st, u, hflush, hend, _, _⟩ := flushOp_ready 0 s hready
  have hexec' := exec_of_done hready.unfaulted (body_sleep_done (us := us) (.inl rfl) hready.opened hflush)
  obtain rfl := Host.Outcome.next.inj (hexec.symm.trans hexec')
  cases hend with
  | ok => exact .inl ⟨rfl, rfl⟩
  | failed _ _ w r => exact .inr ⟨w, r, List.append_assoc _ _ _⟩

/-- Settles O46: that the run's only event is the delay says that nothing was logged by the append or by the flush, so the
reset byte was queued last and all that was queued is written. -/
theorem resetIsHeldAcrossASleep : Obligations.ResetIsHeldAcrossASleep := by
  unfold Obligations.ResetIsHeldAcrossASleep
  intro trst srst us s t hready hrun hevents
  obtain ⟨u, hreset, hemits, hu⟩ := exec_cmdReset_stays (trst := trst) (srst := srst) hready
  rw [runInstrs_of_next hreset hu.unfaulted, runInstrs_singleton] at hrun
  obtain ⟨hdelay, hwritten⟩ | ⟨w, r, hlogged⟩ := exec_cmdSleep_ready hu hrun
  · have hquiet : u.events = s.events := List.append_cancel_right (hdelay.symm.trans hevents)
    rw [lineLatch, hwritten, (hemits.stream hquiet).1, List.getLast?_concat]
  · have hgrown := hemits.logged.length_le
    have hlength := congrArg List.length (hlogged.symm.trans hevents)
    simp only [List.length_append, List.length_cons, List.length_nil] at hlength
    omega

end Sys2Proof.Proofs
end
